-- ==== Sys2Proof/Word.lean ====
section
/-! DEFINITION. The word types of the BZDEC core and the plain-data form of its internal memories
(spec/00_scope.md R10; spec/20_memory.md R80). -/

namespace Sys2Proof

/-- A `u32` value: CRC words, the bit accumulator, the counters, the host registers (R10). -/
abbrev Word := BitVec 32

/-- A `u8` value: a source byte, a sink byte, a FrontList entry. -/
abbrev Byte := BitVec 8

/-- An internal memory as plain data: (index, element) pairs, indexes strictly rising. An unlisted index
has no value (spec/10_state.md, header; R47), except in `hist`, where it reads 0. -/
abbrev Memory (α : Type) := List (Nat × α)

end Sys2Proof
end

