-- ==== Sys2Proof/Config.lean ====
section
/-! DEFINITION. What is fixed for the machine: the implementation parameters of spec/00_scope.md R7, the
detail codes of spec/60_exceptions.md R373, the names and sizes of the internal memories
(spec/20_memory.md R80), the randomisation table (spec/46_bwt.md R307) and the open base address of the
host window (spec/20_memory.md R94). -/

namespace Sys2Proof

/-- The internal memories, for naming a read or a write that the spec does not allow
(spec/20_memory.md R80, R83; spec/93 I2, I3). -/
inductive MemName where
  | bwtBlock | mp | selectors | codeLen | tables | base | limit | perm | selFL | mtfFL | symMap | hist
  deriving DecidableEq, Repr

namespace Config

/-- MIN_MULT and MAX_MULT: the block-size multiplier is 1..9 (R7). -/
def minMult : Nat := 1
def maxMult : Nat := 9
/-- blockSize = multiplier × 100000 (R6). -/
def blockUnit : Nat := 100000
/-- MAX_BLOCK (R7). -/
def maxBlock : Nat := 900000
/-- MIN_TABLES and MAX_TABLES (R7). -/
def minTables : Nat := 2
def maxTables : Nat := 6
/-- MAX_SYMBOLS (R7). -/
def maxSymbols : Nat := 258
/-- GROUP_SIZE: symbols per selector (R7). -/
def groupSize : Nat := 50
/-- FRONTLIST_SIZE (R7). -/
def frontListSize : Nat := 256
/-- LENGTH_SLOTS (R7). -/
def lengthSlots : Nat := 24
/-- MAX_CODE_LEN, a parameter of R7 at its stated default (log 18). -/
def maxCodeLen : Nat := 23
/-- MAX_SELECTORS, a parameter of R7 at its stated default (log 18). -/
def maxSelectors : Nat := 18002
/-- RNUMS_SIZE (R7). -/
def rnumsSize : Nat := 512
/-- BITCURSOR_MAX_READ: bits per readBits call (R7, spec/40_bitcursor.md R162). -/
def maxRead : Nat := 24
/-- The CRC generator polynomial (R7, spec/41_crc.md R180). -/
def crcPoly : Word := 0x04C11DB7#32
/-- The CRC initial value and the final complement's mask (spec/41_crc.md R180). -/
def crcInit : Word := 0xFFFFFFFF#32

/-- CSR_BASE: where the platform puts the host window. The spec leaves it OPEN (spec/20_memory.md R94,
spec/93 I8), so nothing evaluates it and no proof knows its value (log 10). -/
opaque csrBase : Nat

/-- The number of elements of each internal memory (spec/20_memory.md R80). `codeLen` is the six tables'
258 lengths one after another; `tables` counts the six table sets, and `base`, `limit` and `perm` are sized
within one set (spec/10_state.md R37). -/
def memSize : MemName → Nat
  | .bwtBlock => maxBlock
  | .mp => maxBlock
  | .selectors => maxSelectors
  | .codeLen => maxTables * maxSymbols
  | .tables => maxTables
  | .base => lengthSlots
  | .limit => lengthSlots
  | .perm => maxSymbols
  | .selFL => frontListSize
  | .mtfFL => frontListSize
  | .symMap => 256
  | .hist => 256

/-! The detail codes of spec/60_exceptions.md R373. -/
def detailNone : BitVec 4 := 0#4
def detailMagic : BitVec 4 := 1#4
def detailH : BitVec 4 := 2#4
def detailLevel : BitVec 4 := 3#4
def detailTables : BitVec 4 := 1#4
def detailSelCount : BitVec 4 := 2#4
def detailSelMtf : BitVec 4 := 3#4
def detailCodeLen : BitVec 4 := 4#4
def detailNoSymbols : BitVec 4 := 5#4
def detailSelOvf : BitVec 4 := 6#4
def detailBadCode : BitVec 4 := 7#4
def detailCapacity : BitVec 4 := 8#4
def detailOrigPtr : BitVec 4 := 9#4
def detailRle4Count : BitVec 4 := 10#4

/-! The table of spec/46_bwt.md R307, RNUMS[0..511], in eight pieces of 64 entries. -/
def rnums0 : List Nat :=
  [619, 720, 127, 481, 931, 816, 813, 233, 566, 247, 985, 724, 205, 454, 863, 491,
   741, 242, 949, 214, 733, 859, 335, 708, 621, 574, 73, 654, 730, 472, 419, 436,
   278, 496, 867, 210, 399, 680, 480, 51, 878, 465, 811, 169, 869, 675, 611, 697,
   867, 561, 862, 687, 507, 283, 482, 129, 807, 591, 733, 623, 150, 238, 59, 379]
def rnums1 : List Nat :=
  [684, 877, 625, 169, 643, 105, 170, 607, 520, 932, 727, 476, 693, 425, 174, 647,
   73, 122, 335, 530, 442, 853, 695, 249, 445, 515, 909, 545, 703, 919, 874, 474,
   882, 500, 594, 612, 641, 801, 220, 162, 819, 984, 589, 513, 495, 799, 161, 604,
   958, 533, 221, 400, 386, 867, 600, 782, 382, 596, 414, 171, 516, 375, 682, 485]
def rnums2 : List Nat :=
  [911, 276, 98, 553, 163, 354, 666, 933, 424, 341, 533, 870, 227, 730, 475, 186,
   263, 647, 537, 686, 600, 224, 469, 68, 770, 919, 190, 373, 294, 822, 808, 206,
   184, 943, 795, 384, 383, 461, 404, 758, 839, 887, 715, 67, 618, 276, 204, 918,
   873, 777, 604, 560, 951, 160, 578, 722, 79, 804, 96, 409, 713, 940, 652, 934]
def rnums3 : List Nat :=
  [970, 447, 318, 353, 859, 672, 112, 785, 645, 863, 803, 350, 139, 93, 354, 99,
   820, 908, 609, 772, 154, 274, 580, 184, 79, 626, 630, 742, 653, 282, 762, 623,
   680, 81, 927, 626, 789, 125, 411, 521, 938, 300, 821, 78, 343, 175, 128, 250,
   170, 774, 972, 275, 999, 639, 495, 78, 352, 126, 857, 956, 358, 619, 580, 124]
def rnums4 : List Nat :=
  [737, 594, 701, 612, 669, 112, 134, 694, 363, 992, 809, 743, 168, 974, 944, 375,
   748, 52, 600, 747, 642, 182, 862, 81, 344, 805, 988, 739, 511, 655, 814, 334,
   249, 515, 897, 955, 664, 981, 649, 113, 974, 459, 893, 228, 433, 837, 553, 268,
   926, 240, 102, 654, 459, 51, 686, 754, 806, 760, 493, 403, 415, 394, 687, 700]
def rnums5 : List Nat :=
  [946, 670, 656, 610, 738, 392, 760, 799, 887, 653, 978, 321, 576, 617, 626, 502,
   894, 679, 243, 440, 680, 879, 194, 572, 640, 724, 926, 56, 204, 700, 707, 151,
   457, 449, 797, 195, 791, 558, 945, 679, 297, 59, 87, 824, 713, 663, 412, 693,
   342, 606, 134, 108, 571, 364, 631, 212, 174, 643, 304, 329, 343, 97, 430, 751]
def rnums6 : List Nat :=
  [497, 314, 983, 374, 822, 928, 140, 206, 73, 263, 980, 736, 876, 478, 430, 305,
   170, 514, 364, 692, 829, 82, 855, 953, 676, 246, 369, 970, 294, 750, 807, 827,
   150, 790, 288, 923, 804, 378, 215, 828, 592, 281, 565, 555, 710, 82, 896, 831,
   547, 261, 524, 462, 293, 465, 502, 56, 661, 821, 976, 991, 658, 869, 905, 758]
def rnums7 : List Nat :=
  [745, 193, 768, 550, 608, 933, 378, 286, 215, 979, 792, 961, 61, 688, 793, 644,
   986, 403, 106, 366, 905, 644, 372, 567, 466, 434, 645, 210, 389, 550, 919, 135,
   780, 773, 635, 389, 707, 100, 626, 958, 165, 504, 920, 176, 193, 713, 857, 265,
   203, 50, 668, 108, 645, 990, 626, 197, 510, 357, 358, 850, 858, 364, 936, 638]

/-- RNUMS, a parameter of R7 at its stated default, the table of R307 (log 18). -/
def rnums : List Nat :=
  rnums0 ++ rnums1 ++ rnums2 ++ rnums3 ++ rnums4 ++ rnums5 ++ rnums6 ++ rnums7

end Config

end Sys2Proof
end

