-- ==== Sys2Proof/Syntax.lean ====
section
/-! DEFINITION. The 26 syntax elements of the compressed stream, which play the part of instructions
(spec/00_scope.md R2; spec/30_encoding.md R130; spec/opcode_table.json, one constructor a row). -/

namespace Sys2Proof

/-- One syntax element with its operands. Every operand is unsigned (spec/30_encoding.md R124). -/
inductive Instr where
  /-- HDR_MAGIC: 16 bits 0x425A (spec/48_stream.md R341). -/
  | hdrMagic
  /-- HDR_H: 8 bits 0x68 (R342). -/
  | hdrH
  /-- HDR_LEVEL d: 8 bits, the ASCII digit of the block-size multiplier (R343). -/
  | hdrLevel (d : Byte)
  /-- MARK_BLOCK: 48 bits 0x314159265359 (R345). -/
  | markBlock
  /-- MARK_END: 48 bits 0x177245385090 (R346). -/
  | markEnd
  /-- STREAM_CRC crc: 32 bits, the stored combined CRC (R348). -/
  | streamCrc (crc : Word)
  /-- BLK_CRC crc: 32 bits, the stored block CRC (spec/44_block_header.md R241). -/
  | blkCrc (crc : Word)
  /-- BLK_RAND r: 1 bit, the randomised flag (R242). -/
  | blkRand (r : Bool)
  /-- BLK_ORIGPTR p: 24 bits, the BWT start pointer (R243). -/
  | blkOrigPtr (p : BitVec 24)
  /-- MAP_USED m: 16 bits, the range-used bitmap (R244). -/
  | mapUsed (m : BitVec 16)
  /-- MAP_PRESENT p: 16 bits, the presence bitmap of one used range (R245). -/
  | mapPresent (p : BitVec 16)
  /-- NGROUPS n: 3 bits, the table count (R247). -/
  | nGroups (n : BitVec 3)
  /-- NSELECTORS k: 15 bits, the selector count (R248). -/
  | nSelectors (k : BitVec 15)
  /-- SEL_MTF j: `1^j 0`, a move-to-front index of a table (R250). -/
  | selMtf (j : Nat)
  /-- CL_START l: 5 bits, a table's starting running length (R251). -/
  | clStart (l : BitVec 5)
  /-- CL_DONE: `0`, record the running length (R252). -/
  | clDone
  /-- CL_INC: `10`, running length + 1 (R253). -/
  | clInc
  /-- CL_DEC: `11`, running length − 1 (R254). -/
  | clDec
  /-- RUNA: Huffman symbol 0 (spec/45_symbol_decode.md R281). -/
  | runa
  /-- RUNB: Huffman symbol 1 (R282). -/
  | runb
  /-- MTFV s: Huffman symbol s, 2..numInUse (R284). -/
  | mtfv (s : Nat)
  /-- EOB: Huffman symbol numInUse + 1 (R285). -/
  | eob
  /-- RLE4_LIT b: a walk byte that differs from the last one (spec/47_rle4_output.md R321). -/
  | rle4Lit (b : Byte)
  /-- RLE4_REP b: an equal byte while fewer than three have been seen (R322). -/
  | rle4Rep (b : Byte)
  /-- RLE4_RUN b: the fourth consecutive equal byte (R323). -/
  | rle4Run (b : Byte)
  /-- RLE4_COUNT c: the byte after an RLE4_RUN byte, the repeat count (R324). -/
  | rle4Count (c : Byte)
  deriving DecidableEq, Repr

end Sys2Proof
end

