-- ==== Sys2Proof/WellFormed.lean ====
section
/-! DEFINITION. Which operands an element can carry at all, whatever the context. What the context adds
(numTables, the active alphabet, the run-length state) is `Ctx.admits` in Sys2Proof/Decode.lean. -/

namespace Sys2Proof

/-- An operand its type does not already bound lies in the range the encoding has for it: SEL_MTF's j is
below MAX_TABLES (spec/30_encoding.md R119, R127), and MTFV's s is 2..256, the most numInUse can be
(R121; spec/10_state.md R33). Values that the encoding admits and a later check rejects (HDR_LEVEL '0',
NGROUPS 7) are well formed: they are read, and their own rules raise the error (R125). -/
def Instr.wellFormed : Instr → Bool
  | .selMtf j => decide (j < Config.maxTables)
  | .mtfv s => decide (2 ≤ s) && decide (s ≤ 256)
  | .hdrMagic | .hdrH | .hdrLevel _ | .markBlock | .markEnd | .streamCrc _ => true
  | .blkCrc _ | .blkRand _ | .blkOrigPtr _ | .mapUsed _ | .mapPresent _ => true
  | .nGroups _ | .nSelectors _ | .clStart _ | .clDone | .clInc | .clDec => true
  | .runa | .runb | .eob => true
  | .rle4Lit _ | .rle4Rep _ | .rle4Run _ | .rle4Count _ => true

end Sys2Proof
end

