-- ==== Sys2Proof/Decode.lean ====
section
/-! DEFINITION. Decoding and encoding of the syntax elements (spec/30_encoding.md).

No element carries its own length or kind: what is read next follows from the core's position alone (R111).
So the decoder takes a CONTEXT, which says which element comes next and holds what its reading depends on,
and the bits read so far, and it answers one of three things: how many bits the next BitCursor read takes,
the instruction those bits are, or why they are none. It never asks for more bits than its rule reads. -/

namespace Sys2Proof

/-! ## Bits and numbers -/

/-- The `n` low bits of `v`, most significant first: stream order (spec/20_memory.md R85). -/
def natToBits : Nat → Nat → List Bool
  | 0, _ => []
  | n + 1, v => v.testBit n :: natToBits n v

/-- The value of a bit string whose first bit is its most significant (spec/00_scope.md R9). -/
def bitsToNat (bits : List Bool) : Nat :=
  bits.foldl (fun a b => 2 * a + b.toNat) 0

/-! ## Reading a sparse memory -/

/-- The element listed at index `i`, if there is one (spec/20_memory.md R83). -/
def Memory.lookup {α : Type} : Memory α → Nat → Option α
  | [], _ => none
  | (k, v) :: rest, i => if k = i then some v else Memory.lookup rest i

/-! ## Contexts -/

/-- One set of Huffman decode tables (spec/10_state.md R37): the observed extrema, `base` and `limit` by
length slot, and `perm` by rank. -/
structure HuffTable where
  minLen : Nat
  maxLen : Nat
  base : Memory Int
  limit : Memory Int
  perm : List Nat
  deriving DecidableEq, Repr

/-- What decides how the next bits are read (R111, R130). `symbol` holds the code lengths of the active
table, which the encoder reads, and the decode tables built from them, which the decoder reads. -/
inductive Ctx where
  | hdrMagic | hdrH | hdrLevel
  | marker | streamCrc
  | blkCrc | blkRand | blkOrigPtr
  | mapUsed | mapPresent
  | nGroups | nSelectors
  | selMtf (numTables : Nat)
  | clStart | cld
  | symbol (lens : List Nat) (table : HuffTable) (eob : Nat)
  | rle (last : Option Byte) (acc : Nat)
  | rleCount
  deriving DecidableEq, Repr

/-- Why a bit string is no instruction. The first five are the stream errors of R125; `noValue` is a read
of a decode-table element with no value, which the spec says never happens (spec/10_state.md R47). -/
inductive Reject where
  /-- HDR_MAGIC ≠ 0x425A (spec/48_stream.md R341). -/
  | magic
  /-- HDR_H ≠ 0x68 (R342). -/
  | h
  /-- A 48-bit value that is neither marker (R347). -/
  | marker
  /-- The numTables-th consecutive 1 bit of a selector (spec/44_block_header.md R250). -/
  | selMtf
  /-- A MAX_CODE_LEN-bit candidate above its limit (spec/43_huffman.md R217). -/
  | badCode
  /-- A decode-table element with no value (spec/93 I2). -/
  | noValue (m : MemName)
  /-- An index outside a decode table (spec/93 I3). -/
  | outOfRange (m : MemName)
  deriving DecidableEq, Repr

/-- What the decoder answers on the bits read so far. -/
inductive Decoded where
  | more (n : Nat)
  | instr (i : Instr)
  | reject (why : Reject)
  deriving DecidableEq, Repr

/-! ## The formats of R110 -/

/-- FIX(n): `n` bits, in BitCursor reads of `chunk` bits each (one read, or two halves for the 32-bit and
48-bit fields: spec/40_bitcursor.md R164, spec/48_stream.md R344). -/
def fixed (n chunk : Nat) (k : Nat → Decoded) (bits : List Bool) : Decoded :=
  if bits.length < n then .more (min chunk (n - bits.length)) else k (bitsToNat bits)

/-- UNARY with its bound: `j` one-bits read so far (spec/44_block_header.md R250). The abort comes as soon
as the numTables-th 1 bit has been read. -/
def decodeUnary (numTables : Nat) : Nat → List Bool → Decoded
  | _, [] => .more 1
  | j, false :: _ => .instr (.selMtf j)
  | j, true :: rest =>
    if numTables ≤ j + 1 then .reject .selMtf else decodeUnary numTables (j + 1) rest

/-- CLD: `0` is CL_DONE, `10` CL_INC, `11` CL_DEC (R120). -/
def decodeCld : List Bool → Decoded
  | [] => .more 1
  | false :: _ => .instr .clDone
  | [true] => .more 1
  | true :: false :: _ => .instr .clInc
  | true :: true :: _ => .instr .clDec

/-- The payload alphabet (R121; the case order of spec/45_symbol_decode.md R280). -/
def symbolInstr (eob s : Nat) : Instr :=
  if s = 0 then .runa
  else if s = 1 then .runb
  else if s = eob then .eob
  else .mtfv s

/-- `limit[t][L]` or `base[t][L]`: slot `L` of one set's memory `m` (spec/20_memory.md R83). -/
def slotAt (nm : MemName) (m : Memory Int) (L : Nat) : Except Reject Int :=
  if Config.memSize nm ≤ L then .error (.outOfRange nm)
  else
    match Memory.lookup m L with
    | none => .error (.noValue nm)
    | some v => .ok v

/-- `perm[t][r]`: `perm` holds the ranks of the alphabet it was built for and no other
(spec/43_huffman.md R214). -/
def permAt (t : HuffTable) (r : Int) : Except Reject Nat :=
  if r < 0 then .error (.outOfRange .perm)
  else
    match t.perm[r.toNat]? with
    | none => .error (.noValue .perm)
    | some s => .ok s

/-- HUF: one turn of the loop of decodeSymbol (spec/43_huffman.md R217). The candidate is the value of the
bits read so far and the length L is their number. -/
def decodeSymbol (t : HuffTable) (eob : Nat) (bits : List Bool) : Decoded :=
  if bits.length < t.minLen then .more (t.minLen - bits.length)
  else
    match slotAt .limit t.limit bits.length with
    | .error why => .reject why
    | .ok lim =>
      if (bitsToNat bits : Int) ≤ lim then
        match slotAt .base t.base bits.length with
        | .error why => .reject why
        | .ok b =>
          match permAt t ((bitsToNat bits : Int) - b) with
          | .error why => .reject why
          | .ok s => .instr (symbolInstr eob s)
      else if bits.length = Config.maxCodeLen then .reject .badCode
      else .more 1

/-- BYTE: the RLE4 class of a walk byte (R123; the case order of spec/47_rle4_output.md R320). -/
def rleClass (last : Option Byte) (acc : Nat) (b : Byte) : Instr :=
  if last ≠ some b then .rle4Lit b
  else if acc < 3 then .rle4Rep b
  else .rle4Run b

/-! ## The decoder -/

/-- The decoder, total on every context and every bit string. -/
def decodeBits (c : Ctx) (bits : List Bool) : Decoded :=
  match c with
  | .hdrMagic => fixed 16 16 (fun v => if v = 0x425A then .instr .hdrMagic else .reject .magic) bits
  | .hdrH => fixed 8 8 (fun v => if v = 0x68 then .instr .hdrH else .reject .h) bits
  | .hdrLevel => fixed 8 8 (fun v => .instr (.hdrLevel (BitVec.ofNat 8 v))) bits
  | .marker =>
    fixed 48 24
      (fun v =>
        if v = 0x314159265359 then .instr .markBlock
        else if v = 0x177245385090 then .instr .markEnd
        else .reject .marker)
      bits
  | .streamCrc => fixed 32 16 (fun v => .instr (.streamCrc (BitVec.ofNat 32 v))) bits
  | .blkCrc => fixed 32 16 (fun v => .instr (.blkCrc (BitVec.ofNat 32 v))) bits
  | .blkRand => fixed 1 1 (fun v => .instr (.blkRand (v == 1))) bits
  | .blkOrigPtr => fixed 24 24 (fun v => .instr (.blkOrigPtr (BitVec.ofNat 24 v))) bits
  | .mapUsed => fixed 16 16 (fun v => .instr (.mapUsed (BitVec.ofNat 16 v))) bits
  | .mapPresent => fixed 16 16 (fun v => .instr (.mapPresent (BitVec.ofNat 16 v))) bits
  | .nGroups => fixed 3 3 (fun v => .instr (.nGroups (BitVec.ofNat 3 v))) bits
  | .nSelectors => fixed 15 15 (fun v => .instr (.nSelectors (BitVec.ofNat 15 v))) bits
  | .selMtf numTables => decodeUnary numTables 0 bits
  | .clStart => fixed 5 5 (fun v => .instr (.clStart (BitVec.ofNat 5 v))) bits
  | .cld => decodeCld bits
  | .symbol _ table eob => decodeSymbol table eob bits
  | .rle last acc => fixed 8 8 (fun v => .instr (rleClass last acc (BitVec.ofNat 8 v))) bits
  | .rleCount => fixed 8 8 (fun v => .instr (.rle4Count (BitVec.ofNat 8 v))) bits

/-- The decoder run over a bit string that holds the element first: the instruction and the bits after it.
Each round takes the bits of one BitCursor read. -/
def decodeFrom (c : Ctx) : Nat → List Bool → List Bool → Option (Instr × List Bool)
  | 0, _, _ => none
  | fuel + 1, got, rest =>
    match decodeBits c got with
    | .instr i => some (i, rest)
    | .reject _ => none
    | .more n =>
      if rest.length < n then none
      else decodeFrom c fuel (got ++ rest.take n) (rest.drop n)

/-- The first element of a bit string in context `c`. -/
def decode (c : Ctx) (bits : List Bool) : Option (Instr × List Bool) :=
  decodeFrom c (bits.length + 1) [] bits

/-! ## The encoder -/

/-- The number of symbols of length `l` (spec/43_huffman.md R212, `cnt`). -/
def lenCount (lens : List Nat) (l : Nat) : Nat := lens.count l

/-- The smallest code length (R211). -/
def lenMin : List Nat → Nat
  | [] => 0
  | l :: rest => rest.foldl min l

/-- The largest code length (R211). -/
def lenMax : List Nat → Nat
  | [] => 0
  | l :: rest => rest.foldl max l

/-- `first[l]` of R122: the first canonical codeword of length `l`. -/
def firstCode (lens : List Nat) : Nat → Nat
  | 0 => 0
  | l + 1 =>
    if l + 1 ≤ lenMin lens then 0 else (firstCode lens l + lenCount lens l) * 2

/-- The canonical codeword of symbol `s` (R122): `first[l]` plus the number of smaller symbols of the same
length, in `l` bits. -/
def codeword (lens : List Nat) (s : Nat) : List Bool :=
  match lens[s]? with
  | none => []
  | some l => natToBits l (firstCode lens l + lenCount (lens.take s) l)

/-- The code lengths a payload context encodes with. -/
def Ctx.lens : Ctx → List Nat
  | .symbol lens _ _ => lens
  | _ => []

/-- The end-of-block symbol of a payload context (spec/44_block_header.md R246). -/
def Ctx.eobSymbol : Ctx → Nat
  | .symbol _ _ eob => eob
  | _ => 0

/-- The bits of an element, first stream bit first (R113 to R123). Only a payload symbol's bits depend on
the context. -/
def encode (c : Ctx) (i : Instr) : List Bool :=
  match i with
  | .hdrMagic => natToBits 16 0x425A
  | .hdrH => natToBits 8 0x68
  | .hdrLevel d => natToBits 8 d.toNat
  | .markBlock => natToBits 24 0x314159 ++ natToBits 24 0x265359
  | .markEnd => natToBits 24 0x177245 ++ natToBits 24 0x385090
  | .streamCrc crc => natToBits 32 crc.toNat
  | .blkCrc crc => natToBits 32 crc.toNat
  | .blkRand r => [r]
  | .blkOrigPtr p => natToBits 24 p.toNat
  | .mapUsed m => natToBits 16 m.toNat
  | .mapPresent p => natToBits 16 p.toNat
  | .nGroups n => natToBits 3 n.toNat
  | .nSelectors k => natToBits 15 k.toNat
  | .selMtf j => List.replicate j true ++ [false]
  | .clStart l => natToBits 5 l.toNat
  | .clDone => [false]
  | .clInc => [true, false]
  | .clDec => [true, true]
  | .runa => codeword c.lens 0
  | .runb => codeword c.lens 1
  | .mtfv s => codeword c.lens s
  | .eob => codeword c.lens c.eobSymbol
  | .rle4Lit b => natToBits 8 b.toNat
  | .rle4Rep b => natToBits 8 b.toNat
  | .rle4Run b => natToBits 8 b.toNat
  | .rle4Count n => natToBits 8 n.toNat

/-- The context can hold the element with these operands (R121, R123, R125, R130). -/
def Ctx.admits (c : Ctx) (i : Instr) : Bool :=
  match i with
  | .hdrMagic => decide (c = .hdrMagic)
  | .hdrH => decide (c = .hdrH)
  | .hdrLevel _ => decide (c = .hdrLevel)
  | .markBlock => decide (c = .marker)
  | .markEnd => decide (c = .marker)
  | .streamCrc _ => decide (c = .streamCrc)
  | .blkCrc _ => decide (c = .blkCrc)
  | .blkRand _ => decide (c = .blkRand)
  | .blkOrigPtr _ => decide (c = .blkOrigPtr)
  | .mapUsed _ => decide (c = .mapUsed)
  | .mapPresent _ => decide (c = .mapPresent)
  | .nGroups _ => decide (c = .nGroups)
  | .nSelectors _ => decide (c = .nSelectors)
  | .selMtf j => match c with | .selMtf numTables => decide (j < numTables) | _ => false
  | .clStart _ => decide (c = .clStart)
  | .clDone => decide (c = .cld)
  | .clInc => decide (c = .cld)
  | .clDec => decide (c = .cld)
  | .runa => match c with | .symbol lens _ eob => decide (0 < lens.length ∧ 0 < eob) | _ => false
  | .runb => match c with | .symbol lens _ eob => decide (1 < lens.length ∧ 1 < eob) | _ => false
  | .mtfv s =>
    match c with
    | .symbol lens _ eob => decide (2 ≤ s ∧ s < eob ∧ s < lens.length)
    | _ => false
  | .eob => match c with | .symbol lens _ eob => decide (2 ≤ eob ∧ eob < lens.length) | _ => false
  | .rle4Lit b => match c with | .rle last _ => decide (last ≠ some b) | _ => false
  | .rle4Rep b => match c with | .rle last acc => decide (last = some b ∧ acc < 3) | _ => false
  | .rle4Run b => match c with | .rle last acc => decide (last = some b ∧ 3 ≤ acc) | _ => false
  | .rle4Count _ => decide (c = .rleCount)

/-! ## The host's table words -/

/-- A context and a width in bits for a table word that comes without its context. The spec gives an
element no meaning outside its context (R111), so this choice is an interface convention and no claim
about the hardware (log 16). A width that is exactly one FIX element's own selects that element; a width
the table rounds up to whole bytes is told apart by its value. -/
def tableCtx (nbits w : Nat) : Option (Nat × Ctx) :=
  match nbits with
  | 1 => some (1, .blkRand)
  | 2 => some (2, .cld)
  | 3 => some (3, .nGroups)
  | 5 => some (5, .clStart)
  | 8 =>
    if w = 0 then some (1, .cld)
    else if w = 1 then some (1, .blkRand)
    else if w ≤ 3 then some (2, .cld)
    else if w ≤ 7 then some (3, .nGroups)
    else if w ≤ 31 then some (5, .clStart)
    else if w = 0x68 then some (8, .hdrH)
    else if w / 16 = 3 then some (8, .hdrLevel)
    else some (8, .rle none 0)
  | 15 => some (15, .nSelectors)
  | 16 =>
    if w = 0x425A then some (16, .hdrMagic)
    else if w = 0 then some (16, .mapUsed)
    else if w ≤ Config.maxSelectors then some (15, .nSelectors)
    else some (16, .mapPresent)
  | 24 => some (24, .blkOrigPtr)
  | 32 => if w = 0 then some (32, .streamCrc) else some (32, .blkCrc)
  | 48 => some (48, .marker)
  | _ => none

/-- The instruction the decoder reads from a table word, in the context `tableCtx` picks for it. -/
def decodeTableWord (nbits w : Nat) : Option Instr :=
  match tableCtx nbits w with
  | none => none
  | some (n, c) =>
    match decode c (natToBits n w) with
    | none => none
    | some (i, _) => some i

end Sys2Proof
end

