-- ==== Sys2Proof/Machine/State.lean ====
section
/-! DEFINITION. The machine's state as plain data (spec/10_state.md), what its environment has offered and
taken (spec/60_exceptions.md R391), and the state after reset (spec/70_reset_and_hazards.md R410, R411). -/

namespace Sys2Proof.Machine

/-- The StreamDecoder state (R21). Code 7 is never written, so it has no name here. -/
inductive Phase where
  | idle | header | awaitBlock | inBlock | trailer | done | error
  deriving DecidableEq, Repr

/-- The BlockDecoder state (R22). Code 7 is never written. -/
inductive BPhase where
  | none | bheader | tables | symbols | bwtInvert | streaming | exhausted
  deriving DecidableEq, Repr

/-- The error kinds (spec/60_exceptions.md R372). Code 7 is never written. -/
inductive ErrKind where
  | none | truncatedInput | invalidHeader | corruptBlock | blockCRCMismatch | streamCRCMismatch
  | streamFormatError
  deriving DecidableEq, Repr

/-- The syntax element or internal stage the core comes to next: with the loop counters below, the position
within (`phase`, `bphase`) that R20 and spec/30_encoding.md R111 speak of (log 2). `select` is the selector
advance (spec/43_huffman.md R218), `invert` the BWT inversion (spec/46_bwt.md R300). -/
inductive Slot where
  | hdrMagic | hdrH | hdrLevel
  | marker | streamCrc
  | blkCrc | blkRand | blkOrigPtr
  | mapUsed | mapPresent
  | nGroups | nSelectors | selMtf
  | clStart | cld
  | select | symbol
  | invert
  | rle | rleCount
  deriving DecidableEq, Repr

/-- One answer of the byte source (spec/20_memory.md R81). -/
inductive SrcAnswer where
  | byte (b : Byte)
  | eof
  deriving DecidableEq, Repr

/-- One event of the environment (spec/60_exceptions.md R391), or the core's turn. Addresses are bus
addresses and widths are in bytes. -/
inductive EnvEvent where
  /-- The core takes its step. -/
  | core
  /-- The reset pulse (spec/70_reset_and_hazards.md R410). -/
  | reset
  /-- A host read (R50). -/
  | read (addr width : Nat)
  /-- A host write (R50). -/
  | write (addr width : Nat) (value : Word)
  /-- The source has its next byte ready. -/
  | srcByte (b : Byte)
  /-- The source is exhausted: EOF comes behind the bytes it still has. -/
  | srcEnd
  /-- The host closes the source, which cancels the run: the next request is answered EOF, whatever bytes
  the source still had (R391; spec/40_bitcursor.md R165; log 4). -/
  | srcClose
  /-- The sink makes room for `n` more bytes. -/
  | snkRoom (n : Nat)
  deriving DecidableEq, Repr

/-- Where a run can stop. The spec says a correct model reaches none of these (R47; spec/20_memory.md R83;
spec/93 I2, I3, I18). -/
inductive Fault where
  /-- A read of an element marked "no value". Raised by every memory read of Machine/Ops.lean and by the
  decoder's table reads. Safe: the machine stops where the spec demands a model fault. -/
  | noValue (m : MemName)
  /-- An index outside the memory. Raised by every memory access of Machine/Ops.lean and
  Machine/Operands.lean and by the decoder's table reads. Safe: as above. -/
  | outOfRange (m : MemName)
  /-- readBits of more than 24 bits (spec/40_bitcursor.md R162). Raised by `readStep`.
  Safe: as above. -/
  | readTooWide
  /-- A pending copy with `rleLast` = NONE (spec/47_rle4_output.md R327). Raised by `copyStep`.
  Safe: as above. -/
  | noLastByte
  deriving DecidableEq, Repr

/-- Why there is no step. -/
inductive Refusal where
  /-- An instruction without a meaning yet. Raised by exec alone. Safe: nothing is claimed of it. -/
  | notModelled (mnemonic : String)
  /-- A host access that is not an aligned 32-bit access of the window (spec/20_memory.md R90; spec/93 I4).
  Raised by `hostRead` and `hostWrite`. Safe: "a model refuses it: the access has no step". -/
  | hostAccess
  deriving DecidableEq, Repr

/-- The whole state. The rule beside a field is of spec/10_state.md unless it names another file. -/
structure State where
  /-- R21. -/
  phase : Phase
  /-- R22. -/
  bphase : BPhase
  /-- Log 2. -/
  slot : Slot
  /-- The bits read so far of the element being read, first stream bit first (log 2). -/
  latch : List Bool
  /-- R23. -/
  bitBuf : Word
  bitCnt : Nat
  /-- R24. -/
  srcClosed : Bool
  /-- R25. -/
  mult : BitVec 4
  /-- R26. -/
  blockCount : Word
  /-- R27. -/
  streamCRC : Word
  /-- R28. -/
  storedStreamCRC : Word
  /-- R29. -/
  errKind : ErrKind
  errDetail : BitVec 4
  errBlock : Word
  /-- R30. -/
  inCount : Word
  outCount : Word
  /-- R31; log 27 says when they are cleared. -/
  waitSrc : Bool
  waitSnk : Bool
  /-- R32. -/
  storedBlockCRC : Word
  randFlag : Bool
  origPtr : BitVec 24
  /-- R33. -/
  usedMap : BitVec 16
  symMap : Memory Byte
  numInUse : Nat
  eob : Nat
  /-- The range of the MAP_PRESENT being read: `i` of spec/44_block_header.md R245 (log 2). -/
  rangeIdx : Nat
  /-- R34. -/
  numTables : Nat
  numSelectors : Nat
  selectors : Memory Nat
  /-- The selector being read: `g` of spec/44_block_header.md R250 (log 2). -/
  selIdx : Nat
  /-- R35; the empty list is "no value" (log 7). -/
  selFL : List Byte
  mtfFL : List Byte
  /-- R36; `codeLen[t][s]` stands at `codeLenKey t s`. -/
  codeLen : Memory Nat
  curLen : Int
  /-- The table and symbol being read: `t` and `s` of spec/44_block_header.md R251, R255 (log 2). -/
  tableIdx : Nat
  symIdx : Nat
  /-- R37: `minLen`, `maxLen`, `base`, `limit` and `perm` of each table. -/
  tables : Memory HuffTable
  /-- R38. -/
  symCount : Nat
  curTable : Nat
  runLen : Nat
  runInc : Nat
  lastMtf : Byte
  /-- R39; an index `hist` does not list reads 0. After BWT_INVERT both memories keep the block (log 28). -/
  bwtBlock : Memory Byte
  bwtLen : Nat
  hist : Memory Nat
  /-- R40. -/
  mp : Memory Word
  /-- R41. -/
  cursor : Word
  bwtDone : Nat
  /-- R42. -/
  rNToGo : Nat
  rTPos : Fin 512
  /-- R43; `none` is the spec's NONE. -/
  rleLast : Option Byte
  rleAcc : Nat
  rlePending : Nat
  /-- R44. -/
  blockCRC : Word
  calcBlockCRC : Word
  /-- Environment: the source's answers the core has not taken, oldest first (log 3, 4). -/
  srcQ : List SrcAnswer
  /-- Environment: how many more bytes the sink accepts; `none` is no bound (log 3, 5). -/
  snkRoom : Option Nat
  /-- Environment: the bytes the sink has accepted, in order (R66; log 3). -/
  sunk : List Byte
  /-- Environment: the schedule of events, the next one first (log 3). -/
  env : List EnvEvent
  /-- Environment: what the host's reads returned, in order (log 3). -/
  hostData : List Word
  deriving DecidableEq, Repr

/-- The machine right after reset: the values of R21 to R45 (summary: spec/70_reset_and_hazards.md R411).
The position fields of log 2 and the environment's of log 3 carry the values those entries name. -/
def State.reset : State where
  phase := .idle
  bphase := .none
  slot := .hdrMagic
  latch := []
  bitBuf := 0#32
  bitCnt := 0
  srcClosed := false
  mult := 0#4
  blockCount := 0#32
  streamCRC := 0#32
  storedStreamCRC := 0#32
  errKind := .none
  errDetail := 0#4
  errBlock := 0#32
  inCount := 0#32
  outCount := 0#32
  waitSrc := false
  waitSnk := false
  storedBlockCRC := 0#32
  randFlag := false
  origPtr := 0#24
  usedMap := 0#16
  symMap := []
  numInUse := 0
  eob := 0
  rangeIdx := 0
  numTables := 0
  numSelectors := 0
  selectors := []
  selIdx := 0
  selFL := []
  mtfFL := []
  codeLen := []
  curLen := 0
  tableIdx := 0
  symIdx := 0
  tables := []
  symCount := 0
  curTable := 0
  runLen := 0
  runInc := 1
  lastMtf := 0#8
  bwtBlock := []
  bwtLen := 0
  hist := []
  mp := []
  cursor := 0#32
  bwtDone := 0
  rNToGo := 0
  rTPos := 0
  rleLast := none
  rleAcc := 0
  rlePending := 0
  blockCRC := Config.crcInit
  calcBlockCRC := 0#32
  srcQ := []
  snkRoom := some 0
  sunk := []
  env := []
  hostData := []

end Sys2Proof.Machine
end

