-- ==== Sys2Proof/Machine/Ops.lean ====
section
/-! DEFINITION. The named operations every meaning is written over: internal memories
(spec/20_memory.md R83), raising an error and reset (spec/60_exceptions.md R371, R383), the FrontList
(spec/42_frontlist.md), the CRC (spec/41_crc.md), the sink (spec/20_memory.md R82) and block init
(spec/10_state.md R46). -/

namespace Sys2Proof

/-- Indexes rise strictly from `lo` on. -/
def Memory.wfFrom {α : Type} (lo : Nat) : Memory α → Bool
  | [] => true
  | (k, _) :: rest => decide (lo ≤ k) && Memory.wfFrom (k + 1) rest

/-- The canonical form of an internal memory: strictly rising indexes. Every listed element has a value and
an unlisted one has none, so equal memories are equal lists. -/
def Memory.wf {α : Type} (m : Memory α) : Bool := Memory.wfFrom 0 m

/-- Every listed index is below `size`. -/
def Memory.within {α : Type} (size : Nat) (m : Memory α) : Bool := m.all (fun p => decide (p.1 < size))

/-- The canonical form of `hist`, whose unlisted elements read 0: no listed element is 0. -/
def Memory.noZero (m : Memory Nat) : Bool := m.all (fun p => decide (p.2 ≠ 0))

/-- Set element `i` to `v`; no other element changes (spec/20_memory.md R83). -/
def Memory.insert {α : Type} : Memory α → Nat → α → Memory α
  | [], i, v => [(i, v)]
  | (k, w) :: rest, i, v =>
    if i < k then (i, v) :: (k, w) :: rest
    else if i = k then (i, v) :: rest
    else (k, w) :: Memory.insert rest i v

namespace Machine

/-- The outcome type of this machine. -/
abbrev Result := Host.Outcome State Fault Refusal

/-- Go on with the value of an operation that can meet a model fault. -/
def attempt {α : Type} (r : Except Fault α) (k : α → Result) : Result :=
  match r with
  | .ok a => k a
  | .error f => .fault f

/-! ## Internal memories (spec/20_memory.md R83) -/

/-- MemRead: element `i` of memory `nm`, of which the first `valid` elements are defined now
(spec/10_state.md R47; spec/93 I2, I3; log 6, 8). -/
def memRead {α : Type} (nm : MemName) (m : Memory α) (valid i : Nat) : Except Fault α :=
  if Config.memSize nm ≤ i then .error (.outOfRange nm)
  else if valid ≤ i then .error (.noValue nm)
  else
    match Memory.lookup m i with
    | none => .error (.noValue nm)
    | some v => .ok v

/-- MemWrite: element `i` of memory `nm` set to `v`. -/
def memWrite {α : Type} (nm : MemName) (m : Memory α) (i : Nat) (v : α) : Except Fault (Memory α) :=
  if Config.memSize nm ≤ i then .error (.outOfRange nm)
  else .ok (Memory.insert m i v)

/-- What `hist` holds for `v`; an unlisted element is 0 (spec/10_state.md R39). The core reads it through
`histRead`. -/
def histAt (h : Memory Nat) (v : Nat) : Nat := (Memory.lookup h v).getD 0

/-- The histogram with `n` more at `v`, in canonical form: a zero is not listed. The core writes it through
`histCount`. -/
def histAdd (h : Memory Nat) (v n : Nat) : Memory Nat :=
  if histAt h v + n = 0 then h else Memory.insert h v (histAt h v + n)

/-- MemRead of `hist`, which has a value at every index inside it (spec/20_memory.md R83; R39). -/
def histRead (h : Memory Nat) (v : Nat) : Except Fault Nat :=
  if Config.memSize .hist ≤ v then .error (.outOfRange .hist) else .ok (histAt h v)

/-- `hist[v] <- hist[v] + n`, a read and a write of one index (spec/20_memory.md R83). -/
def histCount (h : Memory Nat) (v n : Nat) : Except Fault (Memory Nat) :=
  if Config.memSize .hist ≤ v then .error (.outOfRange .hist) else .ok (histAdd h v n)

/-! ## Moving on, raising an error, reset -/

/-- The core is decoding: STATUS.BUSY (spec/10_state.md R52). In every other phase it takes no step
(spec/48_stream.md R350; spec/60_exceptions.md R371). -/
def Phase.active : Phase → Bool
  | .header | .awaitBlock | .inBlock | .trailer => true
  | .idle | .done | .error => false

/-- The element just read is finished and `sl` comes next: the control transfer of this hardware within a
phase (spec/00_scope.md R12). -/
def advance (sl : Slot) (s : State) : State := { s with slot := sl, latch := [] }

/-- `raise E(detail)`: taking an error, the only writer of the error latch (spec/60_exceptions.md R371).
`bphase` and everything the step has written before stay. -/
def raise (kind : ErrKind) (detail : BitVec 4) (s : State) : State :=
  { s with errKind := kind, errDetail := detail, errBlock := s.blockCount, phase := .error }

/-- `raise CorruptBlock(detail)` (spec/60_exceptions.md R376). -/
def raiseCorrupt (detail : BitVec 4) (s : State) : State := raise .corruptBlock detail s

/-- Reset, the only way out of ERROR and DONE (spec/70_reset_and_hazards.md R410;
spec/60_exceptions.md R383): every register and memory takes its reset value. What belongs to the
environment stays: bytes the sink has accepted, answers the source still holds, the schedule, what the host
has read (spec/60_exceptions.md R381; log 12). -/
def resetCore (s : State) : State :=
  { State.reset with
    srcQ := s.srcQ, snkRoom := s.snkRoom, sunk := s.sunk, env := s.env, hostData := s.hostData }

/-! ## FrontLists (spec/42_frontlist.md) -/

/-- The identity list 0..255 (R200). -/
def identityList : List Byte := (List.range 256).map (BitVec.ofNat 8)

/-- promoteByIndex (R201): the entry at index `i` and the list with it moved to the front, the entries
before it shifted one place. An index beyond the list reads no value: a FrontList has 256 entries or, after
reset, none (log 7). -/
def promoteByIndex (nm : MemName) (fl : List Byte) (i : Nat) : Except Fault (Byte × List Byte) :=
  if Config.memSize nm ≤ i then .error (.outOfRange nm)
  else
    match fl[i]? with
    | none => .error (.noValue nm)
    | some v => .ok (v, v :: (fl.take i ++ fl.drop (i + 1)))

/-- promoteByValue (R202): the index of `v`, and the list with `v` moved to the front. No element of the
stream invokes it. -/
def promoteByValue (nm : MemName) (fl : List Byte) (v : Byte) : Except Fault (Nat × List Byte) :=
  match fl.idxOf? v with
  | none => .error (.noValue nm)
  | some i =>
    match promoteByIndex nm fl i with
    | .error f => .error f
    | .ok (_, fl') => .ok (i, fl')

/-! ## CRC (spec/41_crc.md) -/

/-- One step of the polynomial division (R182). -/
def crcShift (c : Word) : Word :=
  if c.getLsbD 31 then (c <<< 1) ^^^ Config.crcPoly else c <<< 1

/-- `n` steps of the polynomial division. -/
def crcShifts : Nat → Word → Word
  | 0, c => c
  | n + 1, c => crcShifts n (crcShift c)

/-- The ROM CRCT (R182; spec/10_state.md R45). -/
def crct (i : Byte) : Word := crcShifts 8 ((BitVec.setWidth 32 i) <<< 24)

/-- crcUpdate (R181): fold one byte into a running CRC. -/
def crcUpdate (c : Word) (b : Byte) : Word :=
  (c <<< 8) ^^^ crct (BitVec.setWidth 8 (c >>> 24) ^^^ b)

/-- crcRepeat (R183): fold the same byte `n` times. -/
def crcRepeat (c : Word) (b : Byte) : Nat → Word
  | 0 => c
  | n + 1 => crcRepeat (crcUpdate c b) b n

/-- One-bit left rotation (spec/00_scope.md R11). -/
def rotl1 (x : Word) : Word := (x <<< 1) ||| (x >>> 31)

/-! ## The sink (spec/20_memory.md R82) -/

/-- The sink accepts the byte offered now. -/
def sinkReady (s : State) : Bool := s.snkRoom != some 0

/-- What an accepted byte changes: the sink has it, it is folded into the block CRC and counted
(spec/47_rle4_output.md R326). -/
def accepted (b : Byte) (s : State) : State :=
  { s with
    sunk := s.sunk ++ [b]
    snkRoom := s.snkRoom.map (fun n => n - 1)
    waitSnk := false
    blockCRC := crcUpdate s.blockCRC b
    outCount := s.outCount + 1#32 }

/-- emit (R326) with the rest of its step: when the sink accepts `b` the step happens as a whole; until then
the core holds with `waitSnk` set and nothing else changed (spec/00_scope.md R13;
spec/60_exceptions.md R390; log 1). -/
def emit (b : Byte) (rest : State → State) (s : State) : State :=
  if sinkReady s then rest (accepted b s) else { s with waitSnk := true }

/-! ## Block init -/

/-- Block init (spec/10_state.md R46), run at every MARK_BLOCK. -/
def blockInit (s : State) : State :=
  { s with
    selFL := identityList, mtfFL := identityList
    bwtLen := 0, hist := []
    symCount := 0, runLen := 0, runInc := 1, lastMtf := 0#8
    bwtDone := 0, rNToGo := 0, rTPos := 0
    rleLast := none, rleAcc := 0, rlePending := 0
    blockCRC := Config.crcInit
    bphase := .bheader }

end Machine

end Sys2Proof
end

