-- ==== Sys2Proof/Machine/Operands.lean ====
section
/-! DEFINITION. The derived operands of spec/30_encoding.md R124: quantities the elements assemble from
their fields. -/

namespace Sys2Proof.Machine

/-- blockSize = mult × 100000, the block capacity (spec/10_state.md R25). -/
def blockSize (s : State) : Nat := s.mult.toNat * Config.blockUnit

/-- HDR_LEVEL's digit is '1'..'9' (spec/48_stream.md R343). -/
def levelLegal (d : Byte) : Bool := decide (0x31 ≤ d.toNat) && decide (d.toNat ≤ 0x39)

/-- mult = HDR_LEVEL − 0x30 (R343). -/
def levelMult (d : Byte) : BitVec 4 := BitVec.ofNat 4 (d.toNat - 0x30)

/-- The first used range at or after `i`, looking at `n` ranges: range i is bit 15 − i of MAP_USED
(spec/30_encoding.md R117). -/
def usedRangeFrom (m : BitVec 16) : Nat → Nat → Option Nat
  | 0, _ => none
  | n + 1, i => if m.getLsbD (15 - i) then some i else usedRangeFrom m n (i + 1)

/-- The first used range of 0..15 at or after `i` (spec/44_block_header.md R245). -/
def nextUsedRange (m : BitVec 16) (i : Nat) : Option Nat := usedRangeFrom m (16 - i) i

/-- The byte values range `i` has by its MAP_PRESENT, ascending: value 16i + j is bit 15 − j (R245). -/
def presentValues (i : Nat) (p : BitVec 16) : List Byte :=
  ((List.range 16).filter (fun j => p.getLsbD (15 - j))).map (fun j => BitVec.ofNat 8 (16 * i + j))

/-- `symMap[n] <- v; n <- n + 1` for each value in turn (R245). -/
def appendSymbols : List Byte → Nat → Memory Byte → Except Fault (Nat × Memory Byte)
  | [], n, m => .ok (n, m)
  | v :: rest, n, m =>
    match memWrite .symMap m n v with
    | .error f => .error f
    | .ok m' => appendSymbols rest (n + 1) m'

/-- `symMap[k]`, defined for k < numInUse (spec/10_state.md R33, R47). -/
def symMapAt (s : State) (k : Nat) : Except Fault Byte := memRead .symMap s.symMap s.numInUse k

/-- Where `codeLen[t][s]` stands: the six tables' lengths one after another (spec/10_state.md R36). -/
def codeLenKey (t s : Nat) : Nat := Config.maxSymbols * t + s

/-- The place of `codeLen[t][s]`, of which each index has its own range (spec/10_state.md R36;
spec/20_memory.md R80, R83). -/
def codeLenSlot (t s : Nat) : Except Fault Nat :=
  if Config.maxTables ≤ t ∨ Config.maxSymbols ≤ s then .error (.outOfRange .codeLen)
  else .ok (codeLenKey t s)

/-- `codeLen[t][s]`. -/
def codeLenRead (m : Memory Nat) (t s : Nat) : Except Fault Nat :=
  match codeLenSlot t s with
  | .error f => .error f
  | .ok k => memRead .codeLen m (k + 1) k

/-- `codeLen[t][s] <- l` (spec/44_block_header.md R255). -/
def codeLenWrite (m : Memory Nat) (t s l : Nat) : Except Fault (Memory Nat) :=
  match codeLenSlot t s with
  | .error f => .error f
  | .ok k => memWrite .codeLen m k l

/-- `codeLen[t][s..s+n-1]`, all of them recorded (spec/43_huffman.md R210). -/
def codeLensFrom (m : Memory Nat) (t : Nat) : Nat → Nat → Except Fault (List Nat)
  | 0, _ => .ok []
  | n + 1, s =>
    match codeLenRead m t s with
    | .error f => .error f
    | .ok l =>
      match codeLensFrom m t n (s + 1) with
      | .error f => .error f
      | .ok ls => .ok (l :: ls)

/-- The alphabet size A = eob + 1 (spec/43_huffman.md, header). -/
def alphabetSize (s : State) : Nat := s.eob + 1

/-- `codeLen[t][0..A−1]` (spec/43_huffman.md R210). -/
def codeLens (s : State) (t : Nat) : Except Fault (List Nat) :=
  codeLensFrom s.codeLen t (alphabetSize s) 0

/-- The tables of table `t`, which a block has for t < numTables (spec/10_state.md R47). -/
def tableAt (s : State) (t : Nat) : Except Fault HuffTable := memRead .tables s.tables s.numTables t

/-- `selectors[g]`, defined for g < numSelectors (spec/10_state.md R34). -/
def selectorAt (s : State) (g : Nat) : Except Fault Nat := memRead .selectors s.selectors s.numSelectors g

/-- `mp[j]`, defined for j < bwtLen (spec/10_state.md R40). -/
def mpAt (s : State) (j : Nat) : Except Fault Word := memRead .mp s.mp s.bwtLen j

/-- The bits of a walk byte, as the BYTE format presents them (spec/30_encoding.md R110). -/
def byteBits (b : Byte) : List Bool := natToBits 8 b.toNat

end Sys2Proof.Machine
end

