-- ==== Sys2Proof/Machine/Huffman.lean ====
section
/-! DEFINITION. Construction of the Huffman decode tables and the selector advance
(spec/43_huffman.md R210 to R214, R218). Decoding with a table is `decodeSymbol` in Sys2Proof/Decode.lean. -/

namespace Sys2Proof.Machine

/-- `prefix[L]` of R212: the number of symbols shorter than L. -/
def shorterCount (lens : List Nat) : Nat → Nat
  | 0 => 0
  | 1 => 0
  | l + 2 => shorterCount lens (l + 1) + lenCount lens (l + 1)

/-- The loop of R213 over `n` lengths from `l` on: (L, base, limit) of each. -/
def codeRows (lens : List Nat) : Nat → Nat → Nat → List (Nat × Int × Int)
  | 0, _, _ => []
  | n + 1, l, code =>
    (l, (code : Int) - shorterCount lens l, (code : Int) + lenCount lens l - 1)
      :: codeRows lens n (l + 1) ((code + lenCount lens l) * 2)

/-- The rows of R213: L from minLen to MAX_CODE_LEN. -/
def tableRows (lens : List Nat) : List (Nat × Int × Int) :=
  codeRows lens (Config.maxCodeLen + 1 - lenMin lens) (lenMin lens) 0

/-- The symbols of length `l`, ascending, the first of `lens` being symbol `s` (R214). -/
def symbolsOfLen (l : Nat) : Nat → List Nat → List Nat
  | _, [] => []
  | s, k :: rest => if k = l then s :: symbolsOfLen l (s + 1) rest else symbolsOfLen l (s + 1) rest

/-- `perm` of R214, over `n` lengths from `l` on. -/
def rankFrom (lens : List Nat) : Nat → Nat → List Nat
  | 0, _ => []
  | n + 1, l => symbolsOfLen l 0 lens ++ rankFrom lens n (l + 1)

/-- Table construction (R210 to R214) from the code lengths of the whole alphabet. -/
def buildTable (lens : List Nat) : HuffTable :=
  { minLen := lenMin lens
    maxLen := lenMax lens
    base := (tableRows lens).map (fun r => (r.1, r.2.1))
    limit := (tableRows lens).map (fun r => (r.1, r.2.2))
    perm := rankFrom lens (lenMax lens + 1 - lenMin lens) (lenMin lens) }

/-- Table `t` is built from its recorded lengths (R210; spec/44_block_header.md R256; log 9). -/
def buildStep (t : Nat) (s : State) : Except Fault State :=
  match codeLens s t with
  | .error f => .error f
  | .ok lens =>
    match memWrite .tables s.tables t (buildTable lens) with
    | .error f => .error f
    | .ok m => .ok { s with tables := m }

/-- The selector advance (R218), run before each symbol: a stage of its own (log 15). -/
def selectStep (s : State) : Result :=
  if s.symCount % Config.groupSize = 0 then
    if s.numSelectors ≤ s.symCount / Config.groupSize then
      .next (raiseCorrupt Config.detailSelOvf s)
    else
      attempt (selectorAt s (s.symCount / Config.groupSize)) fun t =>
        .next (advance .symbol { s with curTable := t })
  else .next (advance .symbol s)

/-- The symbol just decoded is counted (R218). -/
def countSymbol (s : State) : State := { s with symCount := s.symCount + 1 }

end Sys2Proof.Machine
end

