-- ==== Sys2Proof/Machine/BlockHeader.lean ====
section
/-! DEFINITION. The block header and the table section (spec/44_block_header.md R241 to R256). -/

namespace Sys2Proof.Machine

/-- BLK_CRC crc (R241). -/
def execBlkCrc (crc : Word) (s : State) : Result :=
  .next (advance .blkRand { s with storedBlockCRC := crc })

/-- BLK_RAND r (R242). -/
def execBlkRand (r : Bool) (s : State) : Result :=
  .next (advance .blkOrigPtr { s with randFlag := r })

/-- BLK_ORIGPTR p (R243). -/
def execBlkOrigPtr (p : BitVec 24) (s : State) : Result :=
  .next (advance .mapUsed { s with origPtr := p, bphase := .tables })

/-- What follows in the symbol map at or after range `i`: the next used range's MAP_PRESENT, or the map's
completion (R245, R246). -/
def continueMap (i : Nat) (s : State) : State :=
  match nextUsedRange s.usedMap i with
  | some k => advance .mapPresent { s with rangeIdx := k }
  | none =>
    if s.numInUse = 0 then raiseCorrupt Config.detailNoSymbols s
    else advance .nGroups { s with eob := s.numInUse + 1 }

/-- MAP_USED m (R244). -/
def execMapUsed (m : BitVec 16) (s : State) : Result :=
  .next (continueMap 0 { s with usedMap := m, numInUse := 0 })

/-- MAP_PRESENT p (R245), of range `rangeIdx`. -/
def execMapPresent (p : BitVec 16) (s : State) : Result :=
  attempt (appendSymbols (presentValues s.rangeIdx p) s.numInUse s.symMap) fun r =>
    .next (continueMap (s.rangeIdx + 1) { s with numInUse := r.1, symMap := r.2 })

/-- NGROUPS n (R247); its range is checked after NSELECTORS. -/
def execNGroups (n : BitVec 3) (s : State) : Result :=
  .next (advance .nSelectors { s with numTables := n.toNat })

/-- NSELECTORS k (R248) and the count validation (R249): the table count first. -/
def execNSelectors (k : BitVec 15) (s : State) : Result :=
  if s.numTables < Config.minTables ∨ Config.maxTables < s.numTables then
    .next (raiseCorrupt Config.detailTables { s with numSelectors := k.toNat })
  else if k.toNat < 1 ∨ Config.maxSelectors < k.toNat then
    .next (raiseCorrupt Config.detailSelCount { s with numSelectors := k.toNat })
  else .next (advance .selMtf { s with numSelectors := k.toNat, selIdx := 0 })

/-- SEL_MTF j (R250): `selectors[g] <- promoteByIndex(selFL, j)`. -/
def execSelMtf (j : Nat) (s : State) : Result :=
  attempt (promoteByIndex .selFL s.selFL j) fun r =>
    attempt (memWrite .selectors s.selectors s.selIdx r.1.toNat) fun m =>
      if s.selIdx + 1 < s.numSelectors then
        .next (advance .selMtf { s with selFL := r.2, selectors := m, selIdx := s.selIdx + 1 })
      else
        .next (advance .clStart
          { s with selFL := r.2, selectors := m, selIdx := s.selIdx + 1, tableIdx := 0 })

/-- CL_START l (R251). -/
def execClStart (l : BitVec 5) (s : State) : Result :=
  .next (advance .cld { s with curLen := (l.toNat : Int), symIdx := 0 })

/-- CL_INC (R253). -/
def execClInc (s : State) : Result := .next (advance .cld { s with curLen := s.curLen + 1 })

/-- CL_DEC (R254). -/
def execClDec (s : State) : Result := .next (advance .cld { s with curLen := s.curLen - 1 })

/-- What follows the recorded length of symbol `symIdx`: the next symbol, or the table's construction and
the next table, or the payload (R255, R256). -/
def continueLens (s : State) : Result :=
  if s.symIdx < s.eob then .next (advance .cld { s with symIdx := s.symIdx + 1 })
  else
    attempt (buildStep s.tableIdx s) fun t =>
      if s.tableIdx + 1 < s.numTables then
        .next (advance .clStart { t with tableIdx := s.tableIdx + 1 })
      else .next (advance .select { t with tableIdx := s.tableIdx + 1, bphase := .symbols })

/-- CL_DONE (R252): the record step of R255 for symbol `symIdx` of table `tableIdx`. -/
def execClDone (s : State) : Result :=
  if s.curLen < 1 ∨ (Config.maxCodeLen : Int) < s.curLen then
    .next (raiseCorrupt Config.detailCodeLen s)
  else
    attempt (codeLenWrite s.codeLen s.tableIdx s.symIdx s.curLen.toNat) fun m =>
      continueLens { s with codeLen := m }

end Sys2Proof.Machine
end

