-- ==== Sys2Proof/Machine/Cursor.lean ====
section
/-! DEFINITION. The BitCursor (spec/40_bitcursor.md). The machine reads through `readStep`, which takes one
source byte or hands out one field a step (log 1). The public operations of R161 to R164 are also given whole,
as R161 to R164 write them. -/

namespace Sys2Proof.Machine

/-- fill (R165): one request to the source, the only place the core reads it. No answer yet: the core holds
with `waitSrc` set (spec/20_memory.md R81). -/
def fill (s : State) : State :=
  if s.srcClosed then raise .truncatedInput Config.detailNone s
  else
    match s.srcQ with
    | [] => { s with waitSrc := true }
    | .eof :: q =>
      raise .truncatedInput Config.detailNone { s with srcQ := q, srcClosed := true, waitSrc := false }
    | .byte b :: q =>
      { s with
        srcQ := q
        waitSrc := false
        bitBuf := (s.bitBuf <<< 8) ||| BitVec.setWidth 32 b
        bitCnt := s.bitCnt + 8
        inCount := s.inCount + 1#32 }

/-- The value of the next `n` bits: `(bitBuf >> (bitCnt - n)) & ((1 << n) - 1)` (R162). -/
def fieldValue (n : Nat) (s : State) : Nat :=
  ((s.bitBuf >>> (s.bitCnt - n)) &&& ((1#32 <<< n) - 1#32)).toNat

/-- The end of readBits(n), once `bitCnt` is at least `n` (R162): the bits join those already read of the
element. -/
def takeBits (n : Nat) (s : State) : State :=
  { s with bitCnt := s.bitCnt - n, latch := s.latch ++ natToBits n (fieldValue n s) }

/-- One step of readBits(n) (R162): a fill while bits are missing, else the field. More than 24 bits is a
model fault (spec/93 I18). -/
def readStep (n : Nat) (s : State) : Result :=
  if Config.maxRead < n then .fault .readTooWide
  else if s.bitCnt < n then .next (fill s)
  else .next (takeBits n s)

/-! ## The public operations, whole -/

/-- What a whole read answers: its value and the state after it, the state in which it holds for the source,
the state with the error latched, or a model fault. -/
inductive ReadResult (α : Type) where
  | got (v : α) (s : State)
  | held (s : State)
  | raised (s : State)
  | fault (f : Fault)
  deriving DecidableEq, Repr

/-- Fill until `n` bits are there, at most `fuel` times. -/
def fillTo (n : Nat) : Nat → State → ReadResult Unit
  | 0, s => if s.bitCnt < n then .held s else .got () s
  | fuel + 1, s =>
    if s.bitCnt < n then
      let t := fill s
      if t.phase = .error then .raised t
      else if t.waitSrc then .held t
      else fillTo n fuel t
    else .got () s

/-- readBits (R162), whole. Four fills are more than 24 bits ever need. -/
def readBits (n : Nat) (s : State) : ReadResult Nat :=
  if Config.maxRead < n then .fault .readTooWide
  else
    match fillTo n 4 s with
    | .got _ t => .got (fieldValue n t) { t with bitCnt := t.bitCnt - n }
    | .held t => .held t
    | .raised t => .raised t
    | .fault f => .fault f

/-- readBit (R161), whole: readBits(1) as a bit. -/
def readBit (s : State) : ReadResult Bool :=
  match readBits 1 s with
  | .got v t => .got (v == 1) t
  | .held t => .held t
  | .raised t => .raised t
  | .fault f => .fault f

/-- readUnary (R163) with `j` ones counted so far; `fuel` bounds the number of bits read. -/
def readUnaryFrom : Nat → Nat → State → ReadResult Nat
  | 0, _, s => .held s
  | fuel + 1, j, s =>
    match readBit s with
    | .got true t => readUnaryFrom fuel (j + 1) t
    | .got false t => .got j t
    | .held t => .held t
    | .raised t => .raised t
    | .fault f => .fault f

/-- readUnary (R163), whole: no more bits can come than the accumulator and the source's answers hold. -/
def readUnary (s : State) : ReadResult Nat :=
  readUnaryFrom (s.bitCnt + 8 * s.srcQ.length + 1) 0 s

/-- readInt32 (R164), whole: two 16-bit reads, the first the high half. -/
def readInt32 (s : State) : ReadResult Word :=
  match readBits 16 s with
  | .got hi t =>
    match readBits 16 t with
    | .got lo u => .got ((BitVec.ofNat 32 hi <<< 16) ||| BitVec.ofNat 32 lo) u
    | .held u => .held u
    | .raised u => .raised u
    | .fault f => .fault f
  | .held t => .held t
  | .raised t => .raised t
  | .fault f => .fault f

end Sys2Proof.Machine
end

