-- ==== Sys2Proof/Machine/Flags.lean ====
section
/-! DEFINITION. The flags, the status outputs and the host registers, all of them views of the state
(spec/10_state.md R50 to R65). The core has no condition codes (R65). -/

namespace Sys2Proof.Machine

/-- The encoding of `phase` (R21). -/
def Phase.code : Phase → Word
  | .idle => 0#32 | .header => 1#32 | .awaitBlock => 2#32 | .inBlock => 3#32
  | .trailer => 4#32 | .done => 5#32 | .error => 6#32

/-- The encoding of `bphase` (R22). -/
def BPhase.code : BPhase → Word
  | .none => 0#32 | .bheader => 1#32 | .tables => 2#32 | .symbols => 3#32
  | .bwtInvert => 4#32 | .streaming => 5#32 | .exhausted => 6#32

/-- The encoding of `errKind` (spec/60_exceptions.md R372). -/
def ErrKind.code : ErrKind → Word
  | .none => 0#32 | .truncatedInput => 1#32 | .invalidHeader => 2#32 | .corruptBlock => 3#32
  | .blockCRCMismatch => 4#32 | .streamCRCMismatch => 5#32 | .streamFormatError => 6#32

/-- A flag at bit `n` of a register. -/
def flagBit (b : Bool) (n : Nat) : Word := if b then 1#32 <<< n else 0#32

/-- STATUS.BUSY (R52). -/
def busyFlag (s : State) : Bool := s.phase.active

/-- STATUS.DONE and the output `done_o` (R52, R64). -/
def doneFlag (s : State) : Bool := decide (s.phase = .done)

/-- STATUS.ERROR and the output `error_o` (R52, R64). -/
def errorFlag (s : State) : Bool := decide (s.phase = .error)

/-- STATUS (R52). -/
def statusWord (s : State) : Word :=
  s.phase.code ||| (s.bphase.code <<< 4) ||| flagBit (busyFlag s) 8 ||| flagBit (doneFlag s) 9
    ||| flagBit (errorFlag s) 10 ||| flagBit s.randFlag 11 ||| flagBit s.waitSrc 12
    ||| flagBit s.waitSnk 13

/-- ERROR (R53). -/
def errorWord (s : State) : Word := s.errKind.code ||| (BitVec.setWidth 32 s.errDetail <<< 4)

/-- The register at a window offset; CTRL and every reserved offset read 0 (R51 to R63). -/
def csrWord (s : State) (offset : Nat) : Word :=
  match offset with
  | 0x04 => statusWord s
  | 0x08 => errorWord s
  | 0x0C => s.errBlock
  | 0x10 => s.blockCount
  | 0x14 => BitVec.setWidth 32 s.mult
  | 0x18 => s.storedBlockCRC
  | 0x1C => s.calcBlockCRC
  | 0x20 => s.streamCRC
  | 0x24 => s.storedStreamCRC
  | 0x28 => s.inCount
  | 0x2C => s.outCount
  | _ => 0#32

end Sys2Proof.Machine
end

