-- ==== Sys2Proof/Machine/HostWindow.lean ====
section
/-! DEFINITION. What the environment does to the core between two core steps: host accesses, reset, source
and sink (spec/60_exceptions.md R391; spec/10_state.md R50, R51; spec/48_stream.md R340). -/

namespace Sys2Proof.Machine

/-- START (spec/48_stream.md R340): accepted in IDLE, ignored in every other phase. -/
def start (s : State) : State :=
  if s.phase = .idle then { s with streamCRC := 0#32, phase := .header } else s

/-- The window offset of an aligned 32-bit access; no other access has a step (spec/20_memory.md R90). An
address below the base is none of the core's (log 10). -/
def windowOffset (addr width : Nat) : Option Nat :=
  if Config.csrBase ≤ addr ∧ width = 4 ∧ (addr - Config.csrBase) % 4 = 0 then
    some (addr - Config.csrBase)
  else none

/-- A write of `value` at a window offset: only CTRL.START has an effect (spec/10_state.md R50, R51, R63;
spec/20_memory.md R93). -/
def csrWrite (offset : Nat) (value : Word) (s : State) : State :=
  if offset = 0 ∧ value.getLsbD 0 = true then start s else s

/-- A host read: the register's value between two core steps, and no side effect (spec/10_state.md R50). -/
def hostRead (addr width : Nat) (s : State) : Result :=
  match windowOffset addr width with
  | none => .refused .hostAccess
  | some offset => .next { s with hostData := s.hostData ++ [csrWord s offset] }

/-- A host write (spec/10_state.md R50). -/
def hostWrite (addr width : Nat) (value : Word) (s : State) : Result :=
  match windowOffset addr width with
  | none => .refused .hostAccess
  | some offset => .next (csrWrite offset value s)

/-- The sink makes room for `n` more bytes; a sink without a bound stays so. -/
def sinkMakesRoom (n : Nat) (s : State) : State := { s with snkRoom := s.snkRoom.map (fun k => k + n) }

/-- One event of the environment, with the core's own turn `turn` (log 3). A close drops the bytes that the
core has not requested, so that EOF is the next answer (log 4). An answer of the source or room in
the sink ends a wait at the core's own next step, which clears the flag; the event itself leaves `waitSrc` and
`waitSnk` as they are, the model's choice (spec/10_state.md R31; spec/60_exceptions.md R390; log 27). -/
def envStep (e : EnvEvent) (turn : State → Result) (s : State) : Result :=
  match e with
  | .core => turn s
  | .reset => .next (resetCore s)
  | .read addr width => hostRead addr width s
  | .write addr width value => hostWrite addr width value s
  | .srcByte b => .next { s with srcQ := s.srcQ ++ [.byte b] }
  | .srcEnd => .next { s with srcQ := s.srcQ ++ [.eof] }
  | .srcClose => .next { s with srcQ := [.eof] }
  | .snkRoom n => .next (sinkMakesRoom n s)

/-- What a claim about a run can observe (spec/10_state.md R66). -/
structure Observation where
  sunk : List Byte
  inCount : Word
  phase : Phase
  errKind : ErrKind
  errDetail : BitVec 4
  errBlock : Word
  blockCount : Word
  calcBlockCRC : Word
  streamCRC : Word
  deriving DecidableEq, Repr

/-- The observation of a state (R66). -/
def observe (s : State) : Observation :=
  { sunk := s.sunk, inCount := s.inCount, phase := s.phase, errKind := s.errKind
    errDetail := s.errDetail, errBlock := s.errBlock, blockCount := s.blockCount
    calcBlockCRC := s.calcBlockCRC, streamCRC := s.streamCRC }

end Sys2Proof.Machine
end

