-- ==== Sys2Proof/Machine/Bwt.lean ====
section
/-! DEFINITION. BWT inversion, the pointer walk and derandomisation (spec/46_bwt.md R300 to R307). -/

namespace Sys2Proof.Machine

/-- The bucket offsets of R302 for `n` byte values from `v` on, `acc` counting the smaller ones. -/
def bucketFrom (h : Memory Nat) : Nat → Nat → Nat → Except Fault (List Nat)
  | 0, _, _ => .ok []
  | n + 1, v, acc =>
    match histRead h v with
    | .error f => .error f
    | .ok c =>
      match bucketFrom h n (v + 1) (acc + c) with
      | .error f => .error f
      | .ok rest => .ok (acc :: rest)

/-- `bkt[0..255]` (R302). -/
def bucketStarts (h : Memory Nat) : Except Fault (List Nat) := bucketFrom h 256 0 0

/-- A merged pointer `(i << 8) | v` (R303). -/
def mergedPointer (i : Nat) (v : Byte) : Word := (BitVec.ofNat 32 i <<< 8) ||| BitVec.setWidth 32 v

/-- The merged-pointer build of R303 for `n` positions from `i` on. -/
def buildMpFrom (block : Memory Byte) (len : Nat) :
    Nat → Nat → List Nat → Memory Word → Except Fault (Memory Word)
  | 0, _, _, m => .ok m
  | n + 1, i, bkt, m =>
    match memRead .bwtBlock block len i with
    | .error f => .error f
    | .ok v =>
      match memWrite .mp m (bkt.getD v.toNat 0) (mergedPointer i v) with
      | .error f => .error f
      | .ok m' => buildMpFrom block len n (i + 1) (bkt.set v.toNat (bkt.getD v.toNat 0 + 1)) m'

/-- R302 and R303 together. -/
def buildMp (s : State) : Except Fault (Memory Word) :=
  match bucketStarts s.hist with
  | .error f => .error f
  | .ok bkt => buildMpFrom s.bwtBlock s.bwtLen s.bwtLen 0 bkt s.mp

/-- BWT_INVERT (R300): the start-pointer check (R301), the build (R302, R303), the cursor (R304). `hist` and
`bwtBlock` stay as they were, the model's choice: R302 lets an implementation overwrite the one with the bucket
offsets, and spec/10_state.md R40 lets it store `mp` over the other (log 28). -/
def invertStep (s : State) : Result :=
  if s.bwtLen ≤ s.origPtr.toNat then .next (raiseCorrupt Config.detailOrigPtr s)
  else
    attempt (buildMp s) fun m =>
      attempt (mpAt { s with mp := m } s.origPtr.toNat) fun c =>
        .next (advance .rle { s with mp := m, cursor := c, bwtDone := 0, bphase := .streaming })

/-- The reload of the period counter (R306). -/
def reloadPeriod (table : List Nat) (s : State) : State :=
  if s.rNToGo = 0 then { s with rNToGo := table.getD s.rTPos.val 0, rTPos := s.rTPos + 1 } else s

/-- derandomise (R306) with the period table `table`. `rTPos` counts modulo 512 by its type. -/
def derandomiseWith (table : List Nat) (b : Byte) (s : State) : Byte × State :=
  if s.randFlag then
    let t := reloadPeriod table s
    (if t.rNToGo - 1 = 1 then b ^^^ 1#8 else b, { t with rNToGo := t.rNToGo - 1 })
  else (b, s)

/-- derandomise (R306) with the machine's table RNUMS (R307). -/
def derandomise (b : Byte) (s : State) : Byte × State := derandomiseWith Config.rnums b s

/-- nextBWT (R305): one step of the walk; `none` is END. -/
def nextBWT (s : State) : Except Fault (Option Byte × State) :=
  if s.bwtDone = s.bwtLen then .ok (none, s)
  else
    match mpAt s (s.cursor >>> 8).toNat with
    | .error f => .error f
    | .ok c =>
      let r := derandomise (BitVec.setWidth 8 s.cursor)
        { s with cursor := c, bwtDone := s.bwtDone + 1 }
      .ok (some r.1, r.2)

end Sys2Proof.Machine
end

