-- ==== Sys2Proof/Machine/Rle4.lean ====
section
/-! DEFINITION. RLE4 expansion, output and block completion (spec/47_rle4_output.md R320 to R327). -/

namespace Sys2Proof.Machine

/-- RLE4_LIT b (R321). -/
def execRle4Lit (b : Byte) (s : State) : Result :=
  .next (emit b (fun t => advance .rle { t with rleLast := some b, rleAcc := 1 }) s)

/-- RLE4_REP b (R322). -/
def execRle4Rep (b : Byte) (s : State) : Result :=
  .next (emit b (fun t => advance .rle { t with rleAcc := t.rleAcc + 1 }) s)

/-- The walk byte `b` stands ready to be read as the element at `sl` (spec/30_encoding.md R110 BYTE). -/
def latchByte (sl : Slot) (b : Byte) (s : State) : State := { s with slot := sl, latch := byteBits b }

/-- The count byte of a run: `c <- nextBWT()`, which must not be END (R323). -/
def fetchCount (s : State) : Result :=
  attempt (nextBWT s) fun r =>
    match r.1 with
    | none => .next (raiseCorrupt Config.detailRle4Count r.2)
    | some c => .next (latchByte .rleCount c r.2)

/-- RLE4_RUN b (R323): fetch the count byte. `b` itself, equal to `rleLast`, is the first of the pending
copies that RLE4_COUNT sets. -/
def execRle4Run (_b : Byte) (s : State) : Result := fetchCount s

/-- RLE4_COUNT c (R324). -/
def execRle4Count (c : Byte) (s : State) : Result :=
  .next (advance .rle { s with rlePending := c.toNat + 1, rleAcc := 0 })

/-- One pending copy (R327). With `rleLast` = NONE there is no byte to emit: a model fault no run reaches,
since `rlePending` > 0 only after an RLE4_RUN, whose byte equals `rleLast` (R320; log 13). -/
def copyStep (s : State) : Result :=
  match s.rleLast with
  | none => .fault .noLastByte
  | some b => .next (emit b (fun t => { t with rlePending := t.rlePending - 1 }) s)

/-- Block end (R325), one step: finalise the CRC, check it (spec/41_crc.md R185, R186), combine it
(R187), wait for the next marker. -/
def blockEnd (s : State) : State :=
  if s.blockCRC ^^^ Config.crcInit ≠ s.storedBlockCRC then
    raise .blockCRCMismatch Config.detailNone
      { s with calcBlockCRC := s.blockCRC ^^^ Config.crcInit, bphase := .exhausted }
  else
    advance .marker
      { s with
        calcBlockCRC := s.blockCRC ^^^ Config.crcInit
        streamCRC := rotl1 s.streamCRC ^^^ (s.blockCRC ^^^ Config.crcInit)
        bphase := .none
        phase := .awaitBlock }

/-- The streaming loop where no walk byte stands ready (R320): a pending copy, else the next walk byte, else
the block's end. -/
def walkStep (s : State) : Result :=
  if 0 < s.rlePending then copyStep s
  else
    attempt (nextBWT s) fun r =>
      match r.1 with
      | none => .next (blockEnd r.2)
      | some b => .next (latchByte .rle b r.2)

end Sys2Proof.Machine
end

