-- ==== Sys2Proof/Machine/Stream.lean ====
section
/-! DEFINITION. The stream-level elements: header, markers and trailer (spec/48_stream.md R341 to R348). -/

namespace Sys2Proof.Machine

/-- HDR_MAGIC (R341): the value has been checked by the decoder; HDR_H comes next. -/
def execHdrMagic (s : State) : Result := .next (advance .hdrH s)

/-- HDR_H (R342). -/
def execHdrH (s : State) : Result := .next (advance .hdrLevel s)

/-- HDR_LEVEL d (R343). -/
def execHdrLevel (d : Byte) (s : State) : Result :=
  if levelLegal d then
    .next (advance .marker { s with mult := levelMult d, phase := .awaitBlock })
  else .next (raise .invalidHeader Config.detailLevel s)

/-- MARK_BLOCK (R345): count the block, block init (spec/10_state.md R46), enter it. -/
def execMarkBlock (s : State) : Result :=
  .next (advance .blkCrc
    { blockInit { s with blockCount := s.blockCount + 1#32 } with phase := .inBlock })

/-- MARK_END (R346). -/
def execMarkEnd (s : State) : Result := .next (advance .streamCrc { s with phase := .trailer })

/-- STREAM_CRC crc (R348), with the stream check (spec/41_crc.md R189). -/
def execStreamCrc (crc : Word) (s : State) : Result :=
  if crc ≠ s.streamCRC then
    .next (raise .streamCRCMismatch Config.detailNone { s with storedStreamCRC := crc })
  else .next (advance .streamCrc { s with storedStreamCRC := crc, phase := .done })

end Sys2Proof.Machine
end

