-- ==== Sys2Proof/Machine/Symbols.lean ====
section
/-! DEFINITION. The payload symbols (spec/45_symbol_decode.md R280 to R285). -/

namespace Sys2Proof.Machine

/-- `n` copies of `v` written from index `i` on (R283). -/
def writeRun (v : Byte) : Nat → Nat → Memory Byte → Except Fault (Memory Byte)
  | 0, _, m => .ok m
  | n + 1, i, m =>
    match memWrite .bwtBlock m i v with
    | .error f => .error f
    | .ok m' => writeRun v n (i + 1) m'

/-- The run flush (R283): nothing when no run is pending, else `runLen` copies of `symMap[lastMtf]`. -/
def flushRun (s : State) : Except Fault State :=
  if s.runLen = 0 then .ok s
  else
    match symMapAt s s.lastMtf.toNat with
    | .error f => .error f
    | .ok v =>
      match writeRun v s.runLen s.bwtLen s.bwtBlock with
      | .error f => .error f
      | .ok m =>
        match histCount s.hist v.toNat s.runLen with
        | .error f => .error f
        | .ok h =>
          .ok { s with
            bwtBlock := m
            bwtLen := s.bwtLen + s.runLen
            hist := h
            runLen := 0
            runInc := 1 }

/-- What RUNA and RUNB share: `weight` times the increment joins the run, the increment doubles, and the
run must fit the block (R281, R282). -/
def escape (weight : Nat) (s : State) : State :=
  if blockSize s < s.bwtLen + (s.runLen + weight * s.runInc) then
    raiseCorrupt Config.detailCapacity
      { s with runLen := s.runLen + weight * s.runInc, runInc := s.runInc * 2 }
  else
    advance .select { s with runLen := s.runLen + weight * s.runInc, runInc := s.runInc * 2 }

/-- RUNA (R281). -/
def execRuna (s : State) : Result := .next (escape 1 (countSymbol s))

/-- RUNB (R282). -/
def execRunb (s : State) : Result := .next (escape 2 (countSymbol s))

/-- MTFV's literal, after the flush: the byte of MTF rank `k` joins the block (R284). -/
def literal (k : Nat) (s : State) : Result :=
  if blockSize s ≤ s.bwtLen then .next (raiseCorrupt Config.detailCapacity s)
  else
    attempt (promoteByIndex .mtfFL s.mtfFL k) fun r =>
      attempt (symMapAt s r.1.toNat) fun v =>
        attempt (memWrite .bwtBlock s.bwtBlock s.bwtLen v) fun m =>
          attempt (histCount s.hist v.toNat 1) fun h =>
            .next (advance .select
              { s with
                mtfFL := r.2
                lastMtf := r.1
                bwtBlock := m
                bwtLen := s.bwtLen + 1
                hist := h })

/-- MTFV s (R284): flush the run, then the literal of rank s − 1. -/
def execMtfv (sym : Nat) (s : State) : Result :=
  attempt (flushRun (countSymbol s)) fun t => literal (sym - 1) t

/-- EOB (R285): flush the run; the block's symbols are complete. -/
def execEob (s : State) : Result :=
  attempt (flushRun (countSymbol s)) fun t => .next (advance .invert { t with bphase := .bwtInvert })

end Sys2Proof.Machine
end

