-- ==== Sys2Proof/Machine/Fetch.lean ====
section
/-! DEFINITION. Fetching an element: which context the state is in (spec/30_encoding.md R111), how its next
bits come (spec/40_bitcursor.md; spec/46_bwt.md R305), what an illegal one raises (R125), and how a given
element is laid where the next step finds it. -/

namespace Sys2Proof.Machine

/-- The context of the element that comes next, or `none` where an internal stage comes next. The decoder
does not use the code lengths of a payload context, so they are left empty here. -/
def ctxOf (s : State) : Except Fault (Option Ctx) :=
  match s.slot with
  | .hdrMagic => .ok (some .hdrMagic)
  | .hdrH => .ok (some .hdrH)
  | .hdrLevel => .ok (some .hdrLevel)
  | .marker => .ok (some .marker)
  | .streamCrc => .ok (some .streamCrc)
  | .blkCrc => .ok (some .blkCrc)
  | .blkRand => .ok (some .blkRand)
  | .blkOrigPtr => .ok (some .blkOrigPtr)
  | .mapUsed => .ok (some .mapUsed)
  | .mapPresent => .ok (some .mapPresent)
  | .nGroups => .ok (some .nGroups)
  | .nSelectors => .ok (some .nSelectors)
  | .selMtf => .ok (some (.selMtf s.numTables))
  | .clStart => .ok (some .clStart)
  | .cld => .ok (some .cld)
  | .symbol =>
    match tableAt s s.curTable with
    | .error f => .error f
    | .ok t => .ok (some (.symbol [] t s.eob))
  | .rle => .ok (some (.rle s.rleLast s.rleAcc))
  | .rleCount => .ok (some .rleCount)
  | .select => .ok none
  | .invert => .ok none

/-- More bits are needed: from the walk for the BYTE elements, from the BitCursor for all others (R110). -/
def fetchMore (n : Nat) (s : State) : Result :=
  match s.slot with
  | .rle => walkStep s
  | .rleCount => fetchCount s
  | _ => readStep n s

/-- The bits read are no instruction: the error of R125, or a model fault where a decode table has no
value or no such index. -/
def rejectElement (why : Reject) (s : State) : Result :=
  match why with
  | .magic => .next (raise .invalidHeader Config.detailMagic s)
  | .h => .next (raise .invalidHeader Config.detailH s)
  | .marker => .next (raise .streamFormatError Config.detailNone s)
  | .selMtf => .next (raiseCorrupt Config.detailSelMtf s)
  | .badCode => .next (raiseCorrupt Config.detailBadCode s)
  | .noValue m => .fault (.noValue m)
  | .outOfRange m => .fault (.outOfRange m)

/-- An internal stage: the selector advance or the BWT inversion. -/
def stageStep (s : State) : Result :=
  match s.slot with
  | .select => selectStep s
  | _ => invertStep s

/-- The position at which an element of context `c` is read (spec/30_encoding.md R130). -/
def positionOf : Ctx → Phase × BPhase × Slot
  | .hdrMagic => (.header, .none, .hdrMagic)
  | .hdrH => (.header, .none, .hdrH)
  | .hdrLevel => (.header, .none, .hdrLevel)
  | .marker => (.awaitBlock, .none, .marker)
  | .streamCrc => (.trailer, .none, .streamCrc)
  | .blkCrc => (.inBlock, .bheader, .blkCrc)
  | .blkRand => (.inBlock, .bheader, .blkRand)
  | .blkOrigPtr => (.inBlock, .bheader, .blkOrigPtr)
  | .mapUsed => (.inBlock, .tables, .mapUsed)
  | .mapPresent => (.inBlock, .tables, .mapPresent)
  | .nGroups => (.inBlock, .tables, .nGroups)
  | .nSelectors => (.inBlock, .tables, .nSelectors)
  | .selMtf _ => (.inBlock, .tables, .selMtf)
  | .clStart => (.inBlock, .tables, .clStart)
  | .cld => (.inBlock, .tables, .cld)
  | .symbol _ _ _ => (.inBlock, .symbols, .symbol)
  | .rle _ _ => (.inBlock, .streaming, .rle)
  | .rleCount => (.inBlock, .streaming, .rleCount)

/-- What the context itself stands for in the state: the counts, tables and run-length state it names, and
a sink that takes a byte where the element delivers one. -/
def placeContext (c : Ctx) (s : State) : State :=
  match c with
  | .selMtf numTables => { s with numTables := numTables }
  | .symbol _ table eob =>
    { s with tables := [(0, table)], numTables := max s.numTables 1, curTable := 0, eob := eob }
  | .rle last acc =>
    { s with
      rleLast := last, rleAcc := acc
      snkRoom := if s.snkRoom = some 0 then some 1 else s.snkRoom }
  | _ => s

/-- `s` about to run the element whose bits are `bits`, in context `c`: the core is at that element, its
bits are read, and no event of the environment comes before it (log 16). -/
def placeElement (c : Ctx) (bits : List Bool) (s : State) : State :=
  { placeContext c s with
    phase := (positionOf c).1
    bphase := (positionOf c).2.1
    slot := (positionOf c).2.2
    latch := bits
    env := [] }

end Sys2Proof.Machine
end

