-- ==== Sys2Proof/Machine/Dispatch.lean ====
section
/-! DEFINITION. One arm per syntax element (spec/opcode_table.json), in the table's order. -/

namespace Sys2Proof.Machine

def exec (i : Instr) (s : State) : Host.Outcome State Fault Refusal :=
  match i with
  -- HEADER, AWAIT_BLOCK and TRAILER
  | .hdrMagic => Sys2Proof.Machine.execHdrMagic s
  | .hdrH => Sys2Proof.Machine.execHdrH s
  | .hdrLevel d => Sys2Proof.Machine.execHdrLevel d s
  | .markBlock => Sys2Proof.Machine.execMarkBlock s
  | .markEnd => Sys2Proof.Machine.execMarkEnd s
  | .streamCrc crc => Sys2Proof.Machine.execStreamCrc crc s
  -- IN_BLOCK, BHEADER
  | .blkCrc crc => Sys2Proof.Machine.execBlkCrc crc s
  | .blkRand r => Sys2Proof.Machine.execBlkRand r s
  | .blkOrigPtr p => Sys2Proof.Machine.execBlkOrigPtr p s
  -- IN_BLOCK, TABLES
  | .mapUsed m => Sys2Proof.Machine.execMapUsed m s
  | .mapPresent p => Sys2Proof.Machine.execMapPresent p s
  | .nGroups n => Sys2Proof.Machine.execNGroups n s
  | .nSelectors k => Sys2Proof.Machine.execNSelectors k s
  | .selMtf j => Sys2Proof.Machine.execSelMtf j s
  | .clStart l => Sys2Proof.Machine.execClStart l s
  | .clDone => Sys2Proof.Machine.execClDone s
  | .clInc => Sys2Proof.Machine.execClInc s
  | .clDec => Sys2Proof.Machine.execClDec s
  -- IN_BLOCK, SYMBOLS
  | .runa => Sys2Proof.Machine.execRuna s
  | .runb => Sys2Proof.Machine.execRunb s
  | .mtfv n => Sys2Proof.Machine.execMtfv n s
  | .eob => Sys2Proof.Machine.execEob s
  -- IN_BLOCK, STREAMING
  | .rle4Lit b => Sys2Proof.Machine.execRle4Lit b s
  | .rle4Rep b => Sys2Proof.Machine.execRle4Rep b s
  | .rle4Run b => Sys2Proof.Machine.execRle4Run b s
  | .rle4Count c => Sys2Proof.Machine.execRle4Count c s

end Sys2Proof.Machine
end

