-- ==== Sys2Proof/Machine/Step.lean ====
section
/-! DEFINITION. One step of the machine (spec/00_scope.md R13; log 1, 3). -/

namespace Sys2Proof.Machine

/-- The element that comes next, in context `c`: read more of it, run it, or raise what an illegal one
raises. -/
def elementStep (c : Ctx) (s : State) : Result :=
  match decodeBits c s.latch with
  | .more n => fetchMore n s
  | .instr i => exec i s
  | .reject why => rejectElement why s

/-- The core's step. In IDLE, DONE and ERROR it takes none, so nothing changes
(spec/48_stream.md R350; log 11). -/
def coreStep (s : State) : Result :=
  if s.phase.active then
    attempt (ctxOf s) fun c? =>
      match c? with
      | none => stageStep s
      | some c => elementStep c s
  else .next s

/-- One step: the next event of the schedule, or the core's step when none waits. -/
def step (s : State) : Host.Outcome State Fault Refusal :=
  match s.env with
  | [] => coreStep s
  | e :: rest => envStep e coreStep { s with env := rest }

/-- `s` with the element of a table word laid where `step` finds its next element (log 16, 17). -/
def State.withFetchWord (s : State) (nbits w : Nat) : State :=
  match tableCtx nbits w with
  | none => s
  | some (n, c) => placeElement c (natToBits n w) s

end Sys2Proof.Machine
end

