-- ==== Sys2Proof/Safety.lean ====
section
/-! DEFINITION. What counts as a sound state of the machine, in the terms the statements use: the position,
the memories' form, the BitCursor's count, the error latch, the histogram, the registers' declared widths,
and what each stage has made ready for the next. `State.Inv` joins them. -/

namespace Sys2Proof.Machine

/-! ## Position (spec/48_stream.md R351, R352; spec/30_encoding.md R130) -/

/-- The phases in which the core stands at a slot. -/
def slotPosition : Slot → Phase × BPhase
  | .hdrMagic | .hdrH | .hdrLevel => (.header, .none)
  | .marker => (.awaitBlock, .none)
  | .streamCrc => (.trailer, .none)
  | .blkCrc | .blkRand | .blkOrigPtr => (.inBlock, .bheader)
  | .mapUsed | .mapPresent | .nGroups | .nSelectors | .selMtf | .clStart | .cld => (.inBlock, .tables)
  | .select | .symbol => (.inBlock, .symbols)
  | .invert => (.inBlock, .bwtInvert)
  | .rle | .rleCount => (.inBlock, .streaming)

/-- `phase`, `bphase` and the slot agree, and `bphase` is NONE outside a block unless an error froze it
(spec/10_state.md R22). -/
structure State.Coherent (s : State) : Prop where
  active : s.phase.active = true → (s.phase, s.bphase) = slotPosition s.slot
  idle : s.phase = .idle → s.bphase = .none ∧ s.slot = .hdrMagic ∧ s.latch = []
  done : s.phase = .done → s.bphase = .none

/-- The `phase` changes of spec/48_stream.md R351 that a core step can make. -/
def phaseMove : Phase → Phase → Bool
  | .header, .awaitBlock | .awaitBlock, .inBlock | .awaitBlock, .trailer | .inBlock, .awaitBlock
  | .trailer, .done => true
  | .header, .error | .awaitBlock, .error | .inBlock, .error | .trailer, .error => true
  | _, _ => false

/-- The `bphase` changes of R352 that a core step can make; EXHAUSTED lies inside the block-end step and is
left in the state only by its raise (spec/47_rle4_output.md R325). -/
def bphaseMove : BPhase → BPhase → Bool
  | .none, .bheader | .bheader, .tables | .tables, .symbols | .symbols, .bwtInvert
  | .bwtInvert, .streaming | .streaming, .exhausted | .streaming, .none => true
  | _, _ => false

/-! ## Running -/

/-- The core stands at slot `sl`, decoding, and its own step comes next. -/
def AtElement (sl : Slot) (s : State) : Prop := s.env = [] ∧ s.phase.active = true ∧ s.slot = sl

/-- At slot `sl` the core reads an `n`-bit field in BitCursor reads of `chunk` bits. -/
def ReadsField (sl : Slot) (n chunk : Nat) : Prop :=
  ∀ s, AtElement sl s → s.latch.length + chunk ≤ n → step s = readStep chunk s

/-- At slot `sl`, `n` bits read are run as the element `mk v`, `v` their value MSB-first. -/
def RunsField (sl : Slot) (n : Nat) (mk : Nat → Instr) : Prop :=
  ∀ s, AtElement sl s → s.latch.length = n → step s = exec (mk (bitsToNat s.latch)) s

/-- `k` steps of the machine. -/
def runSteps : Nat → State → Result
  | 0, s => .next s
  | k + 1, s =>
    match step s with
    | .next t => runSteps k t
    | .fault f => .fault f
    | .refused r => .refused r

/-- The bits the source's answers hold up to the end of the stream. -/
def sourceBits : List SrcAnswer → List Bool
  | [] => []
  | .byte b :: rest => natToBits 8 b.toNat ++ sourceBits rest
  | .eof :: _ => []

/-- The stream bits not yet handed out: the valid bits of the accumulator, then the source's
(spec/10_state.md R23; spec/20_memory.md R84). -/
def streamBits (s : State) : List Bool :=
  natToBits s.bitCnt s.bitBuf.toNat ++ sourceBits s.srcQ

/-- The source has been found exhausted, or EOF is among its answers: no request of the
core holds forever (the source's duty, spec/60_exceptions.md R391). -/
def SourceEnds (s : State) : Prop := s.srcClosed = true ∨ SrcAnswer.eof ∈ s.srcQ

/-! ## Memories, cursor, error latch, histogram -/

/-- One table's slots are in canonical form, and its slots and ranks inside their sizes. -/
def tableWf (t : HuffTable) : Bool :=
  Memory.wf t.base && Memory.within Config.lengthSlots t.base
    && Memory.wf t.limit && Memory.within Config.lengthSlots t.limit
    && decide (t.perm.length ≤ Config.memSize .perm)

/-- Every internal memory is in canonical form and inside its size (spec/20_memory.md R80): a sparse one has
its indexes below the size, and a FrontList has all its entries or, after reset, none (log 7). -/
structure State.MemoriesWf (s : State) : Prop where
  symMap : Memory.wf s.symMap = true ∧ Memory.within (Config.memSize .symMap) s.symMap = true
  selectors : Memory.wf s.selectors = true ∧ Memory.within (Config.memSize .selectors) s.selectors = true
  codeLen : Memory.wf s.codeLen = true ∧ Memory.within (Config.memSize .codeLen) s.codeLen = true
  tables : Memory.wf s.tables = true ∧ Memory.within (Config.memSize .tables) s.tables = true
  slots : s.tables.all (fun p => tableWf p.2) = true
  bwtBlock : Memory.wf s.bwtBlock = true ∧ Memory.within (Config.memSize .bwtBlock) s.bwtBlock = true
  hist : Memory.wf s.hist = true ∧ Memory.within (Config.memSize .hist) s.hist = true
  histNoZero : Memory.noZero s.hist = true
  mp : Memory.wf s.mp = true ∧ Memory.within (Config.memSize .mp) s.mp = true
  selFL : s.selFL = [] ∨ s.selFL.length = Config.memSize .selFL
  mtfFL : s.mtfFL = [] ∨ s.mtfFL.length = Config.memSize .mtfFL

/-- The width of the BitCursor read in progress, 0 when none is. -/
def pendingRead (s : State) : Nat :=
  match s.slot with
  | .rle | .rleCount => 0
  | _ =>
    match ctxOf s with
    | .ok (some c) =>
      match decodeBits c s.latch with
      | .more n => n
      | _ => 0
    | _ => 0

/-- The BitCursor invariant (spec/40_bitcursor.md R160): at most 31 bits at any time, and at most 7 once no
read is in progress. -/
structure State.CursorOk (s : State) : Prop where
  total : s.bitCnt ≤ 31
  rest : s.phase ≠ .error → s.bitCnt ≤ pendingRead s + 7

/-- The (kind, detail) pairs of spec/60_exceptions.md R372, R373. -/
def errorCodeLegal (k : ErrKind) (d : BitVec 4) : Bool :=
  match k with
  | .invalidHeader => decide (1 ≤ d.toNat) && decide (d.toNat ≤ 3)
  | .corruptBlock => decide (1 ≤ d.toNat) && decide (d.toNat ≤ 10)
  | .none | .truncatedInput | .blockCRCMismatch | .streamCRCMismatch | .streamFormatError =>
    decide (d = 0#4)

/-- An error is latched exactly in ERROR, with a code of the tables (spec/60_exceptions.md R371 to R373). -/
structure State.ErrorOk (s : State) : Prop where
  latched : s.phase = .error ↔ s.errKind ≠ .none
  code : errorCodeLegal s.errKind s.errDetail = true

/-- How often byte `v` stands in the first `n` elements of the block buffer. -/
def occurrences (m : Memory Byte) (n : Nat) (v : Byte) : Nat :=
  (List.range n).countP (fun i => decide (Memory.lookup m i = some v))

/-- The histogram counts the block (spec/45_symbol_decode.md R287). That it still does after BWT_INVERT is the
model's choice (log 28). -/
structure State.HistogramOk (s : State) : Prop where
  written : ∀ i, i < s.bwtLen → ∃ v, Memory.lookup s.bwtBlock i = some v
  counts : ∀ v : Byte, histAt s.hist v.toNat = occurrences s.bwtBlock s.bwtLen v

/-! ## Widths (spec/10_state.md R21 to R44; spec/45_symbol_decode.md R286) -/

/-- Every register held as a Nat stays within the width R21 to R44 declare. -/
structure State.WidthsOk (s : State) : Prop where
  latch : s.latch.length ≤ 48
  numInUse : s.numInUse ≤ 256
  eob : s.eob ≤ 257
  rangeIdx : s.rangeIdx ≤ 15
  numTables : s.numTables ≤ 7
  numSelectors : s.numSelectors ≤ 32767
  selIdx : s.selIdx ≤ Config.maxSelectors
  tableIdx : s.tableIdx ≤ Config.maxTables
  symIdx : s.symIdx ≤ 257
  symCount : s.symCount ≤ Config.maxSelectors * Config.groupSize
  curTable : s.curTable < Config.maxTables
  runLen : s.runLen < 2 ^ 21
  runInc : s.runInc ≤ 2 ^ 20
  bwtLen : s.bwtLen ≤ Config.maxBlock
  bwtDone : s.bwtDone ≤ Config.maxBlock
  rNToGo : s.rNToGo ≤ 999
  rleAcc : s.rleAcc ≤ 3
  rlePending : s.rlePending ≤ 256
  pendingByte : 0 < s.rlePending → s.rleLast ≠ none
  selectors : s.selectors.all (fun p => decide (p.2 < Config.maxTables)) = true
  codeLen : s.codeLen.all (fun p => decide (1 ≤ p.2) && decide (p.2 ≤ Config.maxCodeLen)) = true

/-! ## Canonical codes and the inverse transform, as the statements speak of them -/

/-- The Kraft sum of the lengths is 1: the length set is complete (spec/43_huffman.md R215). Scaled by
2^MAX_CODE_LEN. -/
def KraftComplete (lens : List Nat) : Prop :=
  (lens.map (fun l => 2 ^ (Config.maxCodeLen - l))).sum = 2 ^ Config.maxCodeLen

/-- The bits `bits` lie on a path that decodeSymbol can have read so far without an answer
(spec/43_huffman.md R216): none yet, or at least minLen and not below the first code of their length. -/
def OnPath (lens : List Nat) (bits : List Bool) : Prop :=
  bits = [] ∨
    (lenMin lens ≤ bits.length ∧ bits.length ≤ Config.maxCodeLen
      ∧ firstCode lens bits.length ≤ bitsToNat bits)

/-- Where the counting sort puts position `i`, holding `v`, of the first `n` bytes of `m`: after every
smaller byte and after every equal byte at an earlier position (spec/46_bwt.md R302, R303). -/
def sortedIndex (m : Memory Byte) (n i : Nat) (v : Byte) : Nat :=
  (List.range n).countP
      (fun k => match Memory.lookup m k with | some u => decide (u.toNat < v.toNat) | none => false)
    + occurrences m i v

/-! ## What each stage has made ready -/

/-- The code lengths of one table of the block (spec/43_huffman.md, header). -/
def LensOk (eob : Nat) (lens : List Nat) : Prop :=
  lens.length = eob + 1 ∧ ∀ l ∈ lens, 1 ≤ l ∧ l ≤ Config.maxCodeLen

/-- Table `t` is built from legal lengths of the block's alphabet. -/
def TableReady (s : State) (t : Nat) : Prop :=
  ∃ lens, LensOk s.eob lens ∧ Memory.lookup s.tables t = some (buildTable lens)

/-- A FrontList: a permutation of 0..255 (spec/42_frontlist.md R200). -/
def IsFrontList (fl : List Byte) : Prop := fl.Perm identityList

/-- The first `n` entries are among 0..n−1 (R204). -/
def PrefixClosed (n : Nat) (fl : List Byte) : Prop :=
  ∀ (i : Nat) (v : Byte), i < n → fl[i]? = some v → v.toNat < n

/-- The level has been accepted (spec/48_stream.md R343). -/
def MultReady (s : State) : Prop := 1 ≤ s.mult.toNat ∧ s.mult.toNat ≤ Config.maxMult

/-- No payload symbol of the block has been read (spec/10_state.md R46). -/
def PayloadFresh (s : State) : Prop :=
  s.mtfFL = identityList ∧ s.bwtLen = 0 ∧ s.symCount = 0 ∧ s.runLen = 0 ∧ s.runInc = 1 ∧ s.lastMtf = 0#8

/-- `symMap[k]` is written for k < n. -/
def SymMapTo (n : Nat) (s : State) : Prop := ∀ k, k < n → ∃ v, Memory.lookup s.symMap k = some v

/-- The symbol map is complete (spec/44_block_header.md R246). -/
def MapReady (s : State) : Prop :=
  1 ≤ s.numInUse ∧ s.numInUse ≤ 256 ∧ s.eob = s.numInUse + 1 ∧ SymMapTo s.numInUse s

/-- The counts are validated (R249). -/
def CountsReady (s : State) : Prop :=
  Config.minTables ≤ s.numTables ∧ s.numTables ≤ Config.maxTables
    ∧ 1 ≤ s.numSelectors ∧ s.numSelectors ≤ Config.maxSelectors

/-- `selectors[g]` is written for g < n, each a table of the block (R250). -/
def SelectorsTo (n : Nat) (s : State) : Prop :=
  ∀ g, g < n → ∃ t, Memory.lookup s.selectors g = some t ∧ t < s.numTables

/-- The code lengths of the current table are recorded for symbols below `n`. -/
def LensTo (n : Nat) (s : State) : Prop :=
  ∀ k, k < n → ∃ l, Memory.lookup s.codeLen (codeLenKey s.tableIdx k) = some l
    ∧ 1 ≤ l ∧ l ≤ Config.maxCodeLen

/-- The payload so far (spec/45_symbol_decode.md R286). -/
def PayloadOk (s : State) : Prop :=
  IsFrontList s.mtfFL ∧ PrefixClosed s.numInUse s.mtfFL ∧ s.lastMtf.toNat < s.numInUse
    ∧ s.bwtLen + s.runLen ≤ blockSize s
    ∧ (∃ k, s.runInc = 2 ^ k ∧ 2 ^ k ≤ s.runLen + 1)

/-- The bits read of a payload symbol lie on an unfinished path of the table: no codeword ends among them
(spec/43_huffman.md R216). -/
def PathOk (s : State) : Prop :=
  ∃ lens, LensOk s.eob lens ∧ Memory.lookup s.tables s.curTable = some (buildTable lens)
    ∧ OnPath lens s.latch

/-- The walk is inside the merged pointers (spec/46_bwt.md R303, R305). -/
def WalkOk (s : State) : Prop :=
  s.bwtDone ≤ s.bwtLen
    ∧ (∀ j, j < s.bwtLen → ∃ w, Memory.lookup s.mp j = some w ∧ (w >>> 8).toNat < s.bwtLen)
    ∧ (s.cursor >>> 8).toNat < s.bwtLen

/-- What holds at each slot while the core decodes. -/
def StageOk (s : State) : Prop :=
  match s.slot with
  | .hdrMagic | .hdrH | .hdrLevel => True
  | .marker | .streamCrc => MultReady s
  | .blkCrc | .blkRand | .blkOrigPtr | .mapUsed =>
    MultReady s ∧ PayloadFresh s ∧ s.selFL = identityList
  | .mapPresent =>
    MultReady s ∧ PayloadFresh s ∧ s.selFL = identityList
      ∧ s.numInUse ≤ 16 * s.rangeIdx ∧ SymMapTo s.numInUse s
  | .nGroups | .nSelectors => MultReady s ∧ PayloadFresh s ∧ s.selFL = identityList ∧ MapReady s
  | .selMtf =>
    MultReady s ∧ PayloadFresh s ∧ MapReady s ∧ CountsReady s
      ∧ IsFrontList s.selFL ∧ PrefixClosed s.numTables s.selFL
      ∧ s.selIdx < s.numSelectors ∧ SelectorsTo s.selIdx s
  | .clStart =>
    MultReady s ∧ PayloadFresh s ∧ MapReady s ∧ CountsReady s ∧ SelectorsTo s.numSelectors s
      ∧ s.tableIdx < s.numTables ∧ (∀ t, t < s.tableIdx → TableReady s t)
  | .cld =>
    MultReady s ∧ PayloadFresh s ∧ MapReady s ∧ CountsReady s ∧ SelectorsTo s.numSelectors s
      ∧ s.tableIdx < s.numTables ∧ (∀ t, t < s.tableIdx → TableReady s t)
      ∧ s.symIdx ≤ s.eob ∧ LensTo s.symIdx s
  | .select =>
    MultReady s ∧ MapReady s ∧ CountsReady s ∧ SelectorsTo s.numSelectors s
      ∧ (∀ t, t < s.numTables → TableReady s t) ∧ PayloadOk s
      ∧ s.symCount ≤ s.numSelectors * Config.groupSize
      ∧ (s.symCount % Config.groupSize ≠ 0 → s.curTable < s.numTables)
  | .symbol =>
    MultReady s ∧ MapReady s ∧ CountsReady s ∧ SelectorsTo s.numSelectors s
      ∧ (∀ t, t < s.numTables → TableReady s t) ∧ PayloadOk s
      ∧ s.symCount < s.numSelectors * Config.groupSize
      ∧ s.curTable < s.numTables ∧ PathOk s
  | .invert => MultReady s
  | .rle => MultReady s ∧ WalkOk s
  | .rleCount => MultReady s ∧ WalkOk s ∧ s.rleLast ≠ none ∧ s.latch.length = 8

/-! ## The run flush, as the statements speak of it (spec/45_symbol_decode.md R283) -/

/-- The pending run, if there is one, has a defined byte and fits the buffer. -/
def FlushReady (s : State) : Prop :=
  s.numInUse ≤ 256 ∧ s.bwtLen + s.runLen ≤ Config.maxBlock
    ∧ (s.runLen = 0 ∨
        (s.lastMtf.toNat < s.numInUse ∧ ∃ v, Memory.lookup s.symMap s.lastMtf.toNat = some v))

/-- `m` and `h` hold what `bwtBlock` and `hist` hold after the pending run is written: `runLen` copies of
`symMap[lastMtf]`, and nothing else changed. -/
def AfterFlush (s : State) (m : Memory Byte) (h : Memory Nat) : Prop :=
  (∀ k, Memory.lookup m k =
      if s.bwtLen ≤ k ∧ k < s.bwtLen + s.runLen then Memory.lookup s.symMap s.lastMtf.toNat
      else Memory.lookup s.bwtBlock k)
    ∧ (∀ v : Byte, histAt h v.toNat =
        histAt s.hist v.toNat +
          if Memory.lookup s.symMap s.lastMtf.toNat = some v then s.runLen else 0)
    ∧ ∀ u, 256 ≤ u → histAt h u = histAt s.hist u

/-- The state after the flush, given the two memories: no run is pending, and a run that was written sets
the increment back to 1. -/
def flushed (s : State) (m : Memory Byte) (h : Memory Nat) : State :=
  { s with
    bwtBlock := m, bwtLen := s.bwtLen + s.runLen, hist := h
    runLen := 0, runInc := if s.runLen = 0 then s.runInc else 1 }

/-! ## Waiting (spec/10_state.md R31) -/

/-- The step at a walk byte or a pending copy offers a byte to the sink. -/
def offersByte (s : State) : Bool :=
  decide (s.slot = .rle) &&
    (if s.latch.length < 8 then decide (0 < s.rlePending)
     else decide (s.rleLast ≠ some (BitVec.ofNat 8 (bitsToNat s.latch))) || decide (s.rleAcc < 3))

/-- A wait flag is set only while the core decodes and what it waits for is still missing: so at most one
of the two is set (R31). It stays set until the core's step that ends the wait (log 27). -/
structure State.WaitOk (s : State) : Prop where
  source : s.waitSrc = true → s.phase.active = true ∧ s.srcClosed = false ∧ s.bitCnt < pendingRead s
  sink : s.waitSnk = true → s.phase.active = true ∧ offersByte s = true

/-- Everything that holds of a sound state. -/
structure State.Inv (s : State) : Prop where
  coherent : s.Coherent
  memories : s.MemoriesWf
  cursor : s.CursorOk
  errorLatch : s.ErrorOk
  histogram : s.HistogramOk
  widths : s.WidthsOk
  waits : s.WaitOk
  stage : s.phase.active = true → StageOk s

end Sys2Proof.Machine
end

