-- ==== Sys2Proof/Certificates/Slice0/Obligations.lean ====
section
/-! DEFINITION. The statements for the provers. A rule beside a statement is a numbered rule of spec/.

The element statements give the whole next state as a record of the old one, so each is at once the
element's result, its completion and its frame: every register, memory and environment field the record does
not name is unchanged. `slot`, `latch` and the loop counters are the position of spec/10_state.md R20 (log 2
is their representation). `raise k d s` is the error entry of spec/60_exceptions.md R371, stated whole in
`ErrorEntry`. -/

open Sys2Proof Sys2Proof.Machine

/-! ## Reset, the host, the environment -/

/-- R410: a reset event gives every register its reset value and makes every memory unwritten; the source's
answers and the sink's bytes are neither consumed nor delivered. The position fields' reset values and what
the environment's fields keep are the model's choice (log 2, 12). -/
def Obligations.ResetEvent : Prop :=
  ∀ (s : State) (rest : List EnvEvent), s.env = .reset :: rest →
    ∃ t, step s = .next t
      ∧ (t.phase = .idle ∧ t.bphase = .none ∧ t.bitBuf = 0#32 ∧ t.bitCnt = 0 ∧ t.srcClosed = false)
      ∧ (t.mult = 0#4 ∧ t.blockCount = 0#32 ∧ t.streamCRC = 0#32 ∧ t.storedStreamCRC = 0#32)
      ∧ (t.errKind = .none ∧ t.errDetail = 0#4 ∧ t.errBlock = 0#32)
      ∧ (t.inCount = 0#32 ∧ t.outCount = 0#32 ∧ t.waitSrc = false ∧ t.waitSnk = false)
      ∧ (t.storedBlockCRC = 0#32 ∧ t.randFlag = false ∧ t.origPtr = 0#24)
      ∧ (t.usedMap = 0#16 ∧ t.numInUse = 0 ∧ t.eob = 0 ∧ ∀ k, Memory.lookup t.symMap k = none)
      ∧ (t.numTables = 0 ∧ t.numSelectors = 0 ∧ ∀ k, Memory.lookup t.selectors k = none)
      ∧ (∀ i : Nat, t.selFL[i]? = none ∧ t.mtfFL[i]? = none)
      ∧ (t.curLen = 0 ∧ ∀ k, Memory.lookup t.codeLen k = none ∧ Memory.lookup t.tables k = none)
      ∧ (t.symCount = 0 ∧ t.curTable = 0 ∧ t.runLen = 0 ∧ t.runInc = 1 ∧ t.lastMtf = 0#8)
      ∧ (t.bwtLen = 0 ∧ ∀ k, histAt t.hist k = 0 ∧ Memory.lookup t.bwtBlock k = none
          ∧ Memory.lookup t.mp k = none)
      ∧ (t.cursor = 0#32 ∧ t.bwtDone = 0 ∧ t.rNToGo = 0 ∧ t.rTPos = 0)
      ∧ (t.rleLast = none ∧ t.rleAcc = 0 ∧ t.rlePending = 0)
      ∧ (t.blockCRC = 0xFFFFFFFF#32 ∧ t.calcBlockCRC = 0#32)
      ∧ (∀ offset, csrWord t offset = 0#32) ∧ doneFlag t = false ∧ errorFlag t = false
      ∧ (t.slot = .hdrMagic ∧ t.latch = [])
      ∧ (t.srcQ = s.srcQ ∧ t.snkRoom = s.snkRoom ∧ t.sunk = s.sunk ∧ t.env = rest
          ∧ t.hostData = s.hostData)

/-- R340, R51: a write to CTRL starts the core exactly if bit 0 is 1 and the phase is IDLE. -/
def Obligations.HostStart : Prop :=
  ∀ (s : State) (value : Word) (rest : List EnvEvent), s.env = .write Config.csrBase 4 value :: rest →
    (s.phase = .idle → value.getLsbD 0 = true →
      step s = .next { s with env := rest, streamCRC := 0#32, phase := .header })
    ∧ (s.phase ≠ .idle ∨ value.getLsbD 0 = false → step s = .next { s with env := rest })

/-- R51 to R63, R93: an aligned write to any other window offset changes nothing, and CTRL and the offsets
that hold no register read 0 without an effect. That the window has no upper end is the model's choice
(log 10). -/
def Obligations.ReservedOffsets : Prop :=
  ∀ (s : State) (offset : Nat) (rest : List EnvEvent), offset % 4 = 0 →
    (∀ value, offset ≠ 0 → s.env = .write (Config.csrBase + offset) 4 value :: rest →
      step s = .next { s with env := rest })
    ∧ (offset = 0 ∨ 0x2C < offset → s.env = .read (Config.csrBase + offset) 4 :: rest →
      step s = .next { s with env := rest, hostData := s.hostData ++ [0#32] })

/-- R52, with the encodings of R21 and R22: what a read of STATUS returns, field by field; it reads 0 at reset
and a write of it changes nothing. R64: the outputs done_o and error_o are its bits 9 and 10, and 0 at reset. -/
def Obligations.StatusRead : Prop :=
  (Phase.code .idle = 0#32 ∧ Phase.code .header = 1#32 ∧ Phase.code .awaitBlock = 2#32
      ∧ Phase.code .inBlock = 3#32 ∧ Phase.code .trailer = 4#32 ∧ Phase.code .done = 5#32
      ∧ Phase.code .error = 6#32)
  ∧ (BPhase.code .none = 0#32 ∧ BPhase.code .bheader = 1#32 ∧ BPhase.code .tables = 2#32
      ∧ BPhase.code .symbols = 3#32 ∧ BPhase.code .bwtInvert = 4#32 ∧ BPhase.code .streaming = 5#32
      ∧ BPhase.code .exhausted = 6#32)
  ∧ csrWord State.reset 0x04 = 0#32
  ∧ doneFlag State.reset = false ∧ errorFlag State.reset = false
  ∧ (∀ (s : State) (value : Word) (rest : List EnvEvent),
      s.env = .write (Config.csrBase + 0x04) 4 value :: rest → step s = .next { s with env := rest })
  ∧ ∀ (s : State) (rest : List EnvEvent), s.env = .read (Config.csrBase + 0x04) 4 :: rest →
      ∃ w : Word, step s = .next { s with env := rest, hostData := s.hostData ++ [w] }
        ∧ w.extractLsb' 0 3 = (Phase.code s.phase).extractLsb' 0 3
        ∧ w.extractLsb' 4 3 = (BPhase.code s.bphase).extractLsb' 0 3
        ∧ w.getLsbD 3 = false ∧ w.getLsbD 7 = false
        ∧ (w.getLsbD 8 = true ↔ s.phase = .header ∨ s.phase = .awaitBlock ∨ s.phase = .inBlock
              ∨ s.phase = .trailer)
        ∧ (w.getLsbD 9 = true ↔ s.phase = .done)
        ∧ (w.getLsbD 10 = true ↔ s.phase = .error)
        ∧ doneFlag s = w.getLsbD 9 ∧ errorFlag s = w.getLsbD 10
        ∧ w.getLsbD 11 = s.randFlag ∧ w.getLsbD 12 = s.waitSrc ∧ w.getLsbD 13 = s.waitSnk
        ∧ w.extractLsb' 14 18 = 0#18

/-- R53 to R62, with the codes of R372: what a read of each of the other registers returns; each reads 0 at
reset and a write of it changes nothing. -/
def Obligations.RegisterReads : Prop :=
  (ErrKind.code .none = 0#32 ∧ ErrKind.code .truncatedInput = 1#32 ∧ ErrKind.code .invalidHeader = 2#32
      ∧ ErrKind.code .corruptBlock = 3#32 ∧ ErrKind.code .blockCRCMismatch = 4#32
      ∧ ErrKind.code .streamCRCMismatch = 5#32 ∧ ErrKind.code .streamFormatError = 6#32)
  ∧ (∀ offset, csrWord State.reset offset = 0#32)
  ∧ (∀ (s : State) (value : Word) (offset : Nat) (rest : List EnvEvent),
      s.env = .write (Config.csrBase + offset) 4 value :: rest →
      0x08 ≤ offset → offset ≤ 0x2C → offset % 4 = 0 → step s = .next { s with env := rest })
  ∧ ∀ (s : State) (offset : Nat) (rest : List EnvEvent),
      s.env = .read (Config.csrBase + offset) 4 :: rest →
      0x08 ≤ offset → offset ≤ 0x2C → offset % 4 = 0 →
      ∃ w : Word, step s = .next { s with env := rest, hostData := s.hostData ++ [w] }
        ∧ (offset = 0x08 → w.extractLsb' 0 3 = (ErrKind.code s.errKind).extractLsb' 0 3
              ∧ w.extractLsb' 4 4 = s.errDetail ∧ w.getLsbD 3 = false ∧ w.extractLsb' 8 24 = 0#24)
        ∧ (offset = 0x0C → w = s.errBlock) ∧ (offset = 0x10 → w = s.blockCount)
        ∧ (offset = 0x14 → w.extractLsb' 0 4 = s.mult ∧ w.extractLsb' 4 28 = 0#28)
        ∧ (offset = 0x18 → w = s.storedBlockCRC) ∧ (offset = 0x1C → w = s.calcBlockCRC)
        ∧ (offset = 0x20 → w = s.streamCRC) ∧ (offset = 0x24 → w = s.storedStreamCRC)
        ∧ (offset = 0x28 → w = s.inCount) ∧ (offset = 0x2C → w = s.outCount)

/-- R90: an access that is not 32 bits wide, or not at a multiple of 4 of the window, has no step. That
alignment is judged on the window offset is the model's choice (log 10). -/
def Obligations.RefusedAccess : Prop :=
  ∀ (s : State) (offset width : Nat) (value : Word) (rest : List EnvEvent),
    (width ≠ 4 ∨ offset % 4 ≠ 0) →
    (s.env = .read (Config.csrBase + offset) width :: rest
      ∨ s.env = .write (Config.csrBase + offset) width value :: rest) →
    step s = .refused .hostAccess

/-! ## Decoding and stepping -/

/-- R12, R111: when the bits read decode to an element, the core's step is that element's effect and nothing
else; of the illegal ones of R125, a selector or a payload codeword raises its error (the fixed elements' errors
stand in `HeaderMagicAndH` and `MarkerDispatch`). That a `core` event of the schedule is what gives the core its
turn among the environment's events is the model's choice (log 3). -/
def Obligations.StepRunsElement : Prop :=
  ∀ (s : State) (c : Ctx), s.env = [] → s.phase.active = true → ctxOf s = .ok (some c) →
    (∀ i, decodeBits c s.latch = .instr i → step s = exec i s)
    ∧ (∀ n, decodeBits c s.latch = .more n → s.slot ≠ .rle → s.slot ≠ .rleCount →
        step s = readStep n s)
    ∧ (decodeBits c s.latch = .reject .selMtf → step s = .next (raise .corruptBlock 3#4 s))
    ∧ (decodeBits c s.latch = .reject .badCode → step s = .next (raise .corruptBlock 7#4 s))
    ∧ ∀ rest, step { s with env := .core :: rest } = coreStep { s with env := rest }

/-- Words written out from spec/30_encoding.md and spec/95_test_vectors.md (P2, H3, R1) decode to the
elements they stand for, and the bits after them are left. -/
def Obligations.SpecWordsDecode : Prop :=
  decode .hdrMagic [false, true, false, false, false, false, true, false, false, true, false, true,
      true, false, true, false] = some (.hdrMagic, [])
  ∧ decode .hdrLevel [false, false, true, true, false, false, false, true, true]
      = some (.hdrLevel 0x31#8, [true])
  ∧ decode .mapUsed [false, false, false, false, false, false, true, false, false, false, false, false,
      false, false, false, false] = some (.mapUsed 0x0200#16, [])
  ∧ decode (.selMtf 3) [true, true, false, true] = some (.selMtf 2, [true])
  ∧ decode (.selMtf 2) [true, true, false] = none
  ∧ decode .cld [true, true, true, false] = some (.clDec, [true, false])
  ∧ decode (.symbol [2, 1, 3, 3] (buildTable [2, 1, 3, 3]) 3) [true, true, false, false]
      = some (.mtfv 2, [false])
  ∧ decode (.rle (some 0x78#8) 3) [false, true, true, true, true, false, false, false]
      = some (.rle4Run 0x78#8, [])

/-- R110 to R123: in every context but a payload symbol's, decoding the encoding of an admitted element,
whatever bits follow, gives that element with every operand and leaves exactly the bits that follow. -/
def Obligations.DecodeEncodeAgree : Prop :=
  ∀ (c : Ctx) (i : Instr) (rest : List Bool),
    (∀ lens table eob, c ≠ .symbol lens table eob) → c.admits i = true →
      decode c (encode c i ++ rest) = some (i, rest)

/-- R219: for a complete length set, decoding the canonical codeword of symbol `sym` gives that symbol and
consumes exactly its recorded length. -/
def Obligations.HuffmanRoundTrip : Prop :=
  ∀ (eob sym : Nat) (lens : List Nat) (rest : List Bool),
    LensOk eob lens → KraftComplete lens → sym < lens.length →
      decode (.symbol lens (buildTable lens) eob) (codeword lens sym ++ rest)
        = some (symbolInstr eob sym, rest)
      ∧ lens[sym]? = some (codeword lens sym).length

/-- R84, R85, R89, R95: the steps of reading an element are a refinement of decoding the stream as one bit
string. From a sound state at the start of an element, if the undelivered stream bits begin with element
`i`, some steps read exactly its bits: the core then stands before running `i`, with the bits after `i` still
to come and only the BitCursor, its counters and the source touched. -/
def Obligations.FetchFollowsDecode : Prop :=
  ∀ (s : State) (c : Ctx) (i : Instr) (rest : List Bool),
    s.Inv → s.env = [] → s.phase.active = true → s.srcClosed = false → s.latch = [] →
    s.slot ≠ .rle → s.slot ≠ .rleCount → ctxOf s = .ok (some c) →
    decode c (streamBits s) = some (i, rest) →
      ∃ (k : Nat) (t : State), runSteps k s = .next t
        ∧ ctxOf t = .ok (some c) ∧ decodeBits c t.latch = .instr i ∧ streamBits t = rest
        ∧ step t = exec i t
        ∧ t = { s with
            bitBuf := t.bitBuf, bitCnt := t.bitCnt, inCount := t.inCount, srcQ := t.srcQ
            waitSrc := t.waitSrc, latch := t.latch }

/-! ## The BitCursor -/

/-- R162 and R165, step by step: a read of `n` bits takes one source byte while fewer than `n` bits are
there, and hands out the field once they are; a closed or ended source raises TruncatedInput; without an
answer the core holds with `waitSrc` set and nothing else changed. -/
def Obligations.FillAndTake : Prop :=
  ∀ (s : State) (n : Nat), n ≤ 24 →
    (s.bitCnt < n →
      (s.srcClosed = true → readStep n s = .next (raise .truncatedInput 0#4 s))
      ∧ (s.srcClosed = false → s.srcQ = [] → readStep n s = .next { s with waitSrc := true })
      ∧ (∀ q, s.srcClosed = false → s.srcQ = .eof :: q →
          readStep n s =
            .next (raise .truncatedInput 0#4 { s with srcQ := q, srcClosed := true, waitSrc := false }))
      ∧ (∀ b q, s.srcClosed = false → s.srcQ = .byte b :: q →
          readStep n s =
            .next { s with
              srcQ := q, waitSrc := false, bitCnt := s.bitCnt + 8, inCount := s.inCount + 1#32
              bitBuf := BitVec.ofNat 32 (s.bitBuf.toNat * 256 + b.toNat) }))
    ∧ (n ≤ s.bitCnt → s.bitCnt ≤ 32 →
        ∃ bits : List Bool, bits.length = n
          ∧ readStep n s = .next { s with bitCnt := s.bitCnt - n, latch := s.latch ++ bits }
          ∧ natToBits s.bitCnt s.bitBuf.toNat = bits ++ natToBits (s.bitCnt - n) s.bitBuf.toNat)

/-- R162, R164, R86: with the bits at hand, readBits(n) answers the value of the next n stream bits, most
significant first, consumes exactly them, and leaves at most 7 bits in the accumulator; readBits(0) changes
nothing, more than 24 bits is a fault, and readInt32 answers the next 32 bits. -/
def Obligations.ReadBitsValue : Prop :=
  ∀ (s : State) (n : Nat),
    (24 < n → readBits n s = .fault .readTooWide)
    ∧ readBits 0 s = .got 0 s
    ∧ (n ≤ 24 → s.phase ≠ .error → s.srcClosed = false → s.waitSrc = false → s.bitCnt ≤ 7 →
        n ≤ (streamBits s).length →
        ∃ t, readBits n s = .got (bitsToNat ((streamBits s).take n)) t
          ∧ streamBits t = (streamBits s).drop n ∧ t.bitCnt ≤ 7
          ∧ t = { s with bitBuf := t.bitBuf, bitCnt := t.bitCnt, inCount := t.inCount, srcQ := t.srcQ })
    ∧ (s.phase ≠ .error → s.srcClosed = false → s.waitSrc = false → s.bitCnt ≤ 7 →
        32 ≤ (streamBits s).length →
        ∃ t, readInt32 s = .got (BitVec.ofNat 32 (bitsToNat ((streamBits s).take 32))) t
          ∧ streamBits t = (streamBits s).drop 32 ∧ t.bitCnt ≤ 7
          ∧ t = { s with bitBuf := t.bitBuf, bitCnt := t.bitCnt, inCount := t.inCount, srcQ := t.srcQ })

/-- R163: readUnary counts the one-bits before the first zero-bit and consumes that zero-bit too. -/
def Obligations.ReadUnaryValue : Prop :=
  ∀ (s : State) (j : Nat) (rest : List Bool), s.phase ≠ .error → s.srcClosed = false →
    s.waitSrc = false → s.bitCnt ≤ 7 → streamBits s = List.replicate j true ++ false :: rest →
    ∃ t, readUnary s = .got j t ∧ streamBits t = rest ∧ t.bitCnt ≤ 7
      ∧ t = { s with bitBuf := t.bitBuf, bitCnt := t.bitCnt, inCount := t.inCount, srcQ := t.srcQ }

/-- R160: every step keeps `bitCnt` at most 31, and at most 7 once no read is in progress. -/
def Obligations.StepKeepsCursor : Prop :=
  ∀ s t : State, s.CursorOk → step s = .next t → t.CursorOk

/-! ## CRC -/

/-- R181, R182: folding a byte is eight steps of polynomial division by 0x04C11DB7 with the byte entering at
the top. -/
def Obligations.CrcIsPolynomialDivision : Prop :=
  ∀ (c : Word) (b : Byte),
    crcUpdate c b = crcShifts 8 (c ^^^ (BitVec.setWidth 32 b <<< 24))
    ∧ crcShift c = (c <<< 1) ^^^ (if c.getLsbD 31 then 0x04C11DB7#32 else 0#32)

/-! ## FrontLists -/

/-- R201: promoteByIndex returns the entry at `i`, puts it first, shifts the entries before it by one place
and leaves those after it. -/
def Obligations.PromoteByIndex : Prop :=
  ∀ (nm : MemName) (fl : List Byte) (i : Nat), Config.memSize nm = 256 → fl.length = 256 → i < 256 →
    ∃ v fl', promoteByIndex nm fl i = .ok (v, fl') ∧ fl[i]? = some v ∧ fl'.length = 256
      ∧ fl'[0]? = some v
      ∧ (∀ k : Nat, 1 ≤ k → k ≤ i → fl'[k]? = fl[k - 1]?)
      ∧ (∀ k : Nat, i < k → fl'[k]? = fl[k]?)

/-- R202: on a FrontList promoteByValue returns the index that holds the value and leaves the list that
promoteByIndex leaves. -/
def Obligations.PromoteByValue : Prop :=
  ∀ (nm : MemName) (fl : List Byte) (v : Byte), Config.memSize nm = 256 → IsFrontList fl →
    ∃ i fl', fl[i]? = some v ∧ (∀ k : Nat, fl[k]? = some v → k = i)
      ∧ promoteByValue nm fl v = .ok (i, fl') ∧ promoteByIndex nm fl i = .ok (v, fl')

/-- R200, R204: a promotion keeps the list a permutation of 0..255, and one at an index inside a closed
prefix returns a value of the prefix and keeps it closed. -/
def Obligations.PromotionInvariants : Prop :=
  ∀ (nm : MemName) (fl fl' : List Byte) (i n : Nat) (v : Byte),
    promoteByIndex nm fl i = .ok (v, fl') →
      (IsFrontList fl → IsFrontList fl')
      ∧ (PrefixClosed n fl → i < n → v.toNat < n ∧ PrefixClosed n fl')

/-! ## Huffman tables -/

/-- R212, R213: for every length from `minLen` to MAX_CODE_LEN, `base` and `limit` hold the running code
less the number of shorter symbols, and the running code plus the count less 1; the running code doubles
after adding the count. That shorter slots hold nothing is the model's reading (log 9). -/
def Obligations.TableRows : Prop :=
  ∀ (eob : Nat) (lens : List Nat), LensOk eob lens →
    ∃ code : Nat → Nat, code (buildTable lens).minLen = 0
      ∧ (∀ l, (buildTable lens).minLen ≤ l → code (l + 1) = (code l + lens.count l) * 2)
      ∧ (∀ l, (buildTable lens).minLen ≤ l → l ≤ 23 →
          Memory.lookup (buildTable lens).base l
            = some ((code l : Int) - (lens.countP (fun k => decide (k < l)) : Int))
          ∧ Memory.lookup (buildTable lens).limit l = some ((code l : Int) + (lens.count l : Int) - 1))
      ∧ (∀ l, l < (buildTable lens).minLen ∨ 23 < l →
          Memory.lookup (buildTable lens).base l = none ∧ Memory.lookup (buildTable lens).limit l = none)

/-- R211, R214: `minLen` and `maxLen` are the observed extrema of the code lengths, and `perm` lists every
symbol once, by ascending length and, within a length, by ascending symbol. -/
def Obligations.TableExtremaAndRanks : Prop :=
  ∀ (eob : Nat) (lens : List Nat), LensOk eob lens →
    ((buildTable lens).minLen ∈ lens ∧ (buildTable lens).maxLen ∈ lens
      ∧ ∀ l ∈ lens, (buildTable lens).minLen ≤ l ∧ l ≤ (buildTable lens).maxLen)
    ∧ (buildTable lens).perm.Perm (List.range lens.length)
    ∧ (buildTable lens).perm.Pairwise
        (fun a b => lens.getD a 0 < lens.getD b 0 ∨ (lens.getD a 0 = lens.getD b 0 ∧ a < b))

/-- R216: along every path decodeSymbol can take, each table element it reads has a value: it answers a
symbol, asks for more bits, or raises BADCODE after exactly 23 bits; and one more bit stays on a path. -/
def Obligations.DecodeReadsInRange : Prop :=
  ∀ (eob : Nat) (lens : List Nat) (bits : List Bool), LensOk eob lens → OnPath lens bits →
    ((∃ n, decodeSymbol (buildTable lens) eob bits = .more n ∧ 1 ≤ n ∧ n ≤ 23
        ∧ ∀ next : List Bool, next.length = n → OnPath lens (bits ++ next))
      ∨ (∃ sym, sym ≤ eob ∧ decodeSymbol (buildTable lens) eob bits = .instr (symbolInstr eob sym))
      ∨ (decodeSymbol (buildTable lens) eob bits = .reject .badCode ∧ bits.length = 23))

/-- R218: before each symbol, at every 50th one, the next selector sets the table; with no selector left the
step raises SELOVF; every payload element counts itself. That the advance is a step of its own is the model's
choice (log 15). -/
def Obligations.SelectorAdvance : Prop :=
  (∀ s, AtElement .select s →
    (s.symCount % 50 ≠ 0 → step s = .next { s with slot := .symbol, latch := [] })
    ∧ (s.symCount % 50 = 0 → s.numSelectors ≤ s.symCount / 50 →
        step s = .next (raise .corruptBlock 6#4 s))
    ∧ (∀ t, s.symCount % 50 = 0 → s.symCount / 50 < s.numSelectors → s.numSelectors ≤ 18002 →
        Memory.lookup s.selectors (s.symCount / 50) = some t →
        step s = .next { s with curTable := t, slot := .symbol, latch := [] }))
  ∧ ∀ s t i, (i = .runa ∨ i = .runb ∨ i = .eob ∨ ∃ n, i = .mtfv n) → exec i s = .next t →
      t.symCount = s.symCount + 1

/-! ## Stream header, markers, trailer -/

/-- R341, R342: HDR_MAGIC and HDR_H are read as 16 and 8 bits, each checked as soon as it has been read. -/
def Obligations.HeaderMagicAndH : Prop :=
  ReadsField .hdrMagic 16 16 ∧ ReadsField .hdrH 8 8
  ∧ (∀ s, AtElement .hdrMagic s → s.latch.length = 16 →
      (bitsToNat s.latch = 0x425A → step s = exec .hdrMagic s)
      ∧ (bitsToNat s.latch ≠ 0x425A → step s = .next (raise .invalidHeader 1#4 s)))
  ∧ (∀ s, AtElement .hdrH s → s.latch.length = 8 →
      (bitsToNat s.latch = 0x68 → step s = exec .hdrH s)
      ∧ (bitsToNat s.latch ≠ 0x68 → step s = .next (raise .invalidHeader 2#4 s)))
  ∧ ∀ s, exec .hdrMagic s = .next { s with slot := .hdrH, latch := [] }
      ∧ exec .hdrH s = .next { s with slot := .hdrLevel, latch := [] }

/-- R343: HDR_LEVEL accepts the digits '1' to '9' and sets the multiplier; any other byte is
InvalidHeader(LEVEL). -/
def Obligations.HeaderLevel : Prop :=
  ReadsField .hdrLevel 8 8
  ∧ RunsField .hdrLevel 8 (fun v => .hdrLevel (BitVec.ofNat 8 v))
  ∧ ∀ (d : Byte) (s : State),
      (0x31 ≤ d.toNat → d.toNat ≤ 0x39 →
        exec (.hdrLevel d) s = .next { s with
          mult := BitVec.ofNat 4 (d.toNat - 0x30), phase := .awaitBlock, slot := .marker, latch := [] })
      ∧ (d.toNat < 0x31 ∨ 0x39 < d.toNat →
          exec (.hdrLevel d) s = .next (raise .invalidHeader 3#4 s))

/-- R344, R346, R347: a marker is read as two halves of 24 bits and compared only when all 48 are there;
MARK_END moves to the trailer. -/
def Obligations.MarkerDispatch : Prop :=
  ReadsField .marker 48 24
  ∧ (∀ s, AtElement .marker s → s.latch.length = 48 →
      (bitsToNat s.latch = 0x314159265359 → step s = exec .markBlock s)
      ∧ (bitsToNat s.latch = 0x177245385090 → step s = exec .markEnd s)
      ∧ (bitsToNat s.latch ≠ 0x314159265359 → bitsToNat s.latch ≠ 0x177245385090 →
          step s = .next (raise .streamFormatError 0#4 s)))
  ∧ ∀ s, exec .markEnd s = .next { s with phase := .trailer, slot := .streamCrc, latch := [] }

/-- R345, R46: MARK_BLOCK counts the block and does block init; every stream-level register, the BitCursor
and the counters stay (R414). -/
def Obligations.MarkBlock : Prop :=
  ∀ s : State, exec .markBlock s = .next { s with
    blockCount := BitVec.ofNat 32 (s.blockCount.toNat + 1)
    selFL := (List.range 256).map (BitVec.ofNat 8), mtfFL := (List.range 256).map (BitVec.ofNat 8)
    bwtLen := 0, hist := []
    symCount := 0, runLen := 0, runInc := 1, lastMtf := 0#8
    bwtDone := 0, rNToGo := 0, rTPos := 0
    rleLast := none, rleAcc := 0, rlePending := 0
    blockCRC := 0xFFFFFFFF#32
    bphase := .bheader, phase := .inBlock
    slot := .blkCrc, latch := [] }

/-- R348, R189: STREAM_CRC is read as two halves of 16 bits, stored, and compared with the combined CRC. -/
def Obligations.StreamCrcCheck : Prop :=
  ReadsField .streamCrc 32 16
  ∧ RunsField .streamCrc 32 (fun v => .streamCrc (BitVec.ofNat 32 v))
  ∧ ∀ (crc : Word) (s : State),
      (crc = s.streamCRC →
        exec (.streamCrc crc) s = .next { s with
          storedStreamCRC := crc, phase := .done, slot := .streamCrc, latch := [] })
      ∧ (crc ≠ s.streamCRC →
          exec (.streamCrc crc) s = .next (raise .streamCRCMismatch 0#4 { s with storedStreamCRC := crc }))

/-! ## Block header and tables -/

/-- R241 to R243: BLK_CRC (two halves of 16 bits), BLK_RAND and BLK_ORIGPTR are read in this order, stored
unchecked, and the block moves on to its tables. -/
def Obligations.BlockHeader : Prop :=
  (ReadsField .blkCrc 32 16 ∧ ReadsField .blkRand 1 1 ∧ ReadsField .blkOrigPtr 24 24)
  ∧ (RunsField .blkCrc 32 (fun v => .blkCrc (BitVec.ofNat 32 v))
      ∧ RunsField .blkRand 1 (fun v => .blkRand (v == 1))
      ∧ RunsField .blkOrigPtr 24 (fun v => .blkOrigPtr (BitVec.ofNat 24 v)))
  ∧ ∀ (crc : Word) (r : Bool) (p : BitVec 24) (s : State),
      exec (.blkCrc crc) s = .next { s with storedBlockCRC := crc, slot := .blkRand, latch := [] }
      ∧ exec (.blkRand r) s = .next { s with randFlag := r, slot := .blkOrigPtr, latch := [] }
      ∧ exec (.blkOrigPtr p) s =
          .next { s with origPtr := p, bphase := .tables, slot := .mapUsed, latch := [] }

/-- R244, R246: MAP_USED is stored and the count cleared; the first used range's bitmap comes next, and an
all-zero map raises NO_SYMBOLS. -/
def Obligations.MapUsed : Prop :=
  ReadsField .mapUsed 16 16
  ∧ RunsField .mapUsed 16 (fun v => .mapUsed (BitVec.ofNat 16 v))
  ∧ ∀ (m : BitVec 16) (s : State),
      (∀ k, k ≤ 15 → m.getLsbD (15 - k) = true → (∀ j, j < k → m.getLsbD (15 - j) = false) →
        exec (.mapUsed m) s = .next { s with
          usedMap := m, numInUse := 0, rangeIdx := k, slot := .mapPresent, latch := [] })
      ∧ (m = 0#16 →
          exec (.mapUsed m) s = .next (raise .corruptBlock 5#4 { s with usedMap := m, numInUse := 0 }))

/-- R245, R246: MAP_PRESENT of range i appends the byte values 16i + j of its one-bits, first bit lowest, to
the symbol map; then comes the next used range's bitmap, or the map is complete with the end-of-block symbol
set, or NO_SYMBOLS is raised for an empty map. -/
def Obligations.MapPresent : Prop :=
  ReadsField .mapPresent 16 16
  ∧ RunsField .mapPresent 16 (fun v => .mapPresent (BitVec.ofNat 16 v))
  ∧ ∀ (p : BitVec 16) (s : State), s.rangeIdx ≤ 15 → s.numInUse ≤ 16 * s.rangeIdx →
      ∃ (m : Memory Byte) (values : List Nat),
        values = (List.range 16).filter (fun j => p.getLsbD (15 - j))
        ∧ (∀ k, Memory.lookup m k =
            if s.numInUse ≤ k ∧ k < s.numInUse + values.length then
              some (BitVec.ofNat 8 (16 * s.rangeIdx + values.getD (k - s.numInUse) 0))
            else Memory.lookup s.symMap k)
        ∧ (∀ k, s.rangeIdx < k → k ≤ 15 → s.usedMap.getLsbD (15 - k) = true →
            (∀ j, s.rangeIdx < j → j < k → s.usedMap.getLsbD (15 - j) = false) →
            exec (.mapPresent p) s = .next { s with
              symMap := m, numInUse := s.numInUse + values.length
              rangeIdx := k, slot := .mapPresent, latch := [] })
        ∧ ((∀ j, s.rangeIdx < j → j ≤ 15 → s.usedMap.getLsbD (15 - j) = false) →
            0 < s.numInUse + values.length →
            exec (.mapPresent p) s = .next { s with
              symMap := m, numInUse := s.numInUse + values.length
              eob := s.numInUse + values.length + 1, slot := .nGroups, latch := [] })
        ∧ ((∀ j, s.rangeIdx < j → j ≤ 15 → s.usedMap.getLsbD (15 - j) = false) →
            s.numInUse + values.length = 0 →
            exec (.mapPresent p) s =
              .next (raise .corruptBlock 5#4 { s with symMap := m, numInUse := 0 }))

/-- R247 to R249: both counts are read before either is checked, and the table count is checked first. -/
def Obligations.GroupAndSelectorCounts : Prop :=
  (ReadsField .nGroups 3 3 ∧ RunsField .nGroups 3 (fun v => .nGroups (BitVec.ofNat 3 v)))
  ∧ (ReadsField .nSelectors 15 15 ∧ RunsField .nSelectors 15 (fun v => .nSelectors (BitVec.ofNat 15 v)))
  ∧ ∀ (n : BitVec 3) (k : BitVec 15) (s : State),
      exec (.nGroups n) s = .next { s with numTables := n.toNat, slot := .nSelectors, latch := [] }
      ∧ (s.numTables < 2 ∨ 6 < s.numTables →
          exec (.nSelectors k) s = .next (raise .corruptBlock 1#4 { s with numSelectors := k.toNat }))
      ∧ (2 ≤ s.numTables → s.numTables ≤ 6 → k.toNat < 1 ∨ 18002 < k.toNat →
          exec (.nSelectors k) s = .next (raise .corruptBlock 2#4 { s with numSelectors := k.toNat }))
      ∧ (2 ≤ s.numTables → s.numTables ≤ 6 → 1 ≤ k.toNat → k.toNat ≤ 18002 →
          exec (.nSelectors k) s = .next { s with
            numSelectors := k.toNat, selIdx := 0, slot := .selMtf, latch := [] })

/-- R250: a selector is read bit by bit, and the numTables-th one-bit raises SELMTF before any further bit is
read; `selectors[g] <- promoteByIndex(selFL, j)`, and the next selector or the first table's lengths come
next. -/
def Obligations.SelectorElement : Prop :=
  (∀ s, AtElement .selMtf s →
    (∀ j, s.latch = List.replicate j true → j < s.numTables ∨ j = 0 → step s = readStep 1 s)
    ∧ (∀ j, s.latch = List.replicate j true ++ [false] → j < s.numTables ∨ j = 0 →
        step s = exec (.selMtf j) s)
    ∧ (s.latch = List.replicate s.numTables true → 0 < s.numTables →
        step s = .next (raise .corruptBlock 3#4 s)))
  ∧ ∀ (j : Nat) (v : Byte) (s : State), j < 256 → s.selFL[j]? = some v → s.selIdx < 18002 →
    exec (.selMtf j) s = .next { s with
      selFL := v :: (s.selFL.take j ++ s.selFL.drop (j + 1))
      selectors := Memory.insert s.selectors s.selIdx v.toNat
      selIdx := s.selIdx + 1
      tableIdx := if s.selIdx + 1 < s.numSelectors then s.tableIdx else 0
      slot := if s.selIdx + 1 < s.numSelectors then .selMtf else .clStart
      latch := [] }

/-- R251, R253, R254: CL_START is read as 5 bits and sets the running length; `10` and `11` move it by one,
unchecked, and `0` is CL_DONE. -/
def Obligations.RunningLength : Prop :=
  ReadsField .clStart 5 5 ∧ RunsField .clStart 5 (fun v => .clStart (BitVec.ofNat 5 v))
  ∧ (∀ s, AtElement .cld s →
      (s.latch = [] ∨ s.latch = [true] → step s = readStep 1 s)
      ∧ (s.latch = [false] → step s = exec .clDone s)
      ∧ (s.latch = [true, false] → step s = exec .clInc s)
      ∧ (s.latch = [true, true] → step s = exec .clDec s))
  ∧ ∀ (l : BitVec 5) (s : State),
      exec (.clStart l) s = .next { s with curLen := l.toNat, symIdx := 0, slot := .cld, latch := [] }
      ∧ exec .clInc s = .next { s with curLen := s.curLen + 1, slot := .cld, latch := [] }
      ∧ exec .clDec s = .next { s with curLen := s.curLen - 1, slot := .cld, latch := [] }

/-- R252, R255, R256: CL_DONE records the running length if it is in 1..23, else raises CODELEN; after a
table's last symbol the table is built from the recorded lengths, and after the last table the payload
begins. -/
def Obligations.LengthRecorded : Prop :=
  ∀ s : State,
    (s.curLen < 1 ∨ 23 < s.curLen → exec .clDone s = .next (raise .corruptBlock 4#4 s))
    ∧ (1 ≤ s.curLen → s.curLen ≤ 23 → s.tableIdx < 6 → s.symIdx ≤ s.eob → s.eob ≤ 257 →
        (s.symIdx < s.eob →
          exec .clDone s = .next { s with
            codeLen := Memory.insert s.codeLen (258 * s.tableIdx + s.symIdx) s.curLen.toNat
            symIdx := s.symIdx + 1, slot := .cld, latch := [] })
        ∧ ∀ lens : List Nat, s.symIdx = s.eob → lens.length = s.eob →
          (∀ k l, lens[k]? = some l → Memory.lookup s.codeLen (258 * s.tableIdx + k) = some l) →
          exec .clDone s = .next { s with
            codeLen := Memory.insert s.codeLen (258 * s.tableIdx + s.symIdx) s.curLen.toNat
            tables := Memory.insert s.tables s.tableIdx (buildTable (lens ++ [s.curLen.toNat]))
            tableIdx := s.tableIdx + 1
            bphase := if s.tableIdx + 1 < s.numTables then s.bphase else .symbols
            slot := if s.tableIdx + 1 < s.numTables then .clStart else .select
            latch := [] })

/-! ## Payload symbols -/

/-- R281, R282: RUNA adds the increment once, RUNB twice, the increment doubles, and the accumulated run must
fit the block or CAPACITY is raised. -/
def Obligations.RunEscapes : Prop :=
  ∀ s : State,
    (s.bwtLen + (s.runLen + s.runInc) ≤ s.mult.toNat * 100000 →
      exec .runa s = .next { s with
        symCount := s.symCount + 1, runLen := s.runLen + s.runInc, runInc := s.runInc * 2
        slot := .select, latch := [] })
    ∧ (s.mult.toNat * 100000 < s.bwtLen + (s.runLen + s.runInc) →
        exec .runa s = .next (raise .corruptBlock 8#4 { s with
          symCount := s.symCount + 1, runLen := s.runLen + s.runInc, runInc := s.runInc * 2 }))
    ∧ (s.bwtLen + (s.runLen + 2 * s.runInc) ≤ s.mult.toNat * 100000 →
        exec .runb s = .next { s with
          symCount := s.symCount + 1, runLen := s.runLen + 2 * s.runInc, runInc := s.runInc * 2
          slot := .select, latch := [] })
    ∧ (s.mult.toNat * 100000 < s.bwtLen + (s.runLen + 2 * s.runInc) →
        exec .runb s = .next (raise .corruptBlock 8#4 { s with
          symCount := s.symCount + 1, runLen := s.runLen + 2 * s.runInc, runInc := s.runInc * 2 }))

/-- R284: MTFV flushes the run, then raises CAPACITY if the block is full, else moves rank s − 1 to the front
and appends its byte. -/
def Obligations.MtfvLiteral : Prop :=
  ∀ (s : State) (sym : Nat), FlushReady s →
    ∃ (m : Memory Byte) (h : Memory Nat), AfterFlush s m h
      ∧ (s.mult.toNat * 100000 ≤ s.bwtLen + s.runLen →
          exec (.mtfv sym) s = .next (raise .corruptBlock 8#4
            { flushed s m h with symCount := s.symCount + 1 }))
      ∧ (∀ r v : Byte, s.bwtLen + s.runLen < s.mult.toNat * 100000 →
          s.bwtLen + s.runLen < 900000 → sym - 1 < 256 → s.mtfFL[sym - 1]? = some r →
          r.toNat < s.numInUse → Memory.lookup s.symMap r.toNat = some v →
          ∃ h' : Memory Nat,
            (∀ u, histAt h' u = histAt h u + if u = v.toNat then 1 else 0)
            ∧ exec (.mtfv sym) s = .next { flushed s m h with
                symCount := s.symCount + 1
                mtfFL := r :: (s.mtfFL.take (sym - 1) ++ s.mtfFL.drop (sym - 1 + 1))
                lastMtf := r
                bwtBlock := Memory.insert m (s.bwtLen + s.runLen) v
                bwtLen := s.bwtLen + s.runLen + 1
                hist := h'
                slot := .select, latch := [] })

/-- R283, R285: the run flush writes `runLen` copies of `symMap[lastMtf]` behind the block and counts them,
and is a no-op when no run is pending; EOB does it and ends the symbol stream of the block. -/
def Obligations.RunFlushAndEob : Prop :=
  ∀ s : State, FlushReady s →
    (s.runLen = 0 → flushRun s = .ok s)
    ∧ ∃ (m : Memory Byte) (h : Memory Nat), AfterFlush s m h ∧ flushRun s = .ok (flushed s m h)
      ∧ exec .eob s = .next { flushed s m h with
          symCount := s.symCount + 1, bphase := .bwtInvert, slot := .invert, latch := [] }

/-- R287: every step keeps the histogram equal to the counts of the bytes in the block buffer, so that it
sums to the block length. R287 says so of symbol decoding; that it holds on from BWT_INVERT to the next block
is the model's choice (log 28). -/
def Obligations.StepKeepsHistogram : Prop :=
  ∀ s t : State, s.HistogramOk → step s = .next t →
    t.HistogramOk ∧ ((List.range 256).map (histAt t.hist)).sum = t.bwtLen

/-! ## The inverse transform -/

/-- R300 to R304: with the start pointer outside the block, an empty block's included, BWT_INVERT raises
ORIGPTR; else it counting-sorts the block into merged pointers and sets the cursor. That `hist` and `bwtBlock` stay as
they were is the model's choice (log 28). -/
def Obligations.BwtInvert : Prop :=
  (∀ s, AtElement .invert s → s.bwtLen ≤ s.origPtr.toNat → step s = .next (raise .corruptBlock 9#4 s))
  ∧ ∀ s, AtElement .invert s → s.HistogramOk → s.bwtLen ≤ 900000 → s.origPtr.toNat < s.bwtLen →
    ∃ (m : Memory Word) (c : Word),
      (∀ i v, i < s.bwtLen → Memory.lookup s.bwtBlock i = some v →
        Memory.lookup m (sortedIndex s.bwtBlock s.bwtLen i v) = some (BitVec.ofNat 32 (256 * i + v.toNat)))
      ∧ (∀ k, s.bwtLen ≤ k → Memory.lookup m k = Memory.lookup s.mp k)
      ∧ Memory.lookup m s.origPtr.toNat = some c
      ∧ step s = .next { s with
          mp := m, cursor := c, bwtDone := 0, bphase := .streaming, slot := .rle, latch := [] }

/-- R303: after BWT_INVERT every position of the block is named by exactly one merged pointer, which carries
that position's byte, and the bytes come in ascending order. -/
def Obligations.PointersPermute : Prop :=
  ∀ s t, AtElement .invert s → s.HistogramOk → s.bwtLen ≤ 900000 → s.origPtr.toNat < s.bwtLen →
    step s = .next t →
    (∀ i, i < s.bwtLen → ∃ j w, j < s.bwtLen ∧ Memory.lookup t.mp j = some w ∧ (w >>> 8).toNat = i)
    ∧ (∀ j, j < s.bwtLen → ∃ w, Memory.lookup t.mp j = some w ∧ (w >>> 8).toNat < s.bwtLen
        ∧ Memory.lookup s.bwtBlock (w >>> 8).toNat = some (BitVec.ofNat 8 (w.toNat % 256)))
    ∧ (∀ j w w', j + 1 < s.bwtLen → Memory.lookup t.mp j = some w →
        Memory.lookup t.mp (j + 1) = some w' → w.toNat % 256 ≤ w'.toNat % 256)

/-- R305: nextBWT answers END after bwtLen bytes; before that it takes the cursor's byte, follows the
pointer and counts, and the byte is derandomised. -/
def Obligations.WalkStep : Prop :=
  ∀ s : State,
    (s.bwtDone = s.bwtLen → nextBWT s = .ok (none, s))
    ∧ (∀ c, s.bwtDone ≠ s.bwtLen → s.bwtLen ≤ 900000 → (s.cursor >>> 8).toNat < s.bwtLen →
        Memory.lookup s.mp (s.cursor >>> 8).toNat = some c →
        nextBWT s = .ok
          (some (derandomise (BitVec.ofNat 8 (s.cursor.toNat % 256))
              { s with cursor := c, bwtDone := s.bwtDone + 1 }).1,
            (derandomise (BitVec.ofNat 8 (s.cursor.toNat % 256))
              { s with cursor := c, bwtDone := s.bwtDone + 1 }).2))

/-- R306: an unflagged block's bytes pass unchanged and touch nothing; in a flagged block the counter is
reloaded from RNUMS when 0, then decremented, and bit 0 is flipped when it becomes 1. R307: RNUMS has 512
entries in 50..999 that sum to 278212. That the parameter RNUMS stands at its default is the model's choice
(log 18). -/
def Obligations.Derandomise : Prop :=
  ∀ (b : Byte) (s : State),
    (s.randFlag = false → derandomise b s = (b, s))
    ∧ (∀ n, s.randFlag = true → s.rNToGo = n + 1 →
        derandomise b s = (if n = 1 then b ^^^ 1#8 else b, { s with rNToGo := n }))
    ∧ (∀ n, s.randFlag = true → s.rNToGo = 0 → Config.rnums[s.rTPos.val]? = some (n + 1) →
        derandomise b s =
          (if n = 1 then b ^^^ 1#8 else b,
            { s with rNToGo := n, rTPos := Fin.ofNat 512 (s.rTPos.val + 1) }))
    ∧ (Config.rnums.length = 512 ∧ Config.rnums.sum = 278212 ∧ ∀ n ∈ Config.rnums, 50 ≤ n ∧ n ≤ 999)

/-! ## RLE4 and the block end -/

/-- R320, R123: where the walk loop stands without a byte ready, a pending copy goes first, then the next
walk byte, then the block end; a byte ready is read as LIT, REP or RUN by the run-length state. R327, R326,
R82: a copy is delivered, folded and counted once the sink accepts it, and holds until then. What the block end
does is `BlockEnd`. A copy with no last byte is a model fault (log 13). -/
def Obligations.StreamingLoop : Prop :=
  ∀ s, AtElement .rle s →
    (∀ b, s.latch = natToBits 8 (BitVec.toNat (w := 8) b) →
      (s.rleLast ≠ some b → step s = exec (.rle4Lit b) s)
      ∧ (s.rleLast = some b → s.rleAcc < 3 → step s = exec (.rle4Rep b) s)
      ∧ (s.rleLast = some b → 3 ≤ s.rleAcc → step s = exec (.rle4Run b) s))
    ∧ (s.latch = [] → 0 < s.rlePending →
      (∀ b, s.rleLast = some b → s.snkRoom = some 0 → step s = .next { s with waitSnk := true })
      ∧ (∀ b, s.rleLast = some b → s.snkRoom ≠ some 0 →
          step s = .next { s with
            sunk := s.sunk ++ [b], snkRoom := s.snkRoom.map (fun n => n - 1), waitSnk := false
            blockCRC := crcUpdate s.blockCRC b, outCount := s.outCount + 1#32
            rlePending := s.rlePending - 1 })
      ∧ (s.rleLast = none → step s = .fault .noLastByte))
    ∧ (s.latch = [] → s.rlePending = 0 →
      (∀ b t, nextBWT s = .ok (some b, t) →
        step s = .next { t with slot := .rle, latch := natToBits 8 (BitVec.toNat (w := 8) b) })
      ∧ (s.bwtDone = s.bwtLen → step s = .next (blockEnd s)))

/-- R321, R322, R326, R82: RLE4_LIT and RLE4_REP deliver their byte once the sink accepts it, fold it into the
block CRC and count it; until then the core holds with `waitSnk` set and nothing else changed. -/
def Obligations.LiteralAndRepeat : Prop :=
  ∀ (b : Byte) (s : State),
    (s.snkRoom = some 0 →
      exec (.rle4Lit b) s = .next { s with waitSnk := true }
      ∧ exec (.rle4Rep b) s = .next { s with waitSnk := true })
    ∧ (s.snkRoom ≠ some 0 →
      exec (.rle4Lit b) s = .next { s with
        sunk := s.sunk ++ [b], snkRoom := s.snkRoom.map (fun n => n - 1), waitSnk := false
        blockCRC := crcUpdate s.blockCRC b, outCount := s.outCount + 1#32
        rleLast := some b, rleAcc := 1, slot := .rle, latch := [] }
      ∧ exec (.rle4Rep b) s = .next { s with
        sunk := s.sunk ++ [b], snkRoom := s.snkRoom.map (fun n => n - 1), waitSnk := false
        blockCRC := crcUpdate s.blockCRC b, outCount := s.outCount + 1#32
        rleAcc := s.rleAcc + 1, slot := .rle, latch := [] })

/-- R323, R324: RLE4_RUN fetches the count byte, which the next step runs as RLE4_COUNT whatever its value,
or raises RLE4COUNT when the walk has ended; RLE4_COUNT c sets c + 1 pending copies. That the two are two
steps is the model's choice (log 14). -/
def Obligations.RunAndCount : Prop :=
  (∀ (b : Byte) (s : State),
    (∀ c t, nextBWT s = .ok (some c, t) →
      exec (.rle4Run b) s = .next { t with slot := .rleCount, latch := natToBits 8 (BitVec.toNat (w := 8) c) })
    ∧ (s.bwtDone = s.bwtLen → exec (.rle4Run b) s = .next (raise .corruptBlock 10#4 s)))
  ∧ (∀ s c, AtElement .rleCount s → s.latch = natToBits 8 (BitVec.toNat (w := 8) c) →
      step s = exec (.rle4Count c) s)
  ∧ ∀ (c : Byte) (s : State),
      exec (.rle4Count c) s = .next { s with
        rlePending := c.toNat + 1, rleAcc := 0, slot := .rle, latch := [] }

/-- R327, R183, R82: the pending copies of a run are emitted one a step, before the next walk byte, and fold
into the block CRC as crcRepeat. For any number `k` of them the sink has room for, `k` steps deliver `k` copies
and leave the others pending; with room for no more, the step after them holds. -/
def Obligations.PendingCopies : Prop :=
  ∀ (s : State) (b : Byte) (k : Nat), AtElement .rle s → s.latch = [] → s.rleLast = some b →
    k ≤ s.rlePending →
    (s.snkRoom = none ∨ (∃ n, s.snkRoom = some n ∧ k ≤ n) →
      runSteps k s = .next { s with
        rlePending := s.rlePending - k
        sunk := s.sunk ++ List.replicate k b
        snkRoom := s.snkRoom.map (fun n => n - k)
        waitSnk := if k = 0 then s.waitSnk else false
        blockCRC := crcRepeat s.blockCRC b k
        outCount := BitVec.ofNat 32 (s.outCount.toNat + k) })
    ∧ (s.snkRoom = some k → k < s.rlePending →
        runSteps (k + 1) s = .next { s with
          rlePending := s.rlePending - k
          sunk := s.sunk ++ List.replicate k b
          snkRoom := some 0
          waitSnk := true
          blockCRC := crcRepeat s.blockCRC b k
          outCount := BitVec.ofNat 32 (s.outCount.toNat + k) })

/-- R325, R185 to R187: at the end of the walk the block CRC is complemented and checked; a match is rotated
and folded into the stream CRC and the next marker comes; a mismatch raises BlockCRCMismatch in EXHAUSTED,
with the stream CRC untouched. -/
def Obligations.BlockEnd : Prop :=
  ∀ s, AtElement .rle s → s.latch = [] → s.rlePending = 0 → s.bwtDone = s.bwtLen →
    (s.blockCRC ^^^ 0xFFFFFFFF#32 = s.storedBlockCRC →
      step s = .next { s with
        calcBlockCRC := s.blockCRC ^^^ 0xFFFFFFFF#32
        streamCRC := s.streamCRC.rotateLeft 1 ^^^ (s.blockCRC ^^^ 0xFFFFFFFF#32)
        bphase := .none, phase := .awaitBlock, slot := .marker, latch := [] })
    ∧ (s.blockCRC ^^^ 0xFFFFFFFF#32 ≠ s.storedBlockCRC →
        step s = .next (raise .blockCRCMismatch 0#4 { s with
          calcBlockCRC := s.blockCRC ^^^ 0xFFFFFFFF#32, bphase := .exhausted }))

/-! ## Errors -/

/-- R371: raising an error latches kind, detail and the block count and enters ERROR, and changes nothing
else. R350, R383: in IDLE, DONE and ERROR the core performs no step, and in DONE and ERROR no event but reset
changes a field of the core, the host's START neither. That the model's step then answers the same state,
`step s = .next s`, instead of none is the model's choice (log 11). -/
def Obligations.ErrorEntry : Prop :=
  (∀ (k : ErrKind) (d : BitVec 4) (s : State),
    raise k d s = { s with errKind := k, errDetail := d, errBlock := s.blockCount, phase := .error })
  ∧ (∀ s : State, s.env = [] → s.phase = .error ∨ s.phase = .done ∨ s.phase = .idle → step s = .next s)
  ∧ ∀ (s t : State) (e : EnvEvent) (rest : List EnvEvent), s.phase = .error ∨ s.phase = .done →
      s.env = e :: rest → e ≠ .reset → step s = .next t →
      t = { s with env := rest, srcQ := t.srcQ, snkRoom := t.snkRoom, hostData := t.hostData }

/-- R371 to R373, R376 to R378: the error latch changes only on entry to ERROR, from a decoding phase, with a
code of the tables, the block count, and the kind that belongs to the phase. -/
def Obligations.ErrorLatchWriters : Prop :=
  ∀ s t : State, s.Coherent → s.env = [] → step s = .next t →
    (t.errKind = s.errKind ∧ t.errDetail = s.errDetail ∧ t.errBlock = s.errBlock ∧ t.phase ≠ .error)
    ∨ s.phase = .error
    ∨ (s.phase.active = true ∧ t.phase = .error ∧ t.errBlock = t.blockCount
        ∧ t.errKind ≠ .none ∧ errorCodeLegal t.errKind t.errDetail = true
        ∧ (t.errKind = .invalidHeader → s.phase = .header)
        ∧ (t.errKind = .corruptBlock → s.phase = .inBlock)
        ∧ (t.errKind = .blockCRCMismatch → s.phase = .inBlock ∧ t.bphase = .exhausted)
        ∧ (t.errKind = .streamCRCMismatch → s.phase = .trailer)
        ∧ (t.errKind = .streamFormatError → s.phase = .awaitBlock)
        ∧ (t.errKind = .truncatedInput → s.phase = .inBlock →
            s.bphase = .bheader ∨ s.bphase = .tables ∨ s.bphase = .symbols))

/-! ## Whole-machine rules -/

/-- R351, R340: the step keeps the position coherent, and `phase` changes only as the transition table says:
IDLE is left only by a 32-bit host write to CTRL with bit 0 set. -/
def Obligations.PhaseTransitions : Prop :=
  ∀ s t : State, s.Coherent → step s = .next t →
    t.Coherent
    ∧ (t.phase = s.phase ∨ phaseMove s.phase t.phase = true
        ∨ (s.phase = .idle ∧ t.phase = .header ∧ ∃ value : Word,
              s.env.head? = some (.write Config.csrBase 4 value) ∧ value.getLsbD 0 = true)
        ∨ (t.phase = .idle ∧ s.env.head? = some .reset))

/-- R352, R22: `bphase` changes only as its transition table says, and an error leaves it where it was, but
for EXHAUSTED, the phase the failing CRC check is in. -/
def Obligations.BphaseTransitions : Prop :=
  ∀ s t : State, s.Coherent → step s = .next t → s.env.head? ≠ some .reset →
    (t.bphase = s.bphase ∨ bphaseMove s.bphase t.bphase = true)
    ∧ (t.phase = .error → t.bphase = s.bphase ∨ (s.bphase = .streaming ∧ t.bphase = .exhausted))
    ∧ (t.phase ≠ .error → t.phase ≠ .inBlock → t.bphase = .none)

/-- R13, R98: a core step takes at most one answer from the source or gives at most one byte to the sink,
never both, counts exactly that, and touches nothing of the host's. R391, R95: an event of the source adds its
answer behind those it has given, an event of the sink adds room, and neither changes anything of the core. R391,
R374: a close makes EOF the answer to the next request, whatever the source still had, so the next read that needs
a byte raises TruncatedInput. How these agents stand in State, and that a close drops what was not yet requested,
is the model's own (log 3, 4, 5), and so is that a wait flag outlasts the event until the core's own next step
(log 27). -/
def Obligations.OneTransferPerStep : Prop :=
  (∀ s t : State, s.env = [] → step s = .next t →
    t.env = s.env ∧ t.hostData = s.hostData
    ∧ ((t.srcQ = s.srcQ ∧ t.inCount = s.inCount ∧ t.sunk = s.sunk ∧ t.outCount = s.outCount
          ∧ t.snkRoom = s.snkRoom ∧ t.blockCRC = s.blockCRC)
        ∨ (t.srcQ = s.srcQ ∧ t.inCount = s.inCount ∧ t.sunk = s.sunk ∧ t.outCount = s.outCount
          ∧ t.snkRoom = s.snkRoom ∧ t.blockCRC = 0xFFFFFFFF#32 ∧ t.blockCount = s.blockCount + 1#32)
        ∨ (∃ b, s.srcQ = .byte b :: t.srcQ ∧ t.inCount = s.inCount + 1#32 ∧ t.sunk = s.sunk
          ∧ t.outCount = s.outCount ∧ t.snkRoom = s.snkRoom ∧ t.blockCRC = s.blockCRC)
        ∨ (s.srcQ = .eof :: t.srcQ ∧ t.srcClosed = true ∧ t.inCount = s.inCount ∧ t.sunk = s.sunk
          ∧ t.outCount = s.outCount ∧ t.snkRoom = s.snkRoom ∧ t.blockCRC = s.blockCRC)
        ∨ (∃ b, t.sunk = s.sunk ++ [b] ∧ s.snkRoom ≠ some 0 ∧ t.outCount = s.outCount + 1#32
          ∧ t.blockCRC = crcUpdate s.blockCRC b ∧ t.srcQ = s.srcQ ∧ t.inCount = s.inCount)))
  ∧ ∀ (s : State) (rest : List EnvEvent),
    (∀ b, s.env = .srcByte b :: rest →
      step s = .next { s with env := rest, srcQ := s.srcQ ++ [.byte b] })
    ∧ (s.env = .srcEnd :: rest → step s = .next { s with env := rest, srcQ := s.srcQ ++ [.eof] })
    ∧ (s.env = .srcClose :: rest → ∃ t, step s = .next t ∧ t = { s with env := rest, srcQ := [.eof] }
        ∧ ∀ n, s.srcClosed = false → s.bitCnt < n → n ≤ 24 →
          readStep n t =
            .next (raise .truncatedInput 0#4 { t with srcQ := [], srcClosed := true, waitSrc := false }))
    ∧ (∀ n, s.env = .snkRoom n :: rest →
        step s = .next { s with env := rest, snkRoom := s.snkRoom.map (fun k => k + n) })

/-- R96, R374, R349: the source is read only outside the streaming stages, the sink is written only in
STREAMING, and the combined CRC changes only at a block end whose check passed. -/
def Obligations.StagesOfTheRegisters : Prop :=
  ∀ s t : State, s.Coherent → s.env = [] → step s = .next t →
    (t.srcQ ≠ s.srcQ → s.phase = .header ∨ s.phase = .awaitBlock ∨ s.phase = .trailer
      ∨ s.bphase = .bheader ∨ s.bphase = .tables ∨ s.bphase = .symbols)
    ∧ (t.sunk ≠ s.sunk → s.phase = .inBlock ∧ s.bphase = .streaming)
    ∧ (t.streamCRC ≠ s.streamCRC → s.phase = .inBlock ∧ s.bphase = .streaming ∧ t.phase = .awaitBlock
        ∧ t.calcBlockCRC = t.storedBlockCRC
        ∧ t.streamCRC = s.streamCRC.rotateLeft 1 ^^^ t.calcBlockCRC)
    ∧ (t.blockCount ≠ s.blockCount → s.phase = .awaitBlock ∧ t.phase = .inBlock
        ∧ t.blockCount = s.blockCount + 1#32)
    ∧ (t.mult ≠ s.mult → s.phase = .header ∧ t.phase = .awaitBlock ∧ 1 ≤ t.mult.toNat ∧ t.mult.toNat ≤ 9)
    ∧ (t.storedStreamCRC ≠ s.storedStreamCRC → s.phase = .trailer)
    ∧ (t.storedBlockCRC ≠ s.storedBlockCRC ∨ t.randFlag ≠ s.randFlag ∨ t.origPtr ≠ s.origPtr →
        s.phase = .inBlock ∧ s.bphase = .bheader)

/-- R80, R83: every step keeps every internal memory inside its size and in canonical form: a sparse one (symMap,
selectors, codeLen, the tables with the slots of their base and limit, bwtBlock, hist, mp) has its indexes below
the size, a table's perm at most 258 ranks, and selFL and mtfFL 256 entries or, before their first block init,
none, which is how the model represents them after reset (log 7). -/
def Obligations.StepKeepsMemories : Prop :=
  ∀ s t : State, s.MemoriesWf → step s = .next t → t.MemoriesWf

/-- Every step, the core's or the environment's, keeps the whole invariant. That the histogram counts the block
after BWT_INVERT too, and that a wait flag lasts until the core's own next step, are the model's choices
(log 28, 27). -/
def Obligations.StepKeepsInv : Prop :=
  ∀ s t : State, s.Inv → step s = .next t → t.Inv

/-- R47, R83, R162, R216, R286: from a sound state no step is a model fault, and every core step has a next
state. R90: a step is refused only when its next event is a host access that the window does not take, one that
is not 32 bits wide or not aligned; that an access below CSR_BASE is refused too, and that alignment is judged
on the offset from CSR_BASE, is the model's choice (log 10). -/
def Obligations.SoundStepNeverFaults : Prop :=
  ∀ s : State, s.Inv →
    (∀ f, step s ≠ .fault f)
    ∧ (∀ r, step s = .refused r → r = .hostAccess ∧ ∃ rest addr width,
        (s.env = .read addr width :: rest ∨ ∃ value, s.env = .write addr width value :: rest)
        ∧ windowOffset addr width = none
        ∧ (addr < Config.csrBase ∨ width ≠ 4 ∨ (addr - Config.csrBase) % 4 ≠ 0))
    ∧ (s.env = [] → ∃ t, step s = .next t)

/-- The machine right after reset, and the machine right after START, are sound. -/
def Obligations.ResetIsSound : Prop :=
  State.Inv State.reset ∧ State.Inv { State.reset with phase := .header }

/-- R31, R390: from a sound state at most one wait flag is set, and a step that leaves one set has changed
nothing else. -/
def Obligations.HoldsChangeNothing : Prop :=
  ∀ s t : State, s.Inv → s.env = [] → step s = .next t →
    (t.waitSrc = true → t = { s with waitSrc := true })
    ∧ (t.waitSnk = true → t = { s with waitSnk := true })
    ∧ ¬ (t.waitSrc = true ∧ t.waitSnk = true)

/-- R421: if the source's answers end in EOF and the sink accepts every byte, every run from a sound state
that is decoding reaches DONE or ERROR after finitely many steps. -/
def Obligations.RunsTerminate : Prop :=
  ∀ s : State, s.Inv → s.env = [] → s.phase.active = true → SourceEnds s → s.snkRoom = none →
    ∃ (k : Nat) (t : State), runSteps k s = .next t ∧ (t.phase = .done ∨ t.phase = .error)
end

