-- ==== Sys2Proof/Laws/Bits.lean ====
section
/-! SUPPORT. Bit strings and numbers: what `natToBits` and `bitsToNat` say of each other. -/

namespace Sys2Proof

@[simp] theorem natToBits_length (n v : Nat) : (natToBits n v).length = n := by
  induction n with
  | zero => rfl
  | succ n ih => simp [natToBits, ih]

theorem bitsToNat_foldl (a : Nat) (bits : List Bool) :
    bits.foldl (fun a b => 2 * a + b.toNat) a = a * 2 ^ bits.length + bitsToNat bits := by
  induction bits generalizing a with
  | nil => simp [bitsToNat]
  | cons b r ih =>
    simp only [List.foldl_cons, List.length_cons, bitsToNat]
    rw [ih, ih (2 * 0 + b.toNat), pow_succ]
    ring

theorem bitsToNat_append (a b : List Bool) :
    bitsToNat (a ++ b) = bitsToNat a * 2 ^ b.length + bitsToNat b := by
  rw [bitsToNat, List.foldl_append, bitsToNat_foldl]
  rfl

@[simp] theorem bitsToNat_nil : bitsToNat [] = 0 := rfl

theorem bitsToNat_cons (b : Bool) (r : List Bool) :
    bitsToNat (b :: r) = b.toNat * 2 ^ r.length + bitsToNat r := by
  have := bitsToNat_append [b] r
  simpa [bitsToNat] using this

theorem bitsToNat_lt (bits : List Bool) : bitsToNat bits < 2 ^ bits.length := by
  induction bits with
  | nil => simp
  | cons b r ih =>
    rw [bitsToNat_cons, List.length_cons, pow_succ]
    cases b <;> simp <;> omega

theorem bitsToNat_natToBits_mod (n v : Nat) : bitsToNat (natToBits n v) = v % 2 ^ n := by
  induction n with
  | zero => simp [natToBits, Nat.mod_one]
  | succ n ih =>
    rw [natToBits, bitsToNat_cons, natToBits_length, ih, Nat.mod_pow_succ, Nat.toNat_testBit]
    ring

theorem bitsToNat_natToBits {n v : Nat} (h : v < 2 ^ n) : bitsToNat (natToBits n v) = v := by
  rw [bitsToNat_natToBits_mod, Nat.mod_eq_of_lt h]

/-- Bits above the width do not matter. -/
theorem natToBits_mod (n v : Nat) : natToBits n (v % 2 ^ n) = natToBits n v := by
  suffices h : ∀ m, n ≤ m → natToBits n (v % 2 ^ m) = natToBits n v from h n (le_refl n)
  intro m hm
  induction n with
  | zero => rfl
  | succ n ih =>
    rw [natToBits, natToBits, ih (by omega), Nat.testBit_mod_two_pow]
    simp [show n < m by omega]

/-- The high bits first, then the low ones. -/
theorem natToBits_add (a b v : Nat) :
    natToBits (a + b) v = natToBits a (v >>> b) ++ natToBits b v := by
  induction a with
  | zero => simp [natToBits]
  | succ a ih =>
    rw [show a + 1 + b = (a + b) + 1 by omega, natToBits, natToBits, ih, List.cons_append,
      Nat.testBit_shiftRight, Nat.add_comm b a]

theorem natToBits_bitsToNat (bits : List Bool) : natToBits bits.length (bitsToNat bits) = bits := by
  induction bits with
  | nil => rfl
  | cons b r ih =>
    rw [List.length_cons, natToBits, bitsToNat_cons]
    have hlt := bitsToNat_lt r
    congr 1
    · cases b
      · simp [Nat.testBit_lt_two_pow hlt]
      · simp only [Bool.toNat_true, one_mul]
        rw [Nat.testBit_two_pow_add_eq, Nat.testBit_lt_two_pow hlt]
        rfl
    · rw [← natToBits_mod]
      cases b
      · simpa [Nat.mod_eq_of_lt hlt] using ih
      · simpa [Nat.mod_eq_of_lt hlt] using ih

end Sys2Proof
end

