-- ==== Sys2Proof/Laws/State.lean ====
section
/-! SUPPORT. One lemma per field per named update of the state, each true by rfl, so that no proof unfolds a
record update. The updates: advance, raise, raiseCorrupt, countSymbol, latchByte, accepted, takeBits and
blockInit. -/

namespace Sys2Proof.Machine

/-! `advance` -/
@[simp] theorem advance_phase (sl : Slot) (s : State) : (advance sl s).phase = s.phase := rfl
@[simp] theorem advance_bphase (sl : Slot) (s : State) : (advance sl s).bphase = s.bphase := rfl
@[simp] theorem advance_slot (sl : Slot) (s : State) : (advance sl s).slot = sl := rfl
@[simp] theorem advance_latch (sl : Slot) (s : State) : (advance sl s).latch = [] := rfl
@[simp] theorem advance_bitBuf (sl : Slot) (s : State) : (advance sl s).bitBuf = s.bitBuf := rfl
@[simp] theorem advance_bitCnt (sl : Slot) (s : State) : (advance sl s).bitCnt = s.bitCnt := rfl
@[simp] theorem advance_srcClosed (sl : Slot) (s : State) : (advance sl s).srcClosed = s.srcClosed := rfl
@[simp] theorem advance_mult (sl : Slot) (s : State) : (advance sl s).mult = s.mult := rfl
@[simp] theorem advance_blockCount (sl : Slot) (s : State) : (advance sl s).blockCount = s.blockCount := rfl
@[simp] theorem advance_streamCRC (sl : Slot) (s : State) : (advance sl s).streamCRC = s.streamCRC := rfl
@[simp] theorem advance_storedStreamCRC (sl : Slot) (s : State) : (advance sl s).storedStreamCRC = s.storedStreamCRC := rfl
@[simp] theorem advance_errKind (sl : Slot) (s : State) : (advance sl s).errKind = s.errKind := rfl
@[simp] theorem advance_errDetail (sl : Slot) (s : State) : (advance sl s).errDetail = s.errDetail := rfl
@[simp] theorem advance_errBlock (sl : Slot) (s : State) : (advance sl s).errBlock = s.errBlock := rfl
@[simp] theorem advance_inCount (sl : Slot) (s : State) : (advance sl s).inCount = s.inCount := rfl
@[simp] theorem advance_outCount (sl : Slot) (s : State) : (advance sl s).outCount = s.outCount := rfl
@[simp] theorem advance_waitSrc (sl : Slot) (s : State) : (advance sl s).waitSrc = s.waitSrc := rfl
@[simp] theorem advance_waitSnk (sl : Slot) (s : State) : (advance sl s).waitSnk = s.waitSnk := rfl
@[simp] theorem advance_storedBlockCRC (sl : Slot) (s : State) : (advance sl s).storedBlockCRC = s.storedBlockCRC := rfl
@[simp] theorem advance_randFlag (sl : Slot) (s : State) : (advance sl s).randFlag = s.randFlag := rfl
@[simp] theorem advance_origPtr (sl : Slot) (s : State) : (advance sl s).origPtr = s.origPtr := rfl
@[simp] theorem advance_usedMap (sl : Slot) (s : State) : (advance sl s).usedMap = s.usedMap := rfl
@[simp] theorem advance_symMap (sl : Slot) (s : State) : (advance sl s).symMap = s.symMap := rfl
@[simp] theorem advance_numInUse (sl : Slot) (s : State) : (advance sl s).numInUse = s.numInUse := rfl
@[simp] theorem advance_eob (sl : Slot) (s : State) : (advance sl s).eob = s.eob := rfl
@[simp] theorem advance_rangeIdx (sl : Slot) (s : State) : (advance sl s).rangeIdx = s.rangeIdx := rfl
@[simp] theorem advance_numTables (sl : Slot) (s : State) : (advance sl s).numTables = s.numTables := rfl
@[simp] theorem advance_numSelectors (sl : Slot) (s : State) : (advance sl s).numSelectors = s.numSelectors := rfl
@[simp] theorem advance_selectors (sl : Slot) (s : State) : (advance sl s).selectors = s.selectors := rfl
@[simp] theorem advance_selIdx (sl : Slot) (s : State) : (advance sl s).selIdx = s.selIdx := rfl
@[simp] theorem advance_selFL (sl : Slot) (s : State) : (advance sl s).selFL = s.selFL := rfl
@[simp] theorem advance_mtfFL (sl : Slot) (s : State) : (advance sl s).mtfFL = s.mtfFL := rfl
@[simp] theorem advance_codeLen (sl : Slot) (s : State) : (advance sl s).codeLen = s.codeLen := rfl
@[simp] theorem advance_curLen (sl : Slot) (s : State) : (advance sl s).curLen = s.curLen := rfl
@[simp] theorem advance_tableIdx (sl : Slot) (s : State) : (advance sl s).tableIdx = s.tableIdx := rfl
@[simp] theorem advance_symIdx (sl : Slot) (s : State) : (advance sl s).symIdx = s.symIdx := rfl
@[simp] theorem advance_tables (sl : Slot) (s : State) : (advance sl s).tables = s.tables := rfl
@[simp] theorem advance_symCount (sl : Slot) (s : State) : (advance sl s).symCount = s.symCount := rfl
@[simp] theorem advance_curTable (sl : Slot) (s : State) : (advance sl s).curTable = s.curTable := rfl
@[simp] theorem advance_runLen (sl : Slot) (s : State) : (advance sl s).runLen = s.runLen := rfl
@[simp] theorem advance_runInc (sl : Slot) (s : State) : (advance sl s).runInc = s.runInc := rfl
@[simp] theorem advance_lastMtf (sl : Slot) (s : State) : (advance sl s).lastMtf = s.lastMtf := rfl
@[simp] theorem advance_bwtBlock (sl : Slot) (s : State) : (advance sl s).bwtBlock = s.bwtBlock := rfl
@[simp] theorem advance_bwtLen (sl : Slot) (s : State) : (advance sl s).bwtLen = s.bwtLen := rfl
@[simp] theorem advance_hist (sl : Slot) (s : State) : (advance sl s).hist = s.hist := rfl
@[simp] theorem advance_mp (sl : Slot) (s : State) : (advance sl s).mp = s.mp := rfl
@[simp] theorem advance_cursor (sl : Slot) (s : State) : (advance sl s).cursor = s.cursor := rfl
@[simp] theorem advance_bwtDone (sl : Slot) (s : State) : (advance sl s).bwtDone = s.bwtDone := rfl
@[simp] theorem advance_rNToGo (sl : Slot) (s : State) : (advance sl s).rNToGo = s.rNToGo := rfl
@[simp] theorem advance_rTPos (sl : Slot) (s : State) : (advance sl s).rTPos = s.rTPos := rfl
@[simp] theorem advance_rleLast (sl : Slot) (s : State) : (advance sl s).rleLast = s.rleLast := rfl
@[simp] theorem advance_rleAcc (sl : Slot) (s : State) : (advance sl s).rleAcc = s.rleAcc := rfl
@[simp] theorem advance_rlePending (sl : Slot) (s : State) : (advance sl s).rlePending = s.rlePending := rfl
@[simp] theorem advance_blockCRC (sl : Slot) (s : State) : (advance sl s).blockCRC = s.blockCRC := rfl
@[simp] theorem advance_calcBlockCRC (sl : Slot) (s : State) : (advance sl s).calcBlockCRC = s.calcBlockCRC := rfl
@[simp] theorem advance_srcQ (sl : Slot) (s : State) : (advance sl s).srcQ = s.srcQ := rfl
@[simp] theorem advance_snkRoom (sl : Slot) (s : State) : (advance sl s).snkRoom = s.snkRoom := rfl
@[simp] theorem advance_sunk (sl : Slot) (s : State) : (advance sl s).sunk = s.sunk := rfl
@[simp] theorem advance_env (sl : Slot) (s : State) : (advance sl s).env = s.env := rfl
@[simp] theorem advance_hostData (sl : Slot) (s : State) : (advance sl s).hostData = s.hostData := rfl

/-! `raise` -/
@[simp] theorem raise_phase (k : ErrKind) (d : BitVec 4) (s : State) : (raise k d s).phase = .error := rfl
@[simp] theorem raise_bphase (k : ErrKind) (d : BitVec 4) (s : State) : (raise k d s).bphase = s.bphase := rfl
@[simp] theorem raise_slot (k : ErrKind) (d : BitVec 4) (s : State) : (raise k d s).slot = s.slot := rfl
@[simp] theorem raise_latch (k : ErrKind) (d : BitVec 4) (s : State) : (raise k d s).latch = s.latch := rfl
@[simp] theorem raise_bitBuf (k : ErrKind) (d : BitVec 4) (s : State) : (raise k d s).bitBuf = s.bitBuf := rfl
@[simp] theorem raise_bitCnt (k : ErrKind) (d : BitVec 4) (s : State) : (raise k d s).bitCnt = s.bitCnt := rfl
@[simp] theorem raise_srcClosed (k : ErrKind) (d : BitVec 4) (s : State) : (raise k d s).srcClosed = s.srcClosed := rfl
@[simp] theorem raise_mult (k : ErrKind) (d : BitVec 4) (s : State) : (raise k d s).mult = s.mult := rfl
@[simp] theorem raise_blockCount (k : ErrKind) (d : BitVec 4) (s : State) : (raise k d s).blockCount = s.blockCount := rfl
@[simp] theorem raise_streamCRC (k : ErrKind) (d : BitVec 4) (s : State) : (raise k d s).streamCRC = s.streamCRC := rfl
@[simp] theorem raise_storedStreamCRC (k : ErrKind) (d : BitVec 4) (s : State) : (raise k d s).storedStreamCRC = s.storedStreamCRC := rfl
@[simp] theorem raise_errKind (k : ErrKind) (d : BitVec 4) (s : State) : (raise k d s).errKind = k := rfl
@[simp] theorem raise_errDetail (k : ErrKind) (d : BitVec 4) (s : State) : (raise k d s).errDetail = d := rfl
@[simp] theorem raise_errBlock (k : ErrKind) (d : BitVec 4) (s : State) : (raise k d s).errBlock = s.blockCount := rfl
@[simp] theorem raise_inCount (k : ErrKind) (d : BitVec 4) (s : State) : (raise k d s).inCount = s.inCount := rfl
@[simp] theorem raise_outCount (k : ErrKind) (d : BitVec 4) (s : State) : (raise k d s).outCount = s.outCount := rfl
@[simp] theorem raise_waitSrc (k : ErrKind) (d : BitVec 4) (s : State) : (raise k d s).waitSrc = s.waitSrc := rfl
@[simp] theorem raise_waitSnk (k : ErrKind) (d : BitVec 4) (s : State) : (raise k d s).waitSnk = s.waitSnk := rfl
@[simp] theorem raise_storedBlockCRC (k : ErrKind) (d : BitVec 4) (s : State) : (raise k d s).storedBlockCRC = s.storedBlockCRC := rfl
@[simp] theorem raise_randFlag (k : ErrKind) (d : BitVec 4) (s : State) : (raise k d s).randFlag = s.randFlag := rfl
@[simp] theorem raise_origPtr (k : ErrKind) (d : BitVec 4) (s : State) : (raise k d s).origPtr = s.origPtr := rfl
@[simp] theorem raise_usedMap (k : ErrKind) (d : BitVec 4) (s : State) : (raise k d s).usedMap = s.usedMap := rfl
@[simp] theorem raise_symMap (k : ErrKind) (d : BitVec 4) (s : State) : (raise k d s).symMap = s.symMap := rfl
@[simp] theorem raise_numInUse (k : ErrKind) (d : BitVec 4) (s : State) : (raise k d s).numInUse = s.numInUse := rfl
@[simp] theorem raise_eob (k : ErrKind) (d : BitVec 4) (s : State) : (raise k d s).eob = s.eob := rfl
@[simp] theorem raise_rangeIdx (k : ErrKind) (d : BitVec 4) (s : State) : (raise k d s).rangeIdx = s.rangeIdx := rfl
@[simp] theorem raise_numTables (k : ErrKind) (d : BitVec 4) (s : State) : (raise k d s).numTables = s.numTables := rfl
@[simp] theorem raise_numSelectors (k : ErrKind) (d : BitVec 4) (s : State) : (raise k d s).numSelectors = s.numSelectors := rfl
@[simp] theorem raise_selectors (k : ErrKind) (d : BitVec 4) (s : State) : (raise k d s).selectors = s.selectors := rfl
@[simp] theorem raise_selIdx (k : ErrKind) (d : BitVec 4) (s : State) : (raise k d s).selIdx = s.selIdx := rfl
@[simp] theorem raise_selFL (k : ErrKind) (d : BitVec 4) (s : State) : (raise k d s).selFL = s.selFL := rfl
@[simp] theorem raise_mtfFL (k : ErrKind) (d : BitVec 4) (s : State) : (raise k d s).mtfFL = s.mtfFL := rfl
@[simp] theorem raise_codeLen (k : ErrKind) (d : BitVec 4) (s : State) : (raise k d s).codeLen = s.codeLen := rfl
@[simp] theorem raise_curLen (k : ErrKind) (d : BitVec 4) (s : State) : (raise k d s).curLen = s.curLen := rfl
@[simp] theorem raise_tableIdx (k : ErrKind) (d : BitVec 4) (s : State) : (raise k d s).tableIdx = s.tableIdx := rfl
@[simp] theorem raise_symIdx (k : ErrKind) (d : BitVec 4) (s : State) : (raise k d s).symIdx = s.symIdx := rfl
@[simp] theorem raise_tables (k : ErrKind) (d : BitVec 4) (s : State) : (raise k d s).tables = s.tables := rfl
@[simp] theorem raise_symCount (k : ErrKind) (d : BitVec 4) (s : State) : (raise k d s).symCount = s.symCount := rfl
@[simp] theorem raise_curTable (k : ErrKind) (d : BitVec 4) (s : State) : (raise k d s).curTable = s.curTable := rfl
@[simp] theorem raise_runLen (k : ErrKind) (d : BitVec 4) (s : State) : (raise k d s).runLen = s.runLen := rfl
@[simp] theorem raise_runInc (k : ErrKind) (d : BitVec 4) (s : State) : (raise k d s).runInc = s.runInc := rfl
@[simp] theorem raise_lastMtf (k : ErrKind) (d : BitVec 4) (s : State) : (raise k d s).lastMtf = s.lastMtf := rfl
@[simp] theorem raise_bwtBlock (k : ErrKind) (d : BitVec 4) (s : State) : (raise k d s).bwtBlock = s.bwtBlock := rfl
@[simp] theorem raise_bwtLen (k : ErrKind) (d : BitVec 4) (s : State) : (raise k d s).bwtLen = s.bwtLen := rfl
@[simp] theorem raise_hist (k : ErrKind) (d : BitVec 4) (s : State) : (raise k d s).hist = s.hist := rfl
@[simp] theorem raise_mp (k : ErrKind) (d : BitVec 4) (s : State) : (raise k d s).mp = s.mp := rfl
@[simp] theorem raise_cursor (k : ErrKind) (d : BitVec 4) (s : State) : (raise k d s).cursor = s.cursor := rfl
@[simp] theorem raise_bwtDone (k : ErrKind) (d : BitVec 4) (s : State) : (raise k d s).bwtDone = s.bwtDone := rfl
@[simp] theorem raise_rNToGo (k : ErrKind) (d : BitVec 4) (s : State) : (raise k d s).rNToGo = s.rNToGo := rfl
@[simp] theorem raise_rTPos (k : ErrKind) (d : BitVec 4) (s : State) : (raise k d s).rTPos = s.rTPos := rfl
@[simp] theorem raise_rleLast (k : ErrKind) (d : BitVec 4) (s : State) : (raise k d s).rleLast = s.rleLast := rfl
@[simp] theorem raise_rleAcc (k : ErrKind) (d : BitVec 4) (s : State) : (raise k d s).rleAcc = s.rleAcc := rfl
@[simp] theorem raise_rlePending (k : ErrKind) (d : BitVec 4) (s : State) : (raise k d s).rlePending = s.rlePending := rfl
@[simp] theorem raise_blockCRC (k : ErrKind) (d : BitVec 4) (s : State) : (raise k d s).blockCRC = s.blockCRC := rfl
@[simp] theorem raise_calcBlockCRC (k : ErrKind) (d : BitVec 4) (s : State) : (raise k d s).calcBlockCRC = s.calcBlockCRC := rfl
@[simp] theorem raise_srcQ (k : ErrKind) (d : BitVec 4) (s : State) : (raise k d s).srcQ = s.srcQ := rfl
@[simp] theorem raise_snkRoom (k : ErrKind) (d : BitVec 4) (s : State) : (raise k d s).snkRoom = s.snkRoom := rfl
@[simp] theorem raise_sunk (k : ErrKind) (d : BitVec 4) (s : State) : (raise k d s).sunk = s.sunk := rfl
@[simp] theorem raise_env (k : ErrKind) (d : BitVec 4) (s : State) : (raise k d s).env = s.env := rfl
@[simp] theorem raise_hostData (k : ErrKind) (d : BitVec 4) (s : State) : (raise k d s).hostData = s.hostData := rfl

/-! `raiseCorrupt` -/
@[simp] theorem raiseCorrupt_phase (d : BitVec 4) (s : State) : (raiseCorrupt d s).phase = .error := rfl
@[simp] theorem raiseCorrupt_bphase (d : BitVec 4) (s : State) : (raiseCorrupt d s).bphase = s.bphase := rfl
@[simp] theorem raiseCorrupt_slot (d : BitVec 4) (s : State) : (raiseCorrupt d s).slot = s.slot := rfl
@[simp] theorem raiseCorrupt_latch (d : BitVec 4) (s : State) : (raiseCorrupt d s).latch = s.latch := rfl
@[simp] theorem raiseCorrupt_bitBuf (d : BitVec 4) (s : State) : (raiseCorrupt d s).bitBuf = s.bitBuf := rfl
@[simp] theorem raiseCorrupt_bitCnt (d : BitVec 4) (s : State) : (raiseCorrupt d s).bitCnt = s.bitCnt := rfl
@[simp] theorem raiseCorrupt_srcClosed (d : BitVec 4) (s : State) : (raiseCorrupt d s).srcClosed = s.srcClosed := rfl
@[simp] theorem raiseCorrupt_mult (d : BitVec 4) (s : State) : (raiseCorrupt d s).mult = s.mult := rfl
@[simp] theorem raiseCorrupt_blockCount (d : BitVec 4) (s : State) : (raiseCorrupt d s).blockCount = s.blockCount := rfl
@[simp] theorem raiseCorrupt_streamCRC (d : BitVec 4) (s : State) : (raiseCorrupt d s).streamCRC = s.streamCRC := rfl
@[simp] theorem raiseCorrupt_storedStreamCRC (d : BitVec 4) (s : State) : (raiseCorrupt d s).storedStreamCRC = s.storedStreamCRC := rfl
@[simp] theorem raiseCorrupt_errKind (d : BitVec 4) (s : State) : (raiseCorrupt d s).errKind = .corruptBlock := rfl
@[simp] theorem raiseCorrupt_errDetail (d : BitVec 4) (s : State) : (raiseCorrupt d s).errDetail = d := rfl
@[simp] theorem raiseCorrupt_errBlock (d : BitVec 4) (s : State) : (raiseCorrupt d s).errBlock = s.blockCount := rfl
@[simp] theorem raiseCorrupt_inCount (d : BitVec 4) (s : State) : (raiseCorrupt d s).inCount = s.inCount := rfl
@[simp] theorem raiseCorrupt_outCount (d : BitVec 4) (s : State) : (raiseCorrupt d s).outCount = s.outCount := rfl
@[simp] theorem raiseCorrupt_waitSrc (d : BitVec 4) (s : State) : (raiseCorrupt d s).waitSrc = s.waitSrc := rfl
@[simp] theorem raiseCorrupt_waitSnk (d : BitVec 4) (s : State) : (raiseCorrupt d s).waitSnk = s.waitSnk := rfl
@[simp] theorem raiseCorrupt_storedBlockCRC (d : BitVec 4) (s : State) : (raiseCorrupt d s).storedBlockCRC = s.storedBlockCRC := rfl
@[simp] theorem raiseCorrupt_randFlag (d : BitVec 4) (s : State) : (raiseCorrupt d s).randFlag = s.randFlag := rfl
@[simp] theorem raiseCorrupt_origPtr (d : BitVec 4) (s : State) : (raiseCorrupt d s).origPtr = s.origPtr := rfl
@[simp] theorem raiseCorrupt_usedMap (d : BitVec 4) (s : State) : (raiseCorrupt d s).usedMap = s.usedMap := rfl
@[simp] theorem raiseCorrupt_symMap (d : BitVec 4) (s : State) : (raiseCorrupt d s).symMap = s.symMap := rfl
@[simp] theorem raiseCorrupt_numInUse (d : BitVec 4) (s : State) : (raiseCorrupt d s).numInUse = s.numInUse := rfl
@[simp] theorem raiseCorrupt_eob (d : BitVec 4) (s : State) : (raiseCorrupt d s).eob = s.eob := rfl
@[simp] theorem raiseCorrupt_rangeIdx (d : BitVec 4) (s : State) : (raiseCorrupt d s).rangeIdx = s.rangeIdx := rfl
@[simp] theorem raiseCorrupt_numTables (d : BitVec 4) (s : State) : (raiseCorrupt d s).numTables = s.numTables := rfl
@[simp] theorem raiseCorrupt_numSelectors (d : BitVec 4) (s : State) : (raiseCorrupt d s).numSelectors = s.numSelectors := rfl
@[simp] theorem raiseCorrupt_selectors (d : BitVec 4) (s : State) : (raiseCorrupt d s).selectors = s.selectors := rfl
@[simp] theorem raiseCorrupt_selIdx (d : BitVec 4) (s : State) : (raiseCorrupt d s).selIdx = s.selIdx := rfl
@[simp] theorem raiseCorrupt_selFL (d : BitVec 4) (s : State) : (raiseCorrupt d s).selFL = s.selFL := rfl
@[simp] theorem raiseCorrupt_mtfFL (d : BitVec 4) (s : State) : (raiseCorrupt d s).mtfFL = s.mtfFL := rfl
@[simp] theorem raiseCorrupt_codeLen (d : BitVec 4) (s : State) : (raiseCorrupt d s).codeLen = s.codeLen := rfl
@[simp] theorem raiseCorrupt_curLen (d : BitVec 4) (s : State) : (raiseCorrupt d s).curLen = s.curLen := rfl
@[simp] theorem raiseCorrupt_tableIdx (d : BitVec 4) (s : State) : (raiseCorrupt d s).tableIdx = s.tableIdx := rfl
@[simp] theorem raiseCorrupt_symIdx (d : BitVec 4) (s : State) : (raiseCorrupt d s).symIdx = s.symIdx := rfl
@[simp] theorem raiseCorrupt_tables (d : BitVec 4) (s : State) : (raiseCorrupt d s).tables = s.tables := rfl
@[simp] theorem raiseCorrupt_symCount (d : BitVec 4) (s : State) : (raiseCorrupt d s).symCount = s.symCount := rfl
@[simp] theorem raiseCorrupt_curTable (d : BitVec 4) (s : State) : (raiseCorrupt d s).curTable = s.curTable := rfl
@[simp] theorem raiseCorrupt_runLen (d : BitVec 4) (s : State) : (raiseCorrupt d s).runLen = s.runLen := rfl
@[simp] theorem raiseCorrupt_runInc (d : BitVec 4) (s : State) : (raiseCorrupt d s).runInc = s.runInc := rfl
@[simp] theorem raiseCorrupt_lastMtf (d : BitVec 4) (s : State) : (raiseCorrupt d s).lastMtf = s.lastMtf := rfl
@[simp] theorem raiseCorrupt_bwtBlock (d : BitVec 4) (s : State) : (raiseCorrupt d s).bwtBlock = s.bwtBlock := rfl
@[simp] theorem raiseCorrupt_bwtLen (d : BitVec 4) (s : State) : (raiseCorrupt d s).bwtLen = s.bwtLen := rfl
@[simp] theorem raiseCorrupt_hist (d : BitVec 4) (s : State) : (raiseCorrupt d s).hist = s.hist := rfl
@[simp] theorem raiseCorrupt_mp (d : BitVec 4) (s : State) : (raiseCorrupt d s).mp = s.mp := rfl
@[simp] theorem raiseCorrupt_cursor (d : BitVec 4) (s : State) : (raiseCorrupt d s).cursor = s.cursor := rfl
@[simp] theorem raiseCorrupt_bwtDone (d : BitVec 4) (s : State) : (raiseCorrupt d s).bwtDone = s.bwtDone := rfl
@[simp] theorem raiseCorrupt_rNToGo (d : BitVec 4) (s : State) : (raiseCorrupt d s).rNToGo = s.rNToGo := rfl
@[simp] theorem raiseCorrupt_rTPos (d : BitVec 4) (s : State) : (raiseCorrupt d s).rTPos = s.rTPos := rfl
@[simp] theorem raiseCorrupt_rleLast (d : BitVec 4) (s : State) : (raiseCorrupt d s).rleLast = s.rleLast := rfl
@[simp] theorem raiseCorrupt_rleAcc (d : BitVec 4) (s : State) : (raiseCorrupt d s).rleAcc = s.rleAcc := rfl
@[simp] theorem raiseCorrupt_rlePending (d : BitVec 4) (s : State) : (raiseCorrupt d s).rlePending = s.rlePending := rfl
@[simp] theorem raiseCorrupt_blockCRC (d : BitVec 4) (s : State) : (raiseCorrupt d s).blockCRC = s.blockCRC := rfl
@[simp] theorem raiseCorrupt_calcBlockCRC (d : BitVec 4) (s : State) : (raiseCorrupt d s).calcBlockCRC = s.calcBlockCRC := rfl
@[simp] theorem raiseCorrupt_srcQ (d : BitVec 4) (s : State) : (raiseCorrupt d s).srcQ = s.srcQ := rfl
@[simp] theorem raiseCorrupt_snkRoom (d : BitVec 4) (s : State) : (raiseCorrupt d s).snkRoom = s.snkRoom := rfl
@[simp] theorem raiseCorrupt_sunk (d : BitVec 4) (s : State) : (raiseCorrupt d s).sunk = s.sunk := rfl
@[simp] theorem raiseCorrupt_env (d : BitVec 4) (s : State) : (raiseCorrupt d s).env = s.env := rfl
@[simp] theorem raiseCorrupt_hostData (d : BitVec 4) (s : State) : (raiseCorrupt d s).hostData = s.hostData := rfl

/-! `countSymbol` -/
@[simp] theorem countSymbol_phase (s : State) : (countSymbol s).phase = s.phase := rfl
@[simp] theorem countSymbol_bphase (s : State) : (countSymbol s).bphase = s.bphase := rfl
@[simp] theorem countSymbol_slot (s : State) : (countSymbol s).slot = s.slot := rfl
@[simp] theorem countSymbol_latch (s : State) : (countSymbol s).latch = s.latch := rfl
@[simp] theorem countSymbol_bitBuf (s : State) : (countSymbol s).bitBuf = s.bitBuf := rfl
@[simp] theorem countSymbol_bitCnt (s : State) : (countSymbol s).bitCnt = s.bitCnt := rfl
@[simp] theorem countSymbol_srcClosed (s : State) : (countSymbol s).srcClosed = s.srcClosed := rfl
@[simp] theorem countSymbol_mult (s : State) : (countSymbol s).mult = s.mult := rfl
@[simp] theorem countSymbol_blockCount (s : State) : (countSymbol s).blockCount = s.blockCount := rfl
@[simp] theorem countSymbol_streamCRC (s : State) : (countSymbol s).streamCRC = s.streamCRC := rfl
@[simp] theorem countSymbol_storedStreamCRC (s : State) : (countSymbol s).storedStreamCRC = s.storedStreamCRC := rfl
@[simp] theorem countSymbol_errKind (s : State) : (countSymbol s).errKind = s.errKind := rfl
@[simp] theorem countSymbol_errDetail (s : State) : (countSymbol s).errDetail = s.errDetail := rfl
@[simp] theorem countSymbol_errBlock (s : State) : (countSymbol s).errBlock = s.errBlock := rfl
@[simp] theorem countSymbol_inCount (s : State) : (countSymbol s).inCount = s.inCount := rfl
@[simp] theorem countSymbol_outCount (s : State) : (countSymbol s).outCount = s.outCount := rfl
@[simp] theorem countSymbol_waitSrc (s : State) : (countSymbol s).waitSrc = s.waitSrc := rfl
@[simp] theorem countSymbol_waitSnk (s : State) : (countSymbol s).waitSnk = s.waitSnk := rfl
@[simp] theorem countSymbol_storedBlockCRC (s : State) : (countSymbol s).storedBlockCRC = s.storedBlockCRC := rfl
@[simp] theorem countSymbol_randFlag (s : State) : (countSymbol s).randFlag = s.randFlag := rfl
@[simp] theorem countSymbol_origPtr (s : State) : (countSymbol s).origPtr = s.origPtr := rfl
@[simp] theorem countSymbol_usedMap (s : State) : (countSymbol s).usedMap = s.usedMap := rfl
@[simp] theorem countSymbol_symMap (s : State) : (countSymbol s).symMap = s.symMap := rfl
@[simp] theorem countSymbol_numInUse (s : State) : (countSymbol s).numInUse = s.numInUse := rfl
@[simp] theorem countSymbol_eob (s : State) : (countSymbol s).eob = s.eob := rfl
@[simp] theorem countSymbol_rangeIdx (s : State) : (countSymbol s).rangeIdx = s.rangeIdx := rfl
@[simp] theorem countSymbol_numTables (s : State) : (countSymbol s).numTables = s.numTables := rfl
@[simp] theorem countSymbol_numSelectors (s : State) : (countSymbol s).numSelectors = s.numSelectors := rfl
@[simp] theorem countSymbol_selectors (s : State) : (countSymbol s).selectors = s.selectors := rfl
@[simp] theorem countSymbol_selIdx (s : State) : (countSymbol s).selIdx = s.selIdx := rfl
@[simp] theorem countSymbol_selFL (s : State) : (countSymbol s).selFL = s.selFL := rfl
@[simp] theorem countSymbol_mtfFL (s : State) : (countSymbol s).mtfFL = s.mtfFL := rfl
@[simp] theorem countSymbol_codeLen (s : State) : (countSymbol s).codeLen = s.codeLen := rfl
@[simp] theorem countSymbol_curLen (s : State) : (countSymbol s).curLen = s.curLen := rfl
@[simp] theorem countSymbol_tableIdx (s : State) : (countSymbol s).tableIdx = s.tableIdx := rfl
@[simp] theorem countSymbol_symIdx (s : State) : (countSymbol s).symIdx = s.symIdx := rfl
@[simp] theorem countSymbol_tables (s : State) : (countSymbol s).tables = s.tables := rfl
@[simp] theorem countSymbol_symCount (s : State) : (countSymbol s).symCount = s.symCount + 1 := rfl
@[simp] theorem countSymbol_curTable (s : State) : (countSymbol s).curTable = s.curTable := rfl
@[simp] theorem countSymbol_runLen (s : State) : (countSymbol s).runLen = s.runLen := rfl
@[simp] theorem countSymbol_runInc (s : State) : (countSymbol s).runInc = s.runInc := rfl
@[simp] theorem countSymbol_lastMtf (s : State) : (countSymbol s).lastMtf = s.lastMtf := rfl
@[simp] theorem countSymbol_bwtBlock (s : State) : (countSymbol s).bwtBlock = s.bwtBlock := rfl
@[simp] theorem countSymbol_bwtLen (s : State) : (countSymbol s).bwtLen = s.bwtLen := rfl
@[simp] theorem countSymbol_hist (s : State) : (countSymbol s).hist = s.hist := rfl
@[simp] theorem countSymbol_mp (s : State) : (countSymbol s).mp = s.mp := rfl
@[simp] theorem countSymbol_cursor (s : State) : (countSymbol s).cursor = s.cursor := rfl
@[simp] theorem countSymbol_bwtDone (s : State) : (countSymbol s).bwtDone = s.bwtDone := rfl
@[simp] theorem countSymbol_rNToGo (s : State) : (countSymbol s).rNToGo = s.rNToGo := rfl
@[simp] theorem countSymbol_rTPos (s : State) : (countSymbol s).rTPos = s.rTPos := rfl
@[simp] theorem countSymbol_rleLast (s : State) : (countSymbol s).rleLast = s.rleLast := rfl
@[simp] theorem countSymbol_rleAcc (s : State) : (countSymbol s).rleAcc = s.rleAcc := rfl
@[simp] theorem countSymbol_rlePending (s : State) : (countSymbol s).rlePending = s.rlePending := rfl
@[simp] theorem countSymbol_blockCRC (s : State) : (countSymbol s).blockCRC = s.blockCRC := rfl
@[simp] theorem countSymbol_calcBlockCRC (s : State) : (countSymbol s).calcBlockCRC = s.calcBlockCRC := rfl
@[simp] theorem countSymbol_srcQ (s : State) : (countSymbol s).srcQ = s.srcQ := rfl
@[simp] theorem countSymbol_snkRoom (s : State) : (countSymbol s).snkRoom = s.snkRoom := rfl
@[simp] theorem countSymbol_sunk (s : State) : (countSymbol s).sunk = s.sunk := rfl
@[simp] theorem countSymbol_env (s : State) : (countSymbol s).env = s.env := rfl
@[simp] theorem countSymbol_hostData (s : State) : (countSymbol s).hostData = s.hostData := rfl

/-! `latchByte` -/
@[simp] theorem latchByte_phase (sl : Slot) (b : Byte) (s : State) : (latchByte sl b s).phase = s.phase := rfl
@[simp] theorem latchByte_bphase (sl : Slot) (b : Byte) (s : State) : (latchByte sl b s).bphase = s.bphase := rfl
@[simp] theorem latchByte_slot (sl : Slot) (b : Byte) (s : State) : (latchByte sl b s).slot = sl := rfl
@[simp] theorem latchByte_latch (sl : Slot) (b : Byte) (s : State) : (latchByte sl b s).latch = byteBits b := rfl
@[simp] theorem latchByte_bitBuf (sl : Slot) (b : Byte) (s : State) : (latchByte sl b s).bitBuf = s.bitBuf := rfl
@[simp] theorem latchByte_bitCnt (sl : Slot) (b : Byte) (s : State) : (latchByte sl b s).bitCnt = s.bitCnt := rfl
@[simp] theorem latchByte_srcClosed (sl : Slot) (b : Byte) (s : State) : (latchByte sl b s).srcClosed = s.srcClosed := rfl
@[simp] theorem latchByte_mult (sl : Slot) (b : Byte) (s : State) : (latchByte sl b s).mult = s.mult := rfl
@[simp] theorem latchByte_blockCount (sl : Slot) (b : Byte) (s : State) : (latchByte sl b s).blockCount = s.blockCount := rfl
@[simp] theorem latchByte_streamCRC (sl : Slot) (b : Byte) (s : State) : (latchByte sl b s).streamCRC = s.streamCRC := rfl
@[simp] theorem latchByte_storedStreamCRC (sl : Slot) (b : Byte) (s : State) : (latchByte sl b s).storedStreamCRC = s.storedStreamCRC := rfl
@[simp] theorem latchByte_errKind (sl : Slot) (b : Byte) (s : State) : (latchByte sl b s).errKind = s.errKind := rfl
@[simp] theorem latchByte_errDetail (sl : Slot) (b : Byte) (s : State) : (latchByte sl b s).errDetail = s.errDetail := rfl
@[simp] theorem latchByte_errBlock (sl : Slot) (b : Byte) (s : State) : (latchByte sl b s).errBlock = s.errBlock := rfl
@[simp] theorem latchByte_inCount (sl : Slot) (b : Byte) (s : State) : (latchByte sl b s).inCount = s.inCount := rfl
@[simp] theorem latchByte_outCount (sl : Slot) (b : Byte) (s : State) : (latchByte sl b s).outCount = s.outCount := rfl
@[simp] theorem latchByte_waitSrc (sl : Slot) (b : Byte) (s : State) : (latchByte sl b s).waitSrc = s.waitSrc := rfl
@[simp] theorem latchByte_waitSnk (sl : Slot) (b : Byte) (s : State) : (latchByte sl b s).waitSnk = s.waitSnk := rfl
@[simp] theorem latchByte_storedBlockCRC (sl : Slot) (b : Byte) (s : State) : (latchByte sl b s).storedBlockCRC = s.storedBlockCRC := rfl
@[simp] theorem latchByte_randFlag (sl : Slot) (b : Byte) (s : State) : (latchByte sl b s).randFlag = s.randFlag := rfl
@[simp] theorem latchByte_origPtr (sl : Slot) (b : Byte) (s : State) : (latchByte sl b s).origPtr = s.origPtr := rfl
@[simp] theorem latchByte_usedMap (sl : Slot) (b : Byte) (s : State) : (latchByte sl b s).usedMap = s.usedMap := rfl
@[simp] theorem latchByte_symMap (sl : Slot) (b : Byte) (s : State) : (latchByte sl b s).symMap = s.symMap := rfl
@[simp] theorem latchByte_numInUse (sl : Slot) (b : Byte) (s : State) : (latchByte sl b s).numInUse = s.numInUse := rfl
@[simp] theorem latchByte_eob (sl : Slot) (b : Byte) (s : State) : (latchByte sl b s).eob = s.eob := rfl
@[simp] theorem latchByte_rangeIdx (sl : Slot) (b : Byte) (s : State) : (latchByte sl b s).rangeIdx = s.rangeIdx := rfl
@[simp] theorem latchByte_numTables (sl : Slot) (b : Byte) (s : State) : (latchByte sl b s).numTables = s.numTables := rfl
@[simp] theorem latchByte_numSelectors (sl : Slot) (b : Byte) (s : State) : (latchByte sl b s).numSelectors = s.numSelectors := rfl
@[simp] theorem latchByte_selectors (sl : Slot) (b : Byte) (s : State) : (latchByte sl b s).selectors = s.selectors := rfl
@[simp] theorem latchByte_selIdx (sl : Slot) (b : Byte) (s : State) : (latchByte sl b s).selIdx = s.selIdx := rfl
@[simp] theorem latchByte_selFL (sl : Slot) (b : Byte) (s : State) : (latchByte sl b s).selFL = s.selFL := rfl
@[simp] theorem latchByte_mtfFL (sl : Slot) (b : Byte) (s : State) : (latchByte sl b s).mtfFL = s.mtfFL := rfl
@[simp] theorem latchByte_codeLen (sl : Slot) (b : Byte) (s : State) : (latchByte sl b s).codeLen = s.codeLen := rfl
@[simp] theorem latchByte_curLen (sl : Slot) (b : Byte) (s : State) : (latchByte sl b s).curLen = s.curLen := rfl
@[simp] theorem latchByte_tableIdx (sl : Slot) (b : Byte) (s : State) : (latchByte sl b s).tableIdx = s.tableIdx := rfl
@[simp] theorem latchByte_symIdx (sl : Slot) (b : Byte) (s : State) : (latchByte sl b s).symIdx = s.symIdx := rfl
@[simp] theorem latchByte_tables (sl : Slot) (b : Byte) (s : State) : (latchByte sl b s).tables = s.tables := rfl
@[simp] theorem latchByte_symCount (sl : Slot) (b : Byte) (s : State) : (latchByte sl b s).symCount = s.symCount := rfl
@[simp] theorem latchByte_curTable (sl : Slot) (b : Byte) (s : State) : (latchByte sl b s).curTable = s.curTable := rfl
@[simp] theorem latchByte_runLen (sl : Slot) (b : Byte) (s : State) : (latchByte sl b s).runLen = s.runLen := rfl
@[simp] theorem latchByte_runInc (sl : Slot) (b : Byte) (s : State) : (latchByte sl b s).runInc = s.runInc := rfl
@[simp] theorem latchByte_lastMtf (sl : Slot) (b : Byte) (s : State) : (latchByte sl b s).lastMtf = s.lastMtf := rfl
@[simp] theorem latchByte_bwtBlock (sl : Slot) (b : Byte) (s : State) : (latchByte sl b s).bwtBlock = s.bwtBlock := rfl
@[simp] theorem latchByte_bwtLen (sl : Slot) (b : Byte) (s : State) : (latchByte sl b s).bwtLen = s.bwtLen := rfl
@[simp] theorem latchByte_hist (sl : Slot) (b : Byte) (s : State) : (latchByte sl b s).hist = s.hist := rfl
@[simp] theorem latchByte_mp (sl : Slot) (b : Byte) (s : State) : (latchByte sl b s).mp = s.mp := rfl
@[simp] theorem latchByte_cursor (sl : Slot) (b : Byte) (s : State) : (latchByte sl b s).cursor = s.cursor := rfl
@[simp] theorem latchByte_bwtDone (sl : Slot) (b : Byte) (s : State) : (latchByte sl b s).bwtDone = s.bwtDone := rfl
@[simp] theorem latchByte_rNToGo (sl : Slot) (b : Byte) (s : State) : (latchByte sl b s).rNToGo = s.rNToGo := rfl
@[simp] theorem latchByte_rTPos (sl : Slot) (b : Byte) (s : State) : (latchByte sl b s).rTPos = s.rTPos := rfl
@[simp] theorem latchByte_rleLast (sl : Slot) (b : Byte) (s : State) : (latchByte sl b s).rleLast = s.rleLast := rfl
@[simp] theorem latchByte_rleAcc (sl : Slot) (b : Byte) (s : State) : (latchByte sl b s).rleAcc = s.rleAcc := rfl
@[simp] theorem latchByte_rlePending (sl : Slot) (b : Byte) (s : State) : (latchByte sl b s).rlePending = s.rlePending := rfl
@[simp] theorem latchByte_blockCRC (sl : Slot) (b : Byte) (s : State) : (latchByte sl b s).blockCRC = s.blockCRC := rfl
@[simp] theorem latchByte_calcBlockCRC (sl : Slot) (b : Byte) (s : State) : (latchByte sl b s).calcBlockCRC = s.calcBlockCRC := rfl
@[simp] theorem latchByte_srcQ (sl : Slot) (b : Byte) (s : State) : (latchByte sl b s).srcQ = s.srcQ := rfl
@[simp] theorem latchByte_snkRoom (sl : Slot) (b : Byte) (s : State) : (latchByte sl b s).snkRoom = s.snkRoom := rfl
@[simp] theorem latchByte_sunk (sl : Slot) (b : Byte) (s : State) : (latchByte sl b s).sunk = s.sunk := rfl
@[simp] theorem latchByte_env (sl : Slot) (b : Byte) (s : State) : (latchByte sl b s).env = s.env := rfl
@[simp] theorem latchByte_hostData (sl : Slot) (b : Byte) (s : State) : (latchByte sl b s).hostData = s.hostData := rfl

/-! `accepted` -/
@[simp] theorem accepted_phase (b : Byte) (s : State) : (accepted b s).phase = s.phase := rfl
@[simp] theorem accepted_bphase (b : Byte) (s : State) : (accepted b s).bphase = s.bphase := rfl
@[simp] theorem accepted_slot (b : Byte) (s : State) : (accepted b s).slot = s.slot := rfl
@[simp] theorem accepted_latch (b : Byte) (s : State) : (accepted b s).latch = s.latch := rfl
@[simp] theorem accepted_bitBuf (b : Byte) (s : State) : (accepted b s).bitBuf = s.bitBuf := rfl
@[simp] theorem accepted_bitCnt (b : Byte) (s : State) : (accepted b s).bitCnt = s.bitCnt := rfl
@[simp] theorem accepted_srcClosed (b : Byte) (s : State) : (accepted b s).srcClosed = s.srcClosed := rfl
@[simp] theorem accepted_mult (b : Byte) (s : State) : (accepted b s).mult = s.mult := rfl
@[simp] theorem accepted_blockCount (b : Byte) (s : State) : (accepted b s).blockCount = s.blockCount := rfl
@[simp] theorem accepted_streamCRC (b : Byte) (s : State) : (accepted b s).streamCRC = s.streamCRC := rfl
@[simp] theorem accepted_storedStreamCRC (b : Byte) (s : State) : (accepted b s).storedStreamCRC = s.storedStreamCRC := rfl
@[simp] theorem accepted_errKind (b : Byte) (s : State) : (accepted b s).errKind = s.errKind := rfl
@[simp] theorem accepted_errDetail (b : Byte) (s : State) : (accepted b s).errDetail = s.errDetail := rfl
@[simp] theorem accepted_errBlock (b : Byte) (s : State) : (accepted b s).errBlock = s.errBlock := rfl
@[simp] theorem accepted_inCount (b : Byte) (s : State) : (accepted b s).inCount = s.inCount := rfl
@[simp] theorem accepted_outCount (b : Byte) (s : State) : (accepted b s).outCount = s.outCount + 1#32 := rfl
@[simp] theorem accepted_waitSrc (b : Byte) (s : State) : (accepted b s).waitSrc = s.waitSrc := rfl
@[simp] theorem accepted_waitSnk (b : Byte) (s : State) : (accepted b s).waitSnk = false := rfl
@[simp] theorem accepted_storedBlockCRC (b : Byte) (s : State) : (accepted b s).storedBlockCRC = s.storedBlockCRC := rfl
@[simp] theorem accepted_randFlag (b : Byte) (s : State) : (accepted b s).randFlag = s.randFlag := rfl
@[simp] theorem accepted_origPtr (b : Byte) (s : State) : (accepted b s).origPtr = s.origPtr := rfl
@[simp] theorem accepted_usedMap (b : Byte) (s : State) : (accepted b s).usedMap = s.usedMap := rfl
@[simp] theorem accepted_symMap (b : Byte) (s : State) : (accepted b s).symMap = s.symMap := rfl
@[simp] theorem accepted_numInUse (b : Byte) (s : State) : (accepted b s).numInUse = s.numInUse := rfl
@[simp] theorem accepted_eob (b : Byte) (s : State) : (accepted b s).eob = s.eob := rfl
@[simp] theorem accepted_rangeIdx (b : Byte) (s : State) : (accepted b s).rangeIdx = s.rangeIdx := rfl
@[simp] theorem accepted_numTables (b : Byte) (s : State) : (accepted b s).numTables = s.numTables := rfl
@[simp] theorem accepted_numSelectors (b : Byte) (s : State) : (accepted b s).numSelectors = s.numSelectors := rfl
@[simp] theorem accepted_selectors (b : Byte) (s : State) : (accepted b s).selectors = s.selectors := rfl
@[simp] theorem accepted_selIdx (b : Byte) (s : State) : (accepted b s).selIdx = s.selIdx := rfl
@[simp] theorem accepted_selFL (b : Byte) (s : State) : (accepted b s).selFL = s.selFL := rfl
@[simp] theorem accepted_mtfFL (b : Byte) (s : State) : (accepted b s).mtfFL = s.mtfFL := rfl
@[simp] theorem accepted_codeLen (b : Byte) (s : State) : (accepted b s).codeLen = s.codeLen := rfl
@[simp] theorem accepted_curLen (b : Byte) (s : State) : (accepted b s).curLen = s.curLen := rfl
@[simp] theorem accepted_tableIdx (b : Byte) (s : State) : (accepted b s).tableIdx = s.tableIdx := rfl
@[simp] theorem accepted_symIdx (b : Byte) (s : State) : (accepted b s).symIdx = s.symIdx := rfl
@[simp] theorem accepted_tables (b : Byte) (s : State) : (accepted b s).tables = s.tables := rfl
@[simp] theorem accepted_symCount (b : Byte) (s : State) : (accepted b s).symCount = s.symCount := rfl
@[simp] theorem accepted_curTable (b : Byte) (s : State) : (accepted b s).curTable = s.curTable := rfl
@[simp] theorem accepted_runLen (b : Byte) (s : State) : (accepted b s).runLen = s.runLen := rfl
@[simp] theorem accepted_runInc (b : Byte) (s : State) : (accepted b s).runInc = s.runInc := rfl
@[simp] theorem accepted_lastMtf (b : Byte) (s : State) : (accepted b s).lastMtf = s.lastMtf := rfl
@[simp] theorem accepted_bwtBlock (b : Byte) (s : State) : (accepted b s).bwtBlock = s.bwtBlock := rfl
@[simp] theorem accepted_bwtLen (b : Byte) (s : State) : (accepted b s).bwtLen = s.bwtLen := rfl
@[simp] theorem accepted_hist (b : Byte) (s : State) : (accepted b s).hist = s.hist := rfl
@[simp] theorem accepted_mp (b : Byte) (s : State) : (accepted b s).mp = s.mp := rfl
@[simp] theorem accepted_cursor (b : Byte) (s : State) : (accepted b s).cursor = s.cursor := rfl
@[simp] theorem accepted_bwtDone (b : Byte) (s : State) : (accepted b s).bwtDone = s.bwtDone := rfl
@[simp] theorem accepted_rNToGo (b : Byte) (s : State) : (accepted b s).rNToGo = s.rNToGo := rfl
@[simp] theorem accepted_rTPos (b : Byte) (s : State) : (accepted b s).rTPos = s.rTPos := rfl
@[simp] theorem accepted_rleLast (b : Byte) (s : State) : (accepted b s).rleLast = s.rleLast := rfl
@[simp] theorem accepted_rleAcc (b : Byte) (s : State) : (accepted b s).rleAcc = s.rleAcc := rfl
@[simp] theorem accepted_rlePending (b : Byte) (s : State) : (accepted b s).rlePending = s.rlePending := rfl
@[simp] theorem accepted_blockCRC (b : Byte) (s : State) : (accepted b s).blockCRC = crcUpdate s.blockCRC b := rfl
@[simp] theorem accepted_calcBlockCRC (b : Byte) (s : State) : (accepted b s).calcBlockCRC = s.calcBlockCRC := rfl
@[simp] theorem accepted_srcQ (b : Byte) (s : State) : (accepted b s).srcQ = s.srcQ := rfl
@[simp] theorem accepted_snkRoom (b : Byte) (s : State) : (accepted b s).snkRoom = s.snkRoom.map (fun n => n - 1) := rfl
@[simp] theorem accepted_sunk (b : Byte) (s : State) : (accepted b s).sunk = s.sunk ++ [b] := rfl
@[simp] theorem accepted_env (b : Byte) (s : State) : (accepted b s).env = s.env := rfl
@[simp] theorem accepted_hostData (b : Byte) (s : State) : (accepted b s).hostData = s.hostData := rfl

/-! `takeBits` -/
@[simp] theorem takeBits_phase (n : Nat) (s : State) : (takeBits n s).phase = s.phase := rfl
@[simp] theorem takeBits_bphase (n : Nat) (s : State) : (takeBits n s).bphase = s.bphase := rfl
@[simp] theorem takeBits_slot (n : Nat) (s : State) : (takeBits n s).slot = s.slot := rfl
@[simp] theorem takeBits_latch (n : Nat) (s : State) : (takeBits n s).latch = s.latch ++ natToBits n (fieldValue n s) := rfl
@[simp] theorem takeBits_bitBuf (n : Nat) (s : State) : (takeBits n s).bitBuf = s.bitBuf := rfl
@[simp] theorem takeBits_bitCnt (n : Nat) (s : State) : (takeBits n s).bitCnt = s.bitCnt - n := rfl
@[simp] theorem takeBits_srcClosed (n : Nat) (s : State) : (takeBits n s).srcClosed = s.srcClosed := rfl
@[simp] theorem takeBits_mult (n : Nat) (s : State) : (takeBits n s).mult = s.mult := rfl
@[simp] theorem takeBits_blockCount (n : Nat) (s : State) : (takeBits n s).blockCount = s.blockCount := rfl
@[simp] theorem takeBits_streamCRC (n : Nat) (s : State) : (takeBits n s).streamCRC = s.streamCRC := rfl
@[simp] theorem takeBits_storedStreamCRC (n : Nat) (s : State) : (takeBits n s).storedStreamCRC = s.storedStreamCRC := rfl
@[simp] theorem takeBits_errKind (n : Nat) (s : State) : (takeBits n s).errKind = s.errKind := rfl
@[simp] theorem takeBits_errDetail (n : Nat) (s : State) : (takeBits n s).errDetail = s.errDetail := rfl
@[simp] theorem takeBits_errBlock (n : Nat) (s : State) : (takeBits n s).errBlock = s.errBlock := rfl
@[simp] theorem takeBits_inCount (n : Nat) (s : State) : (takeBits n s).inCount = s.inCount := rfl
@[simp] theorem takeBits_outCount (n : Nat) (s : State) : (takeBits n s).outCount = s.outCount := rfl
@[simp] theorem takeBits_waitSrc (n : Nat) (s : State) : (takeBits n s).waitSrc = s.waitSrc := rfl
@[simp] theorem takeBits_waitSnk (n : Nat) (s : State) : (takeBits n s).waitSnk = s.waitSnk := rfl
@[simp] theorem takeBits_storedBlockCRC (n : Nat) (s : State) : (takeBits n s).storedBlockCRC = s.storedBlockCRC := rfl
@[simp] theorem takeBits_randFlag (n : Nat) (s : State) : (takeBits n s).randFlag = s.randFlag := rfl
@[simp] theorem takeBits_origPtr (n : Nat) (s : State) : (takeBits n s).origPtr = s.origPtr := rfl
@[simp] theorem takeBits_usedMap (n : Nat) (s : State) : (takeBits n s).usedMap = s.usedMap := rfl
@[simp] theorem takeBits_symMap (n : Nat) (s : State) : (takeBits n s).symMap = s.symMap := rfl
@[simp] theorem takeBits_numInUse (n : Nat) (s : State) : (takeBits n s).numInUse = s.numInUse := rfl
@[simp] theorem takeBits_eob (n : Nat) (s : State) : (takeBits n s).eob = s.eob := rfl
@[simp] theorem takeBits_rangeIdx (n : Nat) (s : State) : (takeBits n s).rangeIdx = s.rangeIdx := rfl
@[simp] theorem takeBits_numTables (n : Nat) (s : State) : (takeBits n s).numTables = s.numTables := rfl
@[simp] theorem takeBits_numSelectors (n : Nat) (s : State) : (takeBits n s).numSelectors = s.numSelectors := rfl
@[simp] theorem takeBits_selectors (n : Nat) (s : State) : (takeBits n s).selectors = s.selectors := rfl
@[simp] theorem takeBits_selIdx (n : Nat) (s : State) : (takeBits n s).selIdx = s.selIdx := rfl
@[simp] theorem takeBits_selFL (n : Nat) (s : State) : (takeBits n s).selFL = s.selFL := rfl
@[simp] theorem takeBits_mtfFL (n : Nat) (s : State) : (takeBits n s).mtfFL = s.mtfFL := rfl
@[simp] theorem takeBits_codeLen (n : Nat) (s : State) : (takeBits n s).codeLen = s.codeLen := rfl
@[simp] theorem takeBits_curLen (n : Nat) (s : State) : (takeBits n s).curLen = s.curLen := rfl
@[simp] theorem takeBits_tableIdx (n : Nat) (s : State) : (takeBits n s).tableIdx = s.tableIdx := rfl
@[simp] theorem takeBits_symIdx (n : Nat) (s : State) : (takeBits n s).symIdx = s.symIdx := rfl
@[simp] theorem takeBits_tables (n : Nat) (s : State) : (takeBits n s).tables = s.tables := rfl
@[simp] theorem takeBits_symCount (n : Nat) (s : State) : (takeBits n s).symCount = s.symCount := rfl
@[simp] theorem takeBits_curTable (n : Nat) (s : State) : (takeBits n s).curTable = s.curTable := rfl
@[simp] theorem takeBits_runLen (n : Nat) (s : State) : (takeBits n s).runLen = s.runLen := rfl
@[simp] theorem takeBits_runInc (n : Nat) (s : State) : (takeBits n s).runInc = s.runInc := rfl
@[simp] theorem takeBits_lastMtf (n : Nat) (s : State) : (takeBits n s).lastMtf = s.lastMtf := rfl
@[simp] theorem takeBits_bwtBlock (n : Nat) (s : State) : (takeBits n s).bwtBlock = s.bwtBlock := rfl
@[simp] theorem takeBits_bwtLen (n : Nat) (s : State) : (takeBits n s).bwtLen = s.bwtLen := rfl
@[simp] theorem takeBits_hist (n : Nat) (s : State) : (takeBits n s).hist = s.hist := rfl
@[simp] theorem takeBits_mp (n : Nat) (s : State) : (takeBits n s).mp = s.mp := rfl
@[simp] theorem takeBits_cursor (n : Nat) (s : State) : (takeBits n s).cursor = s.cursor := rfl
@[simp] theorem takeBits_bwtDone (n : Nat) (s : State) : (takeBits n s).bwtDone = s.bwtDone := rfl
@[simp] theorem takeBits_rNToGo (n : Nat) (s : State) : (takeBits n s).rNToGo = s.rNToGo := rfl
@[simp] theorem takeBits_rTPos (n : Nat) (s : State) : (takeBits n s).rTPos = s.rTPos := rfl
@[simp] theorem takeBits_rleLast (n : Nat) (s : State) : (takeBits n s).rleLast = s.rleLast := rfl
@[simp] theorem takeBits_rleAcc (n : Nat) (s : State) : (takeBits n s).rleAcc = s.rleAcc := rfl
@[simp] theorem takeBits_rlePending (n : Nat) (s : State) : (takeBits n s).rlePending = s.rlePending := rfl
@[simp] theorem takeBits_blockCRC (n : Nat) (s : State) : (takeBits n s).blockCRC = s.blockCRC := rfl
@[simp] theorem takeBits_calcBlockCRC (n : Nat) (s : State) : (takeBits n s).calcBlockCRC = s.calcBlockCRC := rfl
@[simp] theorem takeBits_srcQ (n : Nat) (s : State) : (takeBits n s).srcQ = s.srcQ := rfl
@[simp] theorem takeBits_snkRoom (n : Nat) (s : State) : (takeBits n s).snkRoom = s.snkRoom := rfl
@[simp] theorem takeBits_sunk (n : Nat) (s : State) : (takeBits n s).sunk = s.sunk := rfl
@[simp] theorem takeBits_env (n : Nat) (s : State) : (takeBits n s).env = s.env := rfl
@[simp] theorem takeBits_hostData (n : Nat) (s : State) : (takeBits n s).hostData = s.hostData := rfl

/-! `blockInit` -/
@[simp] theorem blockInit_phase (s : State) : (blockInit s).phase = s.phase := rfl
@[simp] theorem blockInit_bphase (s : State) : (blockInit s).bphase = .bheader := rfl
@[simp] theorem blockInit_slot (s : State) : (blockInit s).slot = s.slot := rfl
@[simp] theorem blockInit_latch (s : State) : (blockInit s).latch = s.latch := rfl
@[simp] theorem blockInit_bitBuf (s : State) : (blockInit s).bitBuf = s.bitBuf := rfl
@[simp] theorem blockInit_bitCnt (s : State) : (blockInit s).bitCnt = s.bitCnt := rfl
@[simp] theorem blockInit_srcClosed (s : State) : (blockInit s).srcClosed = s.srcClosed := rfl
@[simp] theorem blockInit_mult (s : State) : (blockInit s).mult = s.mult := rfl
@[simp] theorem blockInit_blockCount (s : State) : (blockInit s).blockCount = s.blockCount := rfl
@[simp] theorem blockInit_streamCRC (s : State) : (blockInit s).streamCRC = s.streamCRC := rfl
@[simp] theorem blockInit_storedStreamCRC (s : State) : (blockInit s).storedStreamCRC = s.storedStreamCRC := rfl
@[simp] theorem blockInit_errKind (s : State) : (blockInit s).errKind = s.errKind := rfl
@[simp] theorem blockInit_errDetail (s : State) : (blockInit s).errDetail = s.errDetail := rfl
@[simp] theorem blockInit_errBlock (s : State) : (blockInit s).errBlock = s.errBlock := rfl
@[simp] theorem blockInit_inCount (s : State) : (blockInit s).inCount = s.inCount := rfl
@[simp] theorem blockInit_outCount (s : State) : (blockInit s).outCount = s.outCount := rfl
@[simp] theorem blockInit_waitSrc (s : State) : (blockInit s).waitSrc = s.waitSrc := rfl
@[simp] theorem blockInit_waitSnk (s : State) : (blockInit s).waitSnk = s.waitSnk := rfl
@[simp] theorem blockInit_storedBlockCRC (s : State) : (blockInit s).storedBlockCRC = s.storedBlockCRC := rfl
@[simp] theorem blockInit_randFlag (s : State) : (blockInit s).randFlag = s.randFlag := rfl
@[simp] theorem blockInit_origPtr (s : State) : (blockInit s).origPtr = s.origPtr := rfl
@[simp] theorem blockInit_usedMap (s : State) : (blockInit s).usedMap = s.usedMap := rfl
@[simp] theorem blockInit_symMap (s : State) : (blockInit s).symMap = s.symMap := rfl
@[simp] theorem blockInit_numInUse (s : State) : (blockInit s).numInUse = s.numInUse := rfl
@[simp] theorem blockInit_eob (s : State) : (blockInit s).eob = s.eob := rfl
@[simp] theorem blockInit_rangeIdx (s : State) : (blockInit s).rangeIdx = s.rangeIdx := rfl
@[simp] theorem blockInit_numTables (s : State) : (blockInit s).numTables = s.numTables := rfl
@[simp] theorem blockInit_numSelectors (s : State) : (blockInit s).numSelectors = s.numSelectors := rfl
@[simp] theorem blockInit_selectors (s : State) : (blockInit s).selectors = s.selectors := rfl
@[simp] theorem blockInit_selIdx (s : State) : (blockInit s).selIdx = s.selIdx := rfl
@[simp] theorem blockInit_selFL (s : State) : (blockInit s).selFL = identityList := rfl
@[simp] theorem blockInit_mtfFL (s : State) : (blockInit s).mtfFL = identityList := rfl
@[simp] theorem blockInit_codeLen (s : State) : (blockInit s).codeLen = s.codeLen := rfl
@[simp] theorem blockInit_curLen (s : State) : (blockInit s).curLen = s.curLen := rfl
@[simp] theorem blockInit_tableIdx (s : State) : (blockInit s).tableIdx = s.tableIdx := rfl
@[simp] theorem blockInit_symIdx (s : State) : (blockInit s).symIdx = s.symIdx := rfl
@[simp] theorem blockInit_tables (s : State) : (blockInit s).tables = s.tables := rfl
@[simp] theorem blockInit_symCount (s : State) : (blockInit s).symCount = 0 := rfl
@[simp] theorem blockInit_curTable (s : State) : (blockInit s).curTable = s.curTable := rfl
@[simp] theorem blockInit_runLen (s : State) : (blockInit s).runLen = 0 := rfl
@[simp] theorem blockInit_runInc (s : State) : (blockInit s).runInc = 1 := rfl
@[simp] theorem blockInit_lastMtf (s : State) : (blockInit s).lastMtf = 0#8 := rfl
@[simp] theorem blockInit_bwtBlock (s : State) : (blockInit s).bwtBlock = s.bwtBlock := rfl
@[simp] theorem blockInit_bwtLen (s : State) : (blockInit s).bwtLen = 0 := rfl
@[simp] theorem blockInit_hist (s : State) : (blockInit s).hist = [] := rfl
@[simp] theorem blockInit_mp (s : State) : (blockInit s).mp = s.mp := rfl
@[simp] theorem blockInit_cursor (s : State) : (blockInit s).cursor = s.cursor := rfl
@[simp] theorem blockInit_bwtDone (s : State) : (blockInit s).bwtDone = 0 := rfl
@[simp] theorem blockInit_rNToGo (s : State) : (blockInit s).rNToGo = 0 := rfl
@[simp] theorem blockInit_rTPos (s : State) : (blockInit s).rTPos = 0 := rfl
@[simp] theorem blockInit_rleLast (s : State) : (blockInit s).rleLast = none := rfl
@[simp] theorem blockInit_rleAcc (s : State) : (blockInit s).rleAcc = 0 := rfl
@[simp] theorem blockInit_rlePending (s : State) : (blockInit s).rlePending = 0 := rfl
@[simp] theorem blockInit_blockCRC (s : State) : (blockInit s).blockCRC = Config.crcInit := rfl
@[simp] theorem blockInit_calcBlockCRC (s : State) : (blockInit s).calcBlockCRC = s.calcBlockCRC := rfl
@[simp] theorem blockInit_srcQ (s : State) : (blockInit s).srcQ = s.srcQ := rfl
@[simp] theorem blockInit_snkRoom (s : State) : (blockInit s).snkRoom = s.snkRoom := rfl
@[simp] theorem blockInit_sunk (s : State) : (blockInit s).sunk = s.sunk := rfl
@[simp] theorem blockInit_env (s : State) : (blockInit s).env = s.env := rfl
@[simp] theorem blockInit_hostData (s : State) : (blockInit s).hostData = s.hostData := rfl

end Sys2Proof.Machine
end

