-- ==== Sys2Proof/Laws/Cursor.lean ====
section
/-! SUPPORT. The BitCursor in terms of the stream's bits (spec/40_bitcursor.md R162, R165): a byte shifted in
appends its bits, and a field taken is the first bits of the accumulator's valid ones. -/

namespace Sys2Proof.Machine

/-- A modulus at least as wide as the bits taken does not matter. -/
theorem natToBits_mod_le {n m : Nat} (v : Nat) (h : n ≤ m) : natToBits n (v % 2 ^ m) = natToBits n v := by
  rw [← natToBits_mod n (v % 2 ^ m), ← natToBits_mod n v, Nat.mod_mod_of_dvd _ (pow_dvd_pow 2 h)]

/-- Shifting a byte in is arithmetic mod 2^32. -/
theorem shifted_in (buf : Word) (b : Byte) :
    (buf <<< 8) ||| BitVec.setWidth 32 b = BitVec.ofNat 32 (buf.toNat * 256 + b.toNat) := by
  apply BitVec.eq_of_toNat_eq
  rw [BitVec.toNat_or, BitVec.toNat_shiftLeft, BitVec.toNat_setWidth, BitVec.toNat_ofNat]
  have hb := b.isLt
  rw [Nat.mod_eq_of_lt (show b.toNat < 2 ^ 32 by omega), Nat.shiftLeft_eq]
  have : buf.toNat * 2 ^ 8 % 2 ^ 32 = 2 ^ 8 * (buf.toNat % 2 ^ 24) := by omega
  rw [this, ← Nat.two_pow_add_eq_or_of_lt (by omega)]
  omega

/-- A byte shifted in appends its eight bits to the valid ones. -/
theorem bits_shifted_in {c : Nat} (buf : Word) (b : Byte) (h : c ≤ 24) :
    natToBits (c + 8) ((buf <<< 8) ||| BitVec.setWidth 32 b).toNat
      = natToBits c buf.toNat ++ natToBits 8 b.toNat := by
  rw [shifted_in, BitVec.toNat_ofNat, natToBits_mod_le _ (by omega), natToBits_add,
    Nat.shiftRight_eq_div_pow]
  have hb := b.isLt
  congr 1
  · congr 1; omega
  · rw [← natToBits_mod 8 (buf.toNat * 256 + b.toNat), ← natToBits_mod 8 b.toNat]; congr 1; omega

/-- The value of the next field, as arithmetic. -/
theorem fieldValue_eq {n : Nat} (s : State) (hn : n < 32) :
    fieldValue n s = (s.bitBuf.toNat >>> (s.bitCnt - n)) % 2 ^ n := by
  unfold fieldValue
  rw [BitVec.toNat_and, BitVec.toNat_ushiftRight, BitVec.toNat_sub, BitVec.toNat_shiftLeft]
  have h2 : 2 ^ n < 2 ^ 32 := Nat.pow_lt_pow_right (by omega) hn
  have h1 : 1 ≤ 2 ^ n := Nat.one_le_two_pow
  have : (2 ^ 32 - (1#32).toNat + (1#32).toNat <<< n % 2 ^ 32) % 2 ^ 32 = 2 ^ n - 1 := by
    have e1 : (1#32).toNat = 1 := rfl
    rw [e1, Nat.shiftLeft_eq, one_mul, Nat.mod_eq_of_lt h2]
    omega
  rw [this, Nat.and_two_pow_sub_one_eq_mod]

/-- The valid bits are the next field's bits, then the rest. -/
theorem take_split {n : Nat} (s : State) (hn : n ≤ 24) (h : n ≤ s.bitCnt) :
    natToBits s.bitCnt s.bitBuf.toNat
      = natToBits n (fieldValue n s) ++ natToBits (s.bitCnt - n) s.bitBuf.toNat := by
  rw [fieldValue_eq s (by omega), natToBits_mod]
  conv_lhs => rw [show s.bitCnt = n + (s.bitCnt - n) by omega, natToBits_add]

/-- What a fill does to the stream when the source has a byte (R165): nothing is lost or added. -/
theorem fill_streamBits {s : State} {b : Byte} {q : List SrcAnswer} (h : s.srcClosed = false)
    (hq : s.srcQ = .byte b :: q) (hc : s.bitCnt ≤ 24) : streamBits (fill s) = streamBits s := by
  simp only [fill, h, hq, streamBits, sourceBits]
  rw [← List.append_assoc, ← bits_shifted_in _ _ hc]
  rfl

/-- Taking a field moves bits from the stream into the latch (R162). -/
theorem takeBits_streamBits {n : Nat} (s : State) (hn : n ≤ 24) (h : n ≤ s.bitCnt) :
    (takeBits n s).latch ++ streamBits (takeBits n s) = s.latch ++ streamBits s := by
  simp only [takeBits, streamBits]
  rw [take_split s hn h]
  simp

end Sys2Proof.Machine
end

