-- ==== Sys2Proof/Laws/Memory.lean ====
section
/-! SUPPORT. The laws of the internal memories (spec/20_memory.md R83): a read after a write, the canonical
form kept by every operation, and what each access answers. -/

namespace Sys2Proof

variable {α : Type}

theorem Memory.lookup_insert_self (m : Memory α) (i : Nat) (v : α) :
    Memory.lookup (Memory.insert m i v) i = some v := by
  induction m with
  | nil => simp [Memory.insert, Memory.lookup]
  | cons p r ih =>
    obtain ⟨k, w⟩ := p
    unfold Memory.insert
    split
    · simp [Memory.lookup]
    · split
      · simp [Memory.lookup]
      · rename_i h1 h2
        have : ¬ k = i := fun h => h2 h.symm
        simp [Memory.lookup, this, ih]

theorem Memory.lookup_insert_ne (m : Memory α) {i j : Nat} (v : α) (h : j ≠ i) :
    Memory.lookup (Memory.insert m i v) j = Memory.lookup m j := by
  have hij : ¬ i = j := fun e => h e.symm
  induction m with
  | nil => simp [Memory.insert, Memory.lookup, hij]
  | cons p r ih =>
    obtain ⟨k, w⟩ := p
    unfold Memory.insert
    split
    · simp [Memory.lookup, hij]
    · split
      · rename_i h1 h2
        subst h2
        simp [Memory.lookup, hij]
      · simp [Memory.lookup, ih]

theorem Memory.lookup_insert (m : Memory α) (i j : Nat) (v : α) :
    Memory.lookup (Memory.insert m i v) j = if j = i then some v else Memory.lookup m j := by
  split
  · next h => subst h; exact Memory.lookup_insert_self m j v
  · next h => exact Memory.lookup_insert_ne m v h

theorem Memory.wfFrom_mono {lo lo' : Nat} {m : Memory α} (h : lo' ≤ lo)
    (hw : Memory.wfFrom lo m = true) : Memory.wfFrom lo' m = true := by
  cases m with
  | nil => rfl
  | cons p r =>
    obtain ⟨k, w⟩ := p
    simp only [Memory.wfFrom, Bool.and_eq_true, decide_eq_true_eq] at hw ⊢
    exact ⟨by omega, hw.2⟩

theorem Memory.wfFrom_insert {lo : Nat} {m : Memory α} {i : Nat} (v : α) (hi : lo ≤ i)
    (hw : Memory.wfFrom lo m = true) : Memory.wfFrom lo (Memory.insert m i v) = true := by
  induction m generalizing lo with
  | nil => simp [Memory.insert, Memory.wfFrom, hi]
  | cons p r ih =>
    obtain ⟨k, w⟩ := p
    simp only [Memory.wfFrom, Bool.and_eq_true, decide_eq_true_eq] at hw
    unfold Memory.insert
    split
    · simp only [Memory.wfFrom, Bool.and_eq_true, decide_eq_true_eq]
      exact ⟨hi, by omega, hw.2⟩
    · split
      · next h =>
        subst h
        simp only [Memory.wfFrom, Bool.and_eq_true, decide_eq_true_eq]
        exact hw
      · simp only [Memory.wfFrom, Bool.and_eq_true, decide_eq_true_eq]
        exact ⟨hw.1, ih (by omega) hw.2⟩

/-- A write keeps the canonical form. -/
theorem Memory.wf_insert {m : Memory α} (i : Nat) (v : α) (hw : Memory.wf m = true) :
    Memory.wf (Memory.insert m i v) = true :=
  Memory.wfFrom_insert v (Nat.zero_le i) hw

theorem Memory.within_insert {n : Nat} {m : Memory α} {i : Nat} (v : α) (hi : i < n)
    (hw : Memory.within n m = true) : Memory.within n (Memory.insert m i v) = true := by
  induction m with
  | nil => simp [Memory.insert, Memory.within, hi]
  | cons p r ih =>
    obtain ⟨k, w⟩ := p
    simp only [Memory.within, List.all_cons, Bool.and_eq_true, decide_eq_true_eq] at hw ih ⊢
    unfold Memory.insert
    split
    · simp only [List.all_cons, Bool.and_eq_true, decide_eq_true_eq]
      exact ⟨hi, hw⟩
    · split
      · simp only [List.all_cons, Bool.and_eq_true, decide_eq_true_eq]
        exact ⟨hi, hw.2⟩
      · simp only [List.all_cons, Bool.and_eq_true, decide_eq_true_eq]
        exact ⟨hw.1, ih hw.2⟩

theorem Memory.noZero_insert {m : Memory Nat} {i v : Nat} (hv : v ≠ 0)
    (hw : Memory.noZero m = true) : Memory.noZero (Memory.insert m i v) = true := by
  induction m with
  | nil => simp [Memory.insert, Memory.noZero, hv]
  | cons p r ih =>
    obtain ⟨k, w⟩ := p
    simp only [Memory.noZero, List.all_cons, Bool.and_eq_true, decide_eq_true_eq] at hw ih ⊢
    unfold Memory.insert
    split
    · simp only [List.all_cons, Bool.and_eq_true, decide_eq_true_eq]
      exact ⟨hv, hw⟩
    · split
      · simp only [List.all_cons, Bool.and_eq_true, decide_eq_true_eq]
        exact ⟨hv, hw.2⟩
      · simp only [List.all_cons, Bool.and_eq_true, decide_eq_true_eq]
        exact ⟨hw.1, ih hw.2⟩

/-- A property of all listed elements is kept by a write of an element that has it. -/
theorem Memory.all_insert {p : Nat × α → Bool} {m : Memory α} {i : Nat} {v : α} (hm : m.all p = true)
    (hv : p (i, v) = true) : (Memory.insert m i v).all p = true := by
  induction m with
  | nil => simp [Memory.insert, hv]
  | cons q r ih =>
    obtain ⟨k, w⟩ := q
    simp only [List.all_cons, Bool.and_eq_true] at hm ih
    unfold Memory.insert
    split
    · simp only [List.all_cons, Bool.and_eq_true]; exact ⟨hv, hm.1, hm.2⟩
    · split
      · simp only [List.all_cons, Bool.and_eq_true]; exact ⟨hv, hm.2⟩
      · simp only [List.all_cons, Bool.and_eq_true]; exact ⟨hm.1, ih hm.2⟩

/-- What is read is listed. -/
theorem Memory.mem_of_lookup {m : Memory α} {i : Nat} {v : α} (h : Memory.lookup m i = some v) :
    (i, v) ∈ m := by
  induction m with
  | nil => cases h
  | cons q r ih =>
    obtain ⟨k, w⟩ := q
    simp only [Memory.lookup] at h
    split at h
    · next hk => cases h; subst hk; exact List.mem_cons_self ..
    · exact List.mem_cons_of_mem _ (ih h)

namespace Machine

/-! ## What an access answers -/

theorem memRead_eq_ok {nm : MemName} {m : Memory α} {valid i : Nat} {v : α} :
    memRead nm m valid i = .ok v ↔
      i < Config.memSize nm ∧ i < valid ∧ Memory.lookup m i = some v := by
  unfold memRead
  split
  · simp; omega
  · split
    · simp; omega
    · split <;> simp_all

theorem memWrite_eq_ok {nm : MemName} {m m' : Memory α} {i : Nat} {v : α} :
    memWrite nm m i v = .ok m' ↔ i < Config.memSize nm ∧ m' = Memory.insert m i v := by
  unfold memWrite
  split
  · simp; omega
  · simp [eq_comm]; omega

theorem attempt_eq_next {r : Except Fault α} {k : α → Result} {t : State} :
    attempt r k = .next t ↔ ∃ a, r = .ok a ∧ k a = .next t := by
  cases r <;> simp [attempt]

@[simp] theorem attempt_ok (a : α) (k : α → Result) : attempt (.ok a) k = k a := rfl
@[simp] theorem attempt_error (f : Fault) (k : α → Result) : attempt (.error f) k = .fault f := rfl

/-! ## The histogram -/

theorem histAt_histAdd_self (h : Memory Nat) (v n : Nat) :
    histAt (histAdd h v n) v = histAt h v + n := by
  unfold histAdd
  split
  · omega
  · simp [histAt, Memory.lookup_insert_self]

theorem histAt_histAdd_ne (h : Memory Nat) {v u : Nat} (n : Nat) (huv : u ≠ v) :
    histAt (histAdd h v n) u = histAt h u := by
  unfold histAdd
  split
  · rfl
  · simp [histAt, Memory.lookup_insert_ne _ _ huv]

@[simp] theorem histRead_byte (h : Memory Nat) (v : Byte) : histRead h v.toNat = .ok (histAt h v.toNat) := by
  unfold histRead
  rw [if_neg (by have := v.isLt; simp [Config.memSize]; omega)]

@[simp] theorem histCount_byte (h : Memory Nat) (v : Byte) (n : Nat) :
    histCount h v.toNat n = .ok (histAdd h v.toNat n) := by
  unfold histCount
  rw [if_neg (by have := v.isLt; simp [Config.memSize]; omega)]

theorem histAdd_wf {h : Memory Nat} (v n : Nat) (hw : Memory.wf h = true) :
    Memory.wf (histAdd h v n) = true := by
  unfold histAdd
  split
  · exact hw
  · exact Memory.wf_insert v _ hw

theorem histAdd_within {h : Memory Nat} {v : Nat} (n : Nat) (hv : v < 256)
    (hw : Memory.within 256 h = true) : Memory.within 256 (histAdd h v n) = true := by
  unfold histAdd
  split
  · exact hw
  · exact Memory.within_insert _ hv hw

theorem histAdd_noZero {h : Memory Nat} (v n : Nat) (hw : Memory.noZero h = true) :
    Memory.noZero (histAdd h v n) = true := by
  unfold histAdd
  split
  · exact hw
  · next hz => exact Memory.noZero_insert hz hw

end Machine

end Sys2Proof
end

