-- ==== Sys2Proof/Laws/Step.lean ====
section
/-! SUPPORT. Everything one core step can do, said once: which element the decoder can hand to exec at which
slot (`Runs`), and the moves of `coreStep` (`CoreMove`). Every invariant's proof starts from these. -/

namespace Sys2Proof.Machine

/-- The element `i` can be run in state `s`: the slot reads it, and its operands are what the decoder can
give. -/
inductive Runs (s : State) : Instr → Prop
  | hdrMagic (h : s.slot = .hdrMagic) : Runs s .hdrMagic
  | hdrH (h : s.slot = .hdrH) : Runs s .hdrH
  | hdrLevel (d : Byte) (h : s.slot = .hdrLevel) : Runs s (.hdrLevel d)
  | markBlock (h : s.slot = .marker) : Runs s .markBlock
  | markEnd (h : s.slot = .marker) : Runs s .markEnd
  | streamCrc (crc : Word) (h : s.slot = .streamCrc) : Runs s (.streamCrc crc)
  | blkCrc (crc : Word) (h : s.slot = .blkCrc) : Runs s (.blkCrc crc)
  | blkRand (r : Bool) (h : s.slot = .blkRand) : Runs s (.blkRand r)
  | blkOrigPtr (p : BitVec 24) (h : s.slot = .blkOrigPtr) : Runs s (.blkOrigPtr p)
  | mapUsed (m : BitVec 16) (h : s.slot = .mapUsed) : Runs s (.mapUsed m)
  | mapPresent (p : BitVec 16) (h : s.slot = .mapPresent) : Runs s (.mapPresent p)
  | nGroups (n : BitVec 3) (h : s.slot = .nGroups) : Runs s (.nGroups n)
  | nSelectors (k : BitVec 15) (h : s.slot = .nSelectors) : Runs s (.nSelectors k)
  | selMtf (j : Nat) (h : s.slot = .selMtf) (hj : j = 0 ∨ j < s.numTables) : Runs s (.selMtf j)
  | clStart (l : BitVec 5) (h : s.slot = .clStart) : Runs s (.clStart l)
  | clDone (h : s.slot = .cld) : Runs s .clDone
  | clInc (h : s.slot = .cld) : Runs s .clInc
  | clDec (h : s.slot = .cld) : Runs s .clDec
  | symbol (tb : HuffTable) (sym : Nat) (h : s.slot = .symbol) (ht : tableAt s s.curTable = .ok tb)
      (hs : sym ∈ tb.perm) : Runs s (symbolInstr s.eob sym)
  | rle4Lit (b : Byte) (h : s.slot = .rle) (hv : BitVec.ofNat 8 (bitsToNat s.latch) = b)
      (hb : s.rleLast ≠ some b) : Runs s (.rle4Lit b)
  | rle4Rep (b : Byte) (h : s.slot = .rle) (hv : BitVec.ofNat 8 (bitsToNat s.latch) = b)
      (hb : s.rleLast = some b) (ha : s.rleAcc < 3) : Runs s (.rle4Rep b)
  | rle4Run (b : Byte) (h : s.slot = .rle) (hv : BitVec.ofNat 8 (bitsToNat s.latch) = b)
      (hb : s.rleLast = some b) (ha : ¬ s.rleAcc < 3) : Runs s (.rle4Run b)
  | rle4Count (c : Byte) (h : s.slot = .rleCount) : Runs s (.rle4Count c)

theorem fixed_eq_instr {n chunk : Nat} {k : Nat → Decoded} {bits : List Bool} {i : Instr}
    (h : fixed n chunk k bits = .instr i) : n ≤ bits.length ∧ k (bitsToNat bits) = .instr i := by
  unfold fixed at h
  split at h
  · cases h
  · exact ⟨by omega, h⟩

theorem decodeUnary_eq_instr {nt j : Nat} {bits : List Bool} {i : Instr}
    (h : decodeUnary nt j bits = .instr i) : ∃ k, i = .selMtf k ∧ (k = j ∨ k < nt) := by
  induction bits generalizing j with
  | nil => cases h
  | cons b r ih =>
    cases b with
    | false =>
      simp only [decodeUnary, Decoded.instr.injEq] at h
      exact ⟨j, h.symm, .inl rfl⟩
    | true =>
      unfold decodeUnary at h
      split at h
      · cases h
      · obtain ⟨k, hk, hlt⟩ := ih h
        exact ⟨k, hk, .inr (by omega)⟩

theorem decodeCld_eq_instr {bits : List Bool} {i : Instr} (h : decodeCld bits = .instr i) :
    i = .clDone ∨ i = .clInc ∨ i = .clDec := by
  unfold decodeCld at h
  split at h <;> simp_all

theorem permAt_eq_ok {tb : HuffTable} {r : Int} {sym : Nat} :
    permAt tb r = .ok sym ↔ 0 ≤ r ∧ tb.perm[r.toNat]? = some sym := by
  unfold permAt
  split
  · simp; omega
  · split <;> simp_all

theorem slotAt_eq_ok {nm : MemName} {m : Memory Int} {L : Nat} {v : Int} :
    slotAt nm m L = .ok v ↔ L < Config.memSize nm ∧ Memory.lookup m L = some v := by
  unfold slotAt
  split
  · simp; omega
  · split <;> simp_all

theorem decodeSymbol_eq_instr {tb : HuffTable} {eob : Nat} {bits : List Bool} {i : Instr}
    (h : decodeSymbol tb eob bits = .instr i) : ∃ sym, sym ∈ tb.perm ∧ i = symbolInstr eob sym := by
  unfold decodeSymbol at h
  split at h
  · cases h
  · split at h
    · cases h
    · split at h
      · split at h
        · cases h
        · split at h
          · cases h
          · next sym hp =>
            simp only [Decoded.instr.injEq] at h
            exact ⟨sym, List.mem_of_getElem? (permAt_eq_ok.mp hp).2, h.symm⟩
      · split at h <;> cases h

/-- What the decoder hands to exec, by slot. -/
theorem runs_of_decode {s : State} {c : Ctx} {i : Instr} (hc : ctxOf s = .ok (some c))
    (hd : decodeBits c s.latch = .instr i) : Runs s i := by
  unfold ctxOf at hc
  split at hc <;> rename_i hs
  case h_16 =>
    split at hc
    · cases hc
    · next tb ht =>
      simp only [Except.ok.injEq, Option.some.injEq] at hc
      subst hc
      obtain ⟨sym, hm, rfl⟩ := decodeSymbol_eq_instr hd
      exact .symbol tb sym hs ht hm
  case h_19 => cases hc
  case h_20 => cases hc
  all_goals
    simp only [Except.ok.injEq, Option.some.injEq] at hc
    subst hc
    simp only [decodeBits] at hd
  case h_13 =>
    obtain ⟨k, rfl, hk⟩ := decodeUnary_eq_instr hd
    exact .selMtf k hs hk
  case h_15 =>
    rcases decodeCld_eq_instr hd with rfl | rfl | rfl
    · exact .clDone hs
    · exact .clInc hs
    · exact .clDec hs
  all_goals
    replace hd := (fixed_eq_instr hd).2
  case h_1 =>
    split at hd
    · cases hd; exact .hdrMagic hs
    · cases hd
  case h_2 =>
    split at hd
    · cases hd; exact .hdrH hs
    · cases hd
  case h_4 =>
    split at hd
    · cases hd; exact .markBlock hs
    · split at hd
      · cases hd; exact .markEnd hs
      · cases hd
  case h_17 =>
    simp only [Decoded.instr.injEq] at hd
    subst hd
    unfold rleClass
    split
    · next h => exact .rle4Lit _ hs rfl h
    · next h =>
      have hb : s.rleLast = some (BitVec.ofNat 8 (bitsToNat s.latch)) := by simpa using h
      split
      · next ha => exact .rle4Rep _ hs rfl hb ha
      · next ha => exact .rle4Run _ hs rfl hb ha
  all_goals
    cases hd
    constructor
    exact hs

/-- The error kinds an illegal element can raise, by slot (spec/30_encoding.md R125). -/
def RejectsAt (k : ErrKind) (sl : Slot) : Prop :=
  (k = .invalidHeader ∧ (sl = .hdrMagic ∨ sl = .hdrH)) ∨ (k = .streamFormatError ∧ sl = .marker)
    ∨ (k = .corruptBlock ∧ (sl = .selMtf ∨ sl = .symbol))

theorem fixed_eq_reject {n chunk : Nat} {k : Nat → Decoded} {bits : List Bool} {why : Reject}
    (h : fixed n chunk k bits = .reject why) : k (bitsToNat bits) = .reject why := by
  unfold fixed at h
  split at h
  · cases h
  · exact h

/-- A decode table without the element asked for: a model fault. -/
def Reject.NoElement (why : Reject) : Prop := ∃ m, why = .noValue m ∨ why = .outOfRange m

theorem slotAt_eq_error {nm : MemName} {m : Memory Int} {L : Nat} {why : Reject}
    (h : slotAt nm m L = .error why) : Reject.NoElement why := by
  unfold slotAt at h
  split at h
  · cases h; exact ⟨_, .inr rfl⟩
  · split at h
    · cases h; exact ⟨_, .inl rfl⟩
    · cases h

theorem permAt_eq_error {tb : HuffTable} {r : Int} {why : Reject}
    (h : permAt tb r = .error why) : Reject.NoElement why := by
  unfold permAt at h
  split at h
  · cases h; exact ⟨_, .inr rfl⟩
  · split at h
    · cases h; exact ⟨_, .inl rfl⟩
    · cases h

theorem decodeSymbol_eq_reject {tb : HuffTable} {eob : Nat} {bits : List Bool} {why : Reject}
    (h : decodeSymbol tb eob bits = .reject why) : why = .badCode ∨ Reject.NoElement why := by
  unfold decodeSymbol at h
  split at h
  · cases h
  · split at h
    · next he => cases h; exact .inr (slotAt_eq_error he)
    · split at h
      · split at h
        · next he => cases h; exact .inr (slotAt_eq_error he)
        · split at h
          · next he => cases h; exact .inr (permAt_eq_error he)
          · cases h
      · split at h
        · cases h; exact .inl rfl
        · cases h

/-- Which slot an illegal element is read at. -/
theorem slot_of_reject {s : State} {c : Ctx} {why : Reject} (hc : ctxOf s = .ok (some c))
    (hd : decodeBits c s.latch = .reject why) :
    (why = .magic ∧ s.slot = .hdrMagic) ∨ (why = .h ∧ s.slot = .hdrH)
      ∨ (why = .marker ∧ s.slot = .marker) ∨ (why = .selMtf ∧ s.slot = .selMtf)
      ∨ (s.slot = .symbol ∧ (why = .badCode ∨ Reject.NoElement why)) := by
  unfold ctxOf at hc
  split at hc <;> rename_i hs
  case h_16 =>
    split at hc
    · cases hc
    · next tb ht =>
      simp only [Except.ok.injEq, Option.some.injEq] at hc
      subst hc
      exact .inr (.inr (.inr (.inr ⟨hs, decodeSymbol_eq_reject hd⟩)))
  all_goals
    simp only [Except.ok.injEq, Option.some.injEq, reduceCtorEq] at hc
    try subst hc
    try simp only [decodeBits] at hd
  case h_1 =>
    replace hd := fixed_eq_reject hd
    split at hd
    · cases hd
    · cases hd; exact .inl ⟨rfl, hs⟩
  case h_2 =>
    replace hd := fixed_eq_reject hd
    split at hd
    · cases hd
    · cases hd; exact .inr (.inl ⟨rfl, hs⟩)
  case h_4 =>
    replace hd := fixed_eq_reject hd
    split at hd
    · cases hd
    · split at hd
      · cases hd
      · cases hd; exact .inr (.inr (.inl ⟨rfl, hs⟩))
  case h_13 =>
    refine .inr (.inr (.inr (.inl ⟨?_, hs⟩)))
    have : ∀ j bits, decodeUnary s.numTables j bits = .reject why → why = .selMtf := by
      intro j bits
      induction bits generalizing j with
      | nil => intro h; cases h
      | cons b r ih =>
        cases b with
        | false => intro h; cases h
        | true =>
          intro h
          unfold decodeUnary at h
          split at h
          · cases h; rfl
          · exact ih _ h
    exact this 0 s.latch hd
  case h_15 => unfold decodeCld at hd; split at hd <;> cases hd
  all_goals
    replace hd := fixed_eq_reject hd
    cases hd

/-- The moves of the core's step. -/
inductive CoreMove (s : State) : State → Prop
  | quiet (h : s.phase.active = false) : CoreMove s s
  | fill (n : Nat) (ha : s.phase.active = true) (hr : s.slot ≠ .rle ∧ s.slot ≠ .rleCount)
      (hp : pendingRead s = n) (hn : n ≤ 24) (hc : s.bitCnt < n) : CoreMove s (fill s)
  | take (n : Nat) (c : Ctx) (ha : s.phase.active = true) (hr : s.slot ≠ .rle ∧ s.slot ≠ .rleCount)
      (hp : pendingRead s = n) (hn : n ≤ 24) (hc : n ≤ s.bitCnt) (hx : ctxOf s = .ok (some c))
      (hd : decodeBits c s.latch = .more n) : CoreMove s (takeBits n s)
  | walk (t : State) (ha : s.phase.active = true) (hs : s.slot = .rle) (hl : s.latch.length < 8)
      (hx : walkStep s = .next t) : CoreMove s t
  | count (t : State) (ha : s.phase.active = true) (hs : s.slot = .rleCount)
      (hx : fetchCount s = .next t) : CoreMove s t
  | select (t : State) (ha : s.phase.active = true) (hs : s.slot = .select)
      (hx : selectStep s = .next t) : CoreMove s t
  | invert (t : State) (ha : s.phase.active = true) (hs : s.slot = .invert)
      (hx : invertStep s = .next t) : CoreMove s t
  | reject (k : ErrKind) (d : BitVec 4) (ha : s.phase.active = true) (hk : k ≠ .none)
      (hd : errorCodeLegal k d = true) (hp : pendingRead s = 0) (hs : RejectsAt k s.slot) :
      CoreMove s (raise k d s)
  | run (i : Instr) (t : State) (ha : s.phase.active = true) (hr : Runs s i) (hp : pendingRead s = 0)
      (hl : s.slot = .rle → 8 ≤ s.latch.length) (hx : exec i s = .next t) : CoreMove s t

theorem readStep_eq_next {n : Nat} {s t : State} (h : readStep n s = .next t) :
    n ≤ 24 ∧ ((s.bitCnt < n ∧ t = fill s) ∨ (n ≤ s.bitCnt ∧ t = takeBits n s)) := by
  unfold readStep at h
  split at h
  · cases h
  · next hn =>
    have hn' : n ≤ 24 := by simpa [Config.maxRead] using hn
    split at h
    · next hc => cases h; exact ⟨hn', .inl ⟨hc, rfl⟩⟩
    · next hc => cases h; exact ⟨hn', .inr ⟨by omega, rfl⟩⟩

/-- What a core step does when it answers a next state. -/
theorem coreStep_move {s t : State} (h : coreStep s = .next t) : CoreMove s t := by
  unfold coreStep at h
  split at h
  · next ha =>
    obtain ⟨c?, hc, h⟩ := attempt_eq_next.mp h
    cases c? with
    | none =>
      simp only at h
      unfold stageStep at h
      split at h
      · next hs => exact .select t ha hs h
      · next hs =>
        have : s.slot = .invert := by
          unfold ctxOf at hc
          split at hc <;> first | (cases hc; done) | skip
          · split at hc <;> cases hc
          · next h' => exact absurd h' hs
          · assumption
        exact .invert t ha this h
    | some c =>
      simp only [elementStep] at h
      split at h
      · next n hd =>
        unfold fetchMore at h
        split at h
        · next hs =>
          refine .walk t ha hs ?_ h
          have : c = .rle s.rleLast s.rleAcc := by
            unfold ctxOf at hc
            rw [hs] at hc
            simpa using hc.symm
          subst this
          simp only [decodeBits, fixed] at hd
          split at hd
          · assumption
          · cases hd
        · next hs => exact .count t ha hs h
        · next h1 h2 =>
          obtain ⟨hn, hcase⟩ := readStep_eq_next h
          have hp : pendingRead s = n := by
            unfold pendingRead
            split
            · contradiction
            · contradiction
            · simp [hc, hd]
          rcases hcase with ⟨hlt, rfl⟩ | ⟨hle, rfl⟩
          · exact .fill n ha ⟨h1, h2⟩ hp hn hlt
          · exact .take n c ha ⟨h1, h2⟩ hp hn hle hc hd
      · next i hd =>
        have hp : pendingRead s = 0 := by
          unfold pendingRead
          split
          · rfl
          · rfl
          · simp [hc, hd]
        refine .run i t ha (runs_of_decode hc hd) hp (fun hs => ?_) h
        have : c = .rle s.rleLast s.rleAcc := by
          unfold ctxOf at hc
          rw [hs] at hc
          simpa using hc.symm
        subst this
        simp only [decodeBits] at hd
        exact (fixed_eq_instr hd).1
      · next why hd =>
        have hp : pendingRead s = 0 := by
          unfold pendingRead
          split
          · rfl
          · rfl
          · simp [hc, hd]
        have hw := slot_of_reject hc hd
        cases why <;> simp only [rejectElement, Host.Outcome.next.injEq, reduceCtorEq] at h
        all_goals
          subst h
          refine .reject _ _ ha (by decide) (by decide) hp ?_
          unfold RejectsAt
          simp only [reduceCtorEq, false_and, true_and, false_or, or_false, Reject.NoElement, exists_false,
            and_false] at hw ⊢
          tauto
  · next ha =>
    cases h
    exact .quiet (by simpa using ha)

end Sys2Proof.Machine
end

