-- ==== Sys2Proof/Laws/Exec.lean ====
section
/-! SUPPORT. Everything one element, one walk step and one internal stage can do, said once: the next states
of exec at the slot that reads the element (`ElementMove`), of the walk (`WalkMove`) and of the stages
(`StageMove`), each with the facts its path has checked. -/

namespace Sys2Proof.Machine

/-! ## Shared operations -/

theorem promoteByIndex_eq_ok {nm : MemName} {fl fl' : List Byte} {i : Nat} {v : Byte} :
    promoteByIndex nm fl i = .ok (v, fl') ↔
      i < Config.memSize nm ∧ fl[i]? = some v ∧ fl' = v :: (fl.take i ++ fl.drop (i + 1)) := by
  unfold promoteByIndex
  split
  · simp; omega
  · split
    · simp_all
    · rename_i v' hv
      rw [hv]
      constructor
      · intro h; cases h; exact ⟨by omega, rfl, rfl⟩
      · rintro ⟨-, h1, h2⟩; cases h1; rw [h2]

/-- The copies of a run stand from `i` on, and nothing else of the memory changes. -/
theorem writeRun_eq_ok {v : Byte} {n i : Nat} {m m' : Memory Byte} (h : writeRun v n i m = .ok m') :
    (n = 0 ∨ i + n ≤ Config.maxBlock)
      ∧ (∀ k, Memory.lookup m' k = if i ≤ k ∧ k < i + n then some v else Memory.lookup m k)
      ∧ (Memory.wf m = true → Memory.wf m' = true)
      ∧ (Memory.within Config.maxBlock m = true → Memory.within Config.maxBlock m' = true) := by
  induction n generalizing i m with
  | zero =>
    cases h
    exact ⟨.inl rfl, fun k => by rw [if_neg (by omega)], id, id⟩
  | succ n ih =>
    unfold writeRun at h
    split at h
    · cases h
    · rename_i m1 hw
      obtain ⟨hi, rfl⟩ := memWrite_eq_ok.mp hw
      obtain ⟨h1, h2, h3, h4⟩ := ih h
      have hi' : i < Config.maxBlock := hi
      refine ⟨.inr (by omega), fun k => ?_, fun hm => h3 (Memory.wf_insert i v hm),
        fun hm => h4 (Memory.within_insert v hi' hm)⟩
      rw [h2, Memory.lookup_insert]
      by_cases hk : k = i
      · subst hk; rw [if_neg (by omega), if_pos rfl, if_pos (by omega)]
      · rw [if_neg hk]
        by_cases hr : i + 1 ≤ k ∧ k < i + 1 + n
        · rw [if_pos hr, if_pos (by omega)]
        · rw [if_neg hr, if_neg (by omega)]

/-- A run that fits is written. -/
theorem writeRun_ok {v : Byte} {n i : Nat} (m : Memory Byte) (h : i + n ≤ Config.maxBlock) :
    ∃ m', writeRun v n i m = .ok m' := by
  induction n generalizing i m with
  | zero => exact ⟨m, rfl⟩
  | succ n ih =>
    obtain ⟨m', h'⟩ := ih (i := i + 1) (Memory.insert m i v) (by omega)
    have hw : memWrite .bwtBlock m i v = .ok (Memory.insert m i v) :=
      memWrite_eq_ok.mpr ⟨show i < Config.maxBlock by omega, rfl⟩
    exact ⟨m', by unfold writeRun; rw [hw]; exact h'⟩

/-- What the run flush does (spec/45_symbol_decode.md R283). -/
theorem flushRun_eq_ok {s t : State} (h : flushRun s = .ok t) :
    (s.runLen = 0 ∧ t = s)
      ∨ ∃ v m, s.runLen ≠ 0 ∧ s.lastMtf.toNat < s.numInUse
          ∧ Memory.lookup s.symMap s.lastMtf.toNat = some v
          ∧ writeRun v s.runLen s.bwtLen s.bwtBlock = .ok m
          ∧ t = { s with
              bwtBlock := m, bwtLen := s.bwtLen + s.runLen
              hist := histAdd s.hist v.toNat s.runLen, runLen := 0, runInc := 1 } := by
  unfold flushRun at h
  split at h
  · cases h; exact .inl ⟨by assumption, rfl⟩
  · rename_i hr
    split at h
    · cases h
    · rename_i v hv
      split at h
      · cases h
      · rename_i m hm
        rw [histCount_byte] at h
        cases h
        obtain ⟨-, h1, h2⟩ := memRead_eq_ok.mp hv
        exact .inr ⟨v, m, hr, h1, h2, hm, rfl⟩

/-- What appending the values of one range does to the symbol map (spec/44_block_header.md R245). -/
theorem appendSymbols_eq_ok {vs : List Byte} {n n' : Nat} {m m' : Memory Byte}
    (h : appendSymbols vs n m = .ok (n', m')) :
    n' = n + vs.length ∧ (vs = [] ∨ n' ≤ 256)
      ∧ (∀ k, Memory.lookup m' k = if n ≤ k ∧ k < n + vs.length then vs[k - n]? else Memory.lookup m k)
      ∧ (Memory.wf m = true → Memory.wf m' = true)
      ∧ (Memory.within 256 m = true → Memory.within 256 m' = true) := by
  induction vs generalizing n m with
  | nil =>
    cases h
    exact ⟨rfl, .inl rfl, fun k => by rw [if_neg (by simp)], id, id⟩
  | cons v vs ih =>
    unfold appendSymbols at h
    split at h
    · cases h
    · rename_i m1 hw
      obtain ⟨hi, rfl⟩ := memWrite_eq_ok.mp hw
      have hi' : n < 256 := hi
      obtain ⟨h1, h2, h3, h4, h5⟩ := ih h
      refine ⟨by simp [h1]; omega, .inr ?_, fun k => ?_, fun hm => h4 (Memory.wf_insert n v hm),
        fun hm => h5 (Memory.within_insert v hi' hm)⟩
      · rcases h2 with h2 | h2
        · subst h2; simp at h1; omega
        · exact h2
      · rw [h3, Memory.lookup_insert]
        simp only [List.length_cons]
        by_cases hk : k = n
        · subst hk; rw [if_neg (by omega), if_pos rfl, if_pos (by omega)]; simp
        · rw [if_neg hk]
          by_cases hr : n + 1 ≤ k ∧ k < n + 1 + vs.length
          · rw [if_pos hr, if_pos (by omega), show k - n = (k - (n + 1)) + 1 by omega]; rfl
          · rw [if_neg hr, if_neg (by omega)]

/-- Values that fit the symbol map are appended. -/
theorem appendSymbols_ok {vs : List Byte} {n : Nat} (m : Memory Byte) (h : n + vs.length ≤ 256) :
    ∃ m', appendSymbols vs n m = .ok (n + vs.length, m') := by
  induction vs generalizing n m with
  | nil => exact ⟨m, rfl⟩
  | cons v vs ih =>
    simp only [List.length_cons] at h
    obtain ⟨m', h'⟩ := ih (n := n + 1) (Memory.insert m n v) (by omega)
    have hw : memWrite .symMap m n v = .ok (Memory.insert m n v) :=
      memWrite_eq_ok.mpr ⟨show n < 256 by omega, rfl⟩
    refine ⟨m', ?_⟩
    unfold appendSymbols
    rw [hw]
    simpa [Nat.add_assoc, Nat.add_comm 1] using h'

theorem usedRangeFrom_eq_some {m : BitVec 16} {n i k : Nat} (h : usedRangeFrom m n i = some k) :
    i ≤ k ∧ k < i + n ∧ m.getLsbD (15 - k) = true ∧ ∀ j, i ≤ j → j < k → m.getLsbD (15 - j) = false := by
  induction n generalizing i with
  | zero => cases h
  | succ n ih =>
    unfold usedRangeFrom at h
    split at h
    · rename_i hb; cases h; exact ⟨le_refl _, by omega, hb, fun j h1 h2 => by omega⟩
    · rename_i hb
      obtain ⟨h1, h2, h3, h4⟩ := ih h
      refine ⟨by omega, by omega, h3, fun j hj1 hj2 => ?_⟩
      by_cases hj : j = i
      · subst hj; simpa using hb
      · exact h4 j (by omega) hj2

theorem usedRangeFrom_eq_none {m : BitVec 16} {n i : Nat} (h : usedRangeFrom m n i = none) :
    ∀ j, i ≤ j → j < i + n → m.getLsbD (15 - j) = false := by
  induction n generalizing i with
  | zero => intro j h1 h2; omega
  | succ n ih =>
    unfold usedRangeFrom at h
    split at h
    · cases h
    · rename_i hb
      intro j h1 h2
      by_cases hj : j = i
      · subst hj; simpa using hb
      · exact ih h j (by omega) (by omega)

/-- What follows a bitmap: the next used range, the empty map's error, or the complete map. -/
theorem continueMap_cases (i : Nat) (s : State) (hi : i ≤ 16) :
    (∃ k, i ≤ k ∧ k ≤ 15 ∧ continueMap i s = advance .mapPresent { s with rangeIdx := k })
      ∨ (s.numInUse = 0 ∧ continueMap i s = raiseCorrupt Config.detailNoSymbols s)
      ∨ (s.numInUse ≠ 0 ∧ continueMap i s = advance .nGroups { s with eob := s.numInUse + 1 }) := by
  unfold continueMap
  split
  · rename_i k hk
    obtain ⟨h1, h2, -⟩ := usedRangeFrom_eq_some hk
    exact .inl ⟨k, h1, by omega, rfl⟩
  · by_cases h : s.numInUse = 0
    · rw [if_pos h]; exact .inr (.inl ⟨h, rfl⟩)
    · rw [if_neg h]; exact .inr (.inr ⟨h, rfl⟩)

/-- Both indexes in range are a place in the memory. -/
theorem codeLenKey_lt {t s : Nat} (ht : t < Config.maxTables) (hs : s < Config.maxSymbols) :
    codeLenKey t s < Config.memSize .codeLen := by
  simp only [codeLenKey, Config.memSize, Config.maxTables, Config.maxSymbols] at *; omega

theorem codeLenRead_eq_ok {m : Memory Nat} {t s l : Nat} :
    codeLenRead m t s = .ok l ↔
      t < Config.maxTables ∧ s < Config.maxSymbols ∧ Memory.lookup m (codeLenKey t s) = some l := by
  unfold codeLenRead codeLenSlot
  by_cases h : Config.maxTables ≤ t ∨ Config.maxSymbols ≤ s
  · simp only [if_pos h]; constructor
    · intro h'; cases h'
    · rintro ⟨h1, h2, -⟩; omega
  · rw [if_neg h]
    have hk := codeLenKey_lt (t := t) (s := s) (by omega) (by omega)
    simp only [memRead_eq_ok]
    constructor
    · rintro ⟨-, -, h3⟩; exact ⟨by omega, by omega, h3⟩
    · rintro ⟨-, -, h3⟩; exact ⟨hk, by omega, h3⟩

theorem codeLenWrite_eq_ok {m m' : Memory Nat} {t s l : Nat} :
    codeLenWrite m t s l = .ok m' ↔
      t < Config.maxTables ∧ s < Config.maxSymbols ∧ m' = Memory.insert m (codeLenKey t s) l := by
  unfold codeLenWrite codeLenSlot
  by_cases h : Config.maxTables ≤ t ∨ Config.maxSymbols ≤ s
  · simp only [if_pos h]; constructor
    · intro h'; cases h'
    · rintro ⟨h1, h2, -⟩; omega
  · rw [if_neg h]
    have hk := codeLenKey_lt (t := t) (s := s) (by omega) (by omega)
    simp only [memWrite_eq_ok]
    constructor
    · rintro ⟨-, h3⟩; exact ⟨by omega, by omega, h3⟩
    · rintro ⟨-, -, h3⟩; exact ⟨hk, h3⟩

/-- Recorded lengths, read back (spec/43_huffman.md R210). -/
theorem codeLensFrom_eq_ok {m : Memory Nat} {t n s : Nat} {ls : List Nat}
    (h : codeLensFrom m t n s = .ok ls) :
    ls.length = n ∧ ∀ k, k < n → ∃ l, ls[k]? = some l ∧ Memory.lookup m (codeLenKey t (s + k)) = some l := by
  induction n generalizing s ls with
  | zero => cases h; exact ⟨rfl, fun k hk => by omega⟩
  | succ n ih =>
    unfold codeLensFrom at h
    split at h
    · cases h
    · rename_i l hl
      split at h
      · cases h
      · rename_i ls' hls
        cases h
        obtain ⟨h1, h2⟩ := ih hls
        obtain ⟨-, -, hl'⟩ := codeLenRead_eq_ok.mp hl
        refine ⟨by simp [h1], fun k hk => ?_⟩
        match k with
        | 0 => exact ⟨l, rfl, hl'⟩
        | k + 1 =>
          obtain ⟨l', e1, e2⟩ := h2 k (by omega)
          exact ⟨l', by simpa using e1, by rw [← e2]; congr 2; omega⟩

/-- Lengths that are recorded are read. -/
theorem codeLensFrom_ok {m : Memory Nat} {t : Nat} (ls : List Nat) (s : Nat)
    (ht : t < Config.maxTables) (hs : s + ls.length ≤ Config.maxSymbols)
    (h : ∀ k l, ls[k]? = some l → Memory.lookup m (codeLenKey t (s + k)) = some l) :
    codeLensFrom m t ls.length s = .ok ls := by
  induction ls generalizing s with
  | nil => rfl
  | cons l ls ih =>
    rw [List.length_cons] at hs
    have hr : codeLenRead m t s = .ok l :=
      codeLenRead_eq_ok.mpr ⟨ht, by omega, by simpa using h 0 l rfl⟩
    have hls := ih (s + 1) (by omega)
      (fun k l' hk' => by
        have := h (k + 1) l' (by simpa using hk')
        rwa [show s + 1 + k = s + (k + 1) by omega])
    simp only [List.length_cons, codeLensFrom, hr, hls]

/-! ## The elements -/

/-- The next states of the elements, by the slot they are read at. -/
inductive ElementMove (s : State) : State → Prop
  | hdrMagic (h : s.slot = .hdrMagic) : ElementMove s (advance .hdrH s)
  | hdrH (h : s.slot = .hdrH) : ElementMove s (advance .hdrLevel s)
  | hdrLevel (d : Byte) (h : s.slot = .hdrLevel) (hd : 0x31 ≤ d.toNat ∧ d.toNat ≤ 0x39) :
      ElementMove s (advance .marker { s with mult := levelMult d, phase := .awaitBlock })
  | badLevel (h : s.slot = .hdrLevel) : ElementMove s (raise .invalidHeader Config.detailLevel s)
  | markBlock (h : s.slot = .marker) :
      ElementMove s (advance .blkCrc
        { blockInit { s with blockCount := s.blockCount + 1#32 } with phase := .inBlock })
  | markEnd (h : s.slot = .marker) : ElementMove s (advance .streamCrc { s with phase := .trailer })
  | streamCrc (crc : Word) (h : s.slot = .streamCrc) (he : crc = s.streamCRC) :
      ElementMove s (advance .streamCrc { s with storedStreamCRC := crc, phase := .done })
  | badStreamCrc (crc : Word) (h : s.slot = .streamCrc) :
      ElementMove s (raise .streamCRCMismatch Config.detailNone { s with storedStreamCRC := crc })
  | blkCrc (crc : Word) (h : s.slot = .blkCrc) :
      ElementMove s (advance .blkRand { s with storedBlockCRC := crc })
  | blkRand (r : Bool) (h : s.slot = .blkRand) :
      ElementMove s (advance .blkOrigPtr { s with randFlag := r })
  | blkOrigPtr (p : BitVec 24) (h : s.slot = .blkOrigPtr) :
      ElementMove s (advance .mapUsed { s with origPtr := p, bphase := .tables })
  | mapUsed (m : BitVec 16) (k : Nat) (h : s.slot = .mapUsed) (hk : k ≤ 15) :
      ElementMove s (advance .mapPresent { s with usedMap := m, numInUse := 0, rangeIdx := k })
  | emptyMap (m : BitVec 16) (h : s.slot = .mapUsed) :
      ElementMove s (raiseCorrupt Config.detailNoSymbols { s with usedMap := m, numInUse := 0 })
  | mapPresent (p : BitVec 16) (n : Nat) (m : Memory Byte) (k : Nat) (h : s.slot = .mapPresent)
      (ha : appendSymbols (presentValues s.rangeIdx p) s.numInUse s.symMap = .ok (n, m))
      (hk : s.rangeIdx + 1 ≤ k ∧ k ≤ 15) :
      ElementMove s (advance .mapPresent { s with numInUse := n, symMap := m, rangeIdx := k })
  | mapEmpty (p : BitVec 16) (n : Nat) (m : Memory Byte) (h : s.slot = .mapPresent)
      (ha : appendSymbols (presentValues s.rangeIdx p) s.numInUse s.symMap = .ok (n, m)) :
      ElementMove s (raiseCorrupt Config.detailNoSymbols { s with numInUse := n, symMap := m })
  | mapDone (p : BitVec 16) (n : Nat) (m : Memory Byte) (h : s.slot = .mapPresent)
      (ha : appendSymbols (presentValues s.rangeIdx p) s.numInUse s.symMap = .ok (n, m)) (hn : n ≠ 0) :
      ElementMove s (advance .nGroups { s with numInUse := n, symMap := m, eob := n + 1 })
  | nGroups (n : BitVec 3) (h : s.slot = .nGroups) :
      ElementMove s (advance .nSelectors { s with numTables := n.toNat })
  | badTables (k : BitVec 15) (h : s.slot = .nSelectors) :
      ElementMove s (raiseCorrupt Config.detailTables { s with numSelectors := k.toNat })
  | badSelCount (k : BitVec 15) (h : s.slot = .nSelectors) :
      ElementMove s (raiseCorrupt Config.detailSelCount { s with numSelectors := k.toNat })
  | nSelectors (k : BitVec 15) (h : s.slot = .nSelectors)
      (ht : Config.minTables ≤ s.numTables ∧ s.numTables ≤ Config.maxTables)
      (hk : 1 ≤ k.toNat ∧ k.toNat ≤ Config.maxSelectors) :
      ElementMove s (advance .selMtf { s with numSelectors := k.toNat, selIdx := 0 })
  | selMtf (j : Nat) (v : Byte) (h : s.slot = .selMtf) (hj : j = 0 ∨ j < s.numTables)
      (hv : s.selFL[j]? = some v) (hx : s.selIdx < Config.maxSelectors)
      (hn : s.selIdx + 1 < s.numSelectors) :
      ElementMove s (advance .selMtf { s with
        selFL := v :: (s.selFL.take j ++ s.selFL.drop (j + 1))
        selectors := Memory.insert s.selectors s.selIdx v.toNat, selIdx := s.selIdx + 1 })
  | lastSelMtf (j : Nat) (v : Byte) (h : s.slot = .selMtf) (hj : j = 0 ∨ j < s.numTables)
      (hv : s.selFL[j]? = some v) (hx : s.selIdx < Config.maxSelectors)
      (hn : s.numSelectors ≤ s.selIdx + 1) :
      ElementMove s (advance .clStart { s with
        selFL := v :: (s.selFL.take j ++ s.selFL.drop (j + 1))
        selectors := Memory.insert s.selectors s.selIdx v.toNat, selIdx := s.selIdx + 1, tableIdx := 0 })
  | clStart (l : BitVec 5) (h : s.slot = .clStart) :
      ElementMove s (advance .cld { s with curLen := (l.toNat : Int), symIdx := 0 })
  | clMove (n : Int) (h : s.slot = .cld) : ElementMove s (advance .cld { s with curLen := n })
  | badCodeLen (h : s.slot = .cld) : ElementMove s (raiseCorrupt Config.detailCodeLen s)
  | clDone (l : Nat) (h : s.slot = .cld) (hl : 1 ≤ l ∧ l ≤ Config.maxCodeLen)
      (hx : s.tableIdx < Config.maxTables ∧ s.symIdx < Config.maxSymbols) (hs : s.symIdx < s.eob) :
      ElementMove s (advance .cld { s with
        codeLen := Memory.insert s.codeLen (codeLenKey s.tableIdx s.symIdx) l, symIdx := s.symIdx + 1 })
  | table (l : Nat) (lens : List Nat) (h : s.slot = .cld) (hl : 1 ≤ l ∧ l ≤ Config.maxCodeLen)
      (hx : s.tableIdx < Config.maxTables ∧ s.symIdx < Config.maxSymbols) (hs : s.eob ≤ s.symIdx)
      (hc : codeLensFrom (Memory.insert s.codeLen (codeLenKey s.tableIdx s.symIdx) l) s.tableIdx
        (s.eob + 1) 0 = .ok lens)
      (ht : s.tableIdx < Config.maxTables) (hn : s.tableIdx + 1 < s.numTables) :
      ElementMove s (advance .clStart { s with
        codeLen := Memory.insert s.codeLen (codeLenKey s.tableIdx s.symIdx) l
        tables := Memory.insert s.tables s.tableIdx (buildTable lens), tableIdx := s.tableIdx + 1 })
  | lastTable (l : Nat) (lens : List Nat) (h : s.slot = .cld) (hl : 1 ≤ l ∧ l ≤ Config.maxCodeLen)
      (hx : s.tableIdx < Config.maxTables ∧ s.symIdx < Config.maxSymbols) (hs : s.eob ≤ s.symIdx)
      (hc : codeLensFrom (Memory.insert s.codeLen (codeLenKey s.tableIdx s.symIdx) l) s.tableIdx
        (s.eob + 1) 0 = .ok lens)
      (ht : s.tableIdx < Config.maxTables) (hn : s.numTables ≤ s.tableIdx + 1) :
      ElementMove s (advance .select { s with
        codeLen := Memory.insert s.codeLen (codeLenKey s.tableIdx s.symIdx) l
        tables := Memory.insert s.tables s.tableIdx (buildTable lens), tableIdx := s.tableIdx + 1
        bphase := .symbols })
  | escape (w : Nat) (h : s.slot = .symbol) (hw : 1 ≤ w ∧ w ≤ 2)
      (hc : s.bwtLen + (s.runLen + w * s.runInc) ≤ blockSize s) :
      ElementMove s (advance .select { s with
        symCount := s.symCount + 1, runLen := s.runLen + w * s.runInc, runInc := s.runInc * 2 })
  | escapeFull (w : Nat) (h : s.slot = .symbol) (hw : 1 ≤ w ∧ w ≤ 2) :
      ElementMove s (raiseCorrupt Config.detailCapacity { s with
        symCount := s.symCount + 1, runLen := s.runLen + w * s.runInc, runInc := s.runInc * 2 })
  | literalFull (t : State) (h : s.slot = .symbol) (hf : flushRun (countSymbol s) = .ok t) :
      ElementMove s (raiseCorrupt Config.detailCapacity t)
  | literal (t : State) (tb : HuffTable) (k : Nat) (r v : Byte) (h : s.slot = .symbol)
      (ht : tableAt s s.curTable = .ok tb) (hk : k + 1 ∈ tb.perm) (hk1 : 1 ≤ k) (hke : k + 1 ≠ s.eob)
      (hf : flushRun (countSymbol s) = .ok t) (hc : t.bwtLen < blockSize t)
      (hr : t.mtfFL[k]? = some r) (hn : r.toNat < t.numInUse)
      (hv : Memory.lookup t.symMap r.toNat = some v) (hb : t.bwtLen < Config.maxBlock) :
      ElementMove s (advance .select { t with
        mtfFL := r :: (t.mtfFL.take k ++ t.mtfFL.drop (k + 1)), lastMtf := r
        bwtBlock := Memory.insert t.bwtBlock t.bwtLen v, bwtLen := t.bwtLen + 1
        hist := histAdd t.hist v.toNat 1 })
  | eob (t : State) (h : s.slot = .symbol) (hf : flushRun (countSymbol s) = .ok t) :
      ElementMove s (advance .invert { t with bphase := .bwtInvert })
  | rleHold (b : Byte) (h : s.slot = .rle) (hv : BitVec.ofNat 8 (bitsToNat s.latch) = b)
      (hs : s.snkRoom = some 0) (hl : s.rleLast ≠ some b ∨ s.rleAcc < 3) : ElementMove s { s with waitSnk := true }
  | rleLit (b : Byte) (h : s.slot = .rle) (hs : s.snkRoom ≠ some 0) (hb : s.rleLast ≠ some b) :
      ElementMove s (advance .rle { accepted b s with rleLast := some b, rleAcc := 1 })
  | rleRep (b : Byte) (h : s.slot = .rle) (hs : s.snkRoom ≠ some 0) (hb : s.rleLast = some b)
      (ha : s.rleAcc < 3) : ElementMove s (advance .rle { accepted b s with rleAcc := s.rleAcc + 1 })
  | rleRun (b c : Byte) (t : State) (h : s.slot = .rle) (hv : BitVec.ofNat 8 (bitsToNat s.latch) = b)
      (hb : s.rleLast = some b) (ha : 3 ≤ s.rleAcc) (hn : nextBWT s = .ok (some c, t)) : ElementMove s (latchByte .rleCount c t)
  | noCount (b : Byte) (h : s.slot = .rle) (hv : BitVec.ofNat 8 (bitsToNat s.latch) = b)
      (hb : s.rleLast = some b) (ha : 3 ≤ s.rleAcc) (hn : s.bwtDone = s.bwtLen) :
      ElementMove s (raiseCorrupt Config.detailRle4Count s)
  | rleCount (c : Byte) (h : s.slot = .rleCount) :
      ElementMove s (advance .rle { s with rlePending := c.toNat + 1, rleAcc := 0 })

theorem flushRun_frame {s t : State} (h : flushRun s = .ok t) :
    t = { s with
      bwtBlock := t.bwtBlock, bwtLen := t.bwtLen, hist := t.hist, runLen := t.runLen
      runInc := t.runInc } := by
  obtain ⟨-, rfl⟩ | ⟨v, m, -, -, -, -, rfl⟩ := flushRun_eq_ok h <;> rfl

theorem emit_move {b : Byte} {f : State → State} {s t : State} (h : emit b f s = t) :
    (s.snkRoom = some 0 ∧ t = { s with waitSnk := true })
      ∨ (s.snkRoom ≠ some 0 ∧ t = f (accepted b s)) := by
  unfold emit at h
  by_cases hs : s.snkRoom = some 0
  · rw [if_neg (by simp [sinkReady, hs])] at h; exact .inl ⟨hs, h.symm⟩
  · rw [if_pos (by simpa [sinkReady] using hs)] at h; exact .inr ⟨hs, h.symm⟩

/-- What nextBWT answers (spec/46_bwt.md R305). -/
theorem nextBWT_eq_ok {s t : State} {b? : Option Byte} (h : nextBWT s = .ok (b?, t)) :
    (s.bwtDone = s.bwtLen ∧ b? = none ∧ t = s)
      ∨ ∃ c, s.bwtDone ≠ s.bwtLen ∧ (s.cursor >>> 8).toNat < s.bwtLen
          ∧ Memory.lookup s.mp (s.cursor >>> 8).toNat = some c
          ∧ b? = some (derandomise (BitVec.setWidth 8 s.cursor)
              { s with cursor := c, bwtDone := s.bwtDone + 1 }).1
          ∧ t = (derandomise (BitVec.setWidth 8 s.cursor)
              { s with cursor := c, bwtDone := s.bwtDone + 1 }).2 := by
  unfold nextBWT at h
  split at h
  · rename_i hd; cases h; exact .inl ⟨hd, rfl, rfl⟩
  · rename_i hd
    split at h
    · cases h
    · rename_i c hc
      cases h
      obtain ⟨-, h1, h2⟩ := memRead_eq_ok.mp hc
      exact .inr ⟨c, hd, h1, h2, rfl, rfl⟩

/-- derandomise touches its two counters only (R306). -/
theorem derandomise_frame (b : Byte) (s : State) :
    (derandomise b s).2 = { s with
      rNToGo := (derandomise b s).2.rNToGo, rTPos := (derandomise b s).2.rTPos } := by
  unfold derandomise derandomiseWith reloadPeriod
  split
  · dsimp only; split <;> rfl
  · rfl

theorem nextBWT_frame {s t : State} {b? : Option Byte} (h : nextBWT s = .ok (b?, t)) :
    t = { s with cursor := t.cursor, bwtDone := t.bwtDone, rNToGo := t.rNToGo, rTPos := t.rTPos } := by
  obtain ⟨-, -, rfl⟩ | ⟨c, -, -, -, -, rfl⟩ := nextBWT_eq_ok h
  · rfl
  · have f := derandomise_frame (BitVec.setWidth 8 s.cursor)
      { s with cursor := c, bwtDone := s.bwtDone + 1 }
    generalize (derandomise (BitVec.setWidth 8 s.cursor)
      { s with cursor := c, bwtDone := s.bwtDone + 1 }).2 = u at f ⊢
    rw [f]

theorem continueLens_move {s t : State} (h : continueLens s = .next t) :
    (s.symIdx < s.eob ∧ t = advance .cld { s with symIdx := s.symIdx + 1 })
      ∨ ∃ lens, s.eob ≤ s.symIdx ∧ codeLensFrom s.codeLen s.tableIdx (s.eob + 1) 0 = .ok lens
          ∧ s.tableIdx < Config.maxTables
          ∧ ((s.tableIdx + 1 < s.numTables ∧ t = advance .clStart { s with
                tables := Memory.insert s.tables s.tableIdx (buildTable lens)
                tableIdx := s.tableIdx + 1 })
            ∨ (s.numTables ≤ s.tableIdx + 1 ∧ t = advance .select { s with
                tables := Memory.insert s.tables s.tableIdx (buildTable lens)
                tableIdx := s.tableIdx + 1, bphase := .symbols })) := by
  unfold continueLens at h
  split at h
  · rename_i hs; cases h; exact .inl ⟨hs, rfl⟩
  · rename_i hs
    obtain ⟨u, hu, h⟩ := attempt_eq_next.mp h
    unfold buildStep at hu
    split at hu
    · cases hu
    · rename_i lens hl
      split at hu
      · cases hu
      · rename_i m hm
        cases hu
        obtain ⟨ht, rfl⟩ := memWrite_eq_ok.mp hm
        refine .inr ⟨lens, by omega, hl, ht, ?_⟩
        split at h
        · rename_i hn; cases h; exact .inl ⟨hn, rfl⟩
        · rename_i hn; cases h; exact .inr ⟨by omega, rfl⟩

theorem escape_move {w : Nat} {s : State} (h : s.slot = .symbol) (hw : 1 ≤ w ∧ w ≤ 2) :
    ElementMove s (escape w (countSymbol s)) := by
  unfold escape
  split
  · exact .escapeFull w h hw
  · rename_i hc
    exact .escape w h hw (Nat.le_of_not_lt hc)

/-- What exec does with an element that the decoder can hand it. -/
theorem exec_move {s t : State} {i : Instr} (hr : Runs s i) (hx : exec i s = .next t) :
    ElementMove s t := by
  cases hr with
  | hdrMagic h => cases hx; exact .hdrMagic h
  | hdrH h => cases hx; exact .hdrH h
  | hdrLevel d h =>
    change execHdrLevel d s = _ at hx
    unfold execHdrLevel at hx
    split at hx
    · rename_i hd; cases hx; exact .hdrLevel d h (by simpa [levelLegal] using hd)
    · cases hx; exact .badLevel h
  | markBlock h => cases hx; exact .markBlock h
  | markEnd h => cases hx; exact .markEnd h
  | streamCrc crc h =>
    change execStreamCrc crc s = _ at hx
    unfold execStreamCrc at hx
    split at hx
    · cases hx; exact .badStreamCrc crc h
    · rename_i he; cases hx; exact .streamCrc crc h (by simpa using he)
  | blkCrc crc h => cases hx; exact .blkCrc crc h
  | blkRand r h => cases hx; exact .blkRand r h
  | blkOrigPtr p h => cases hx; exact .blkOrigPtr p h
  | mapUsed m h =>
    change Host.Outcome.next (continueMap 0 _) = _ at hx
    cases hx
    obtain ⟨k, -, hk, he⟩ | ⟨-, he⟩ | ⟨hn, he⟩ :=
      continueMap_cases 0 { s with usedMap := m, numInUse := 0 } (by omega)
    · rw [he]; exact .mapUsed m k h hk
    · rw [he]; exact .emptyMap m h
    · exact absurd rfl hn
  | mapPresent p h =>
    obtain ⟨⟨n, m⟩, ha, hx⟩ := attempt_eq_next.mp hx
    cases hx
    by_cases hi : s.rangeIdx + 1 ≤ 16
    · obtain ⟨k, hk1, hk2, he⟩ | ⟨-, he⟩ | ⟨hn, he⟩ :=
        continueMap_cases (s.rangeIdx + 1) { s with numInUse := n, symMap := m } hi
      · rw [he]; exact .mapPresent p n m k h ha ⟨hk1, hk2⟩
      · rw [he]; exact .mapEmpty p n m h ha
      · rw [he]; exact .mapDone p n m h ha hn
    · have hnone : nextUsedRange s.usedMap (s.rangeIdx + 1) = none := by
        unfold nextUsedRange
        rw [show 16 - (s.rangeIdx + 1) = 0 by omega]
        rfl
      unfold continueMap
      simp only [hnone]
      by_cases hn : n = 0
      · rw [if_pos hn]; exact .mapEmpty p n m h ha
      · rw [if_neg hn]; exact .mapDone p n m h ha hn
  | nGroups n h => cases hx; exact .nGroups n h
  | nSelectors k h =>
    change execNSelectors k s = _ at hx
    unfold execNSelectors at hx
    split at hx
    · cases hx; exact .badTables k h
    · split at hx
      · cases hx; exact .badSelCount k h
      · cases hx; exact .nSelectors k h (by omega) (by omega)
  | selMtf j h hj =>
    obtain ⟨⟨v, fl⟩, hp, hx⟩ := attempt_eq_next.mp hx
    obtain ⟨m, hm, hx⟩ := attempt_eq_next.mp hx
    obtain ⟨-, hv, rfl⟩ := promoteByIndex_eq_ok.mp hp
    obtain ⟨hi, rfl⟩ := memWrite_eq_ok.mp hm
    split at hx
    · rename_i hn; cases hx; exact .selMtf j v h hj hv hi hn
    · rename_i hn; cases hx; exact .lastSelMtf j v h hj hv hi (by omega)
  | clStart l h => cases hx; exact .clStart l h
  | clInc h => cases hx; exact .clMove _ h
  | clDec h => cases hx; exact .clMove _ h
  | clDone h =>
    change execClDone s = _ at hx
    unfold execClDone at hx
    split at hx
    · cases hx; exact .badCodeLen h
    · rename_i hc
      obtain ⟨m, hm, hx⟩ := attempt_eq_next.mp hx
      obtain ⟨hi, hi', rfl⟩ := codeLenWrite_eq_ok.mp hm
      have hl : 1 ≤ s.curLen.toNat ∧ s.curLen.toNat ≤ Config.maxCodeLen := by
        have : ((Config.maxCodeLen : Nat) : Int) = 23 := rfl
        rw [this] at hc
        simp only [Config.maxCodeLen]
        omega
      obtain ⟨hs, rfl⟩ | ⟨lens, hs, hl', ht, ⟨hn, rfl⟩ | ⟨hn, rfl⟩⟩ := continueLens_move hx
      · exact .clDone _ h hl ⟨hi, hi'⟩ hs
      · exact .table _ lens h hl ⟨hi, hi'⟩ hs hl' ht hn
      · exact .lastTable _ lens h hl ⟨hi, hi'⟩ hs hl' ht hn
  | symbol tb sym h ht hs =>
    unfold symbolInstr at hx
    split at hx
    · cases hx; exact escape_move h (by omega)
    · split at hx
      · cases hx; exact escape_move h (by omega)
      · split at hx
        · obtain ⟨u, hf, hx⟩ := attempt_eq_next.mp hx
          cases hx
          exact .eob u h hf
        · rename_i h0 h1 he
          obtain ⟨u, hf, hx⟩ := attempt_eq_next.mp hx
          unfold literal at hx
          split at hx
          · cases hx; exact .literalFull u h hf
          · rename_i hc
            obtain ⟨⟨r, fl⟩, hp, hx⟩ := attempt_eq_next.mp hx
            obtain ⟨v, hv, hx⟩ := attempt_eq_next.mp hx
            obtain ⟨m, hm, hx⟩ := attempt_eq_next.mp hx
            obtain ⟨-, hr, rfl⟩ := promoteByIndex_eq_ok.mp hp
            obtain ⟨-, hn, hv⟩ := memRead_eq_ok.mp hv
            obtain ⟨hb, rfl⟩ := memWrite_eq_ok.mp hm
            rw [histCount_byte, attempt_ok] at hx
            cases hx
            have e : sym - 1 + 1 = sym := by omega
            exact .literal u tb (sym - 1) r v h ht (by rw [e]; exact hs) (by omega)
              (by rw [e]; exact he) hf (Nat.lt_of_not_le hc) hr hn hv hb
  | rle4Lit b h hv hb =>
    have hx' : emit b (fun t => advance .rle { t with rleLast := some b, rleAcc := 1 }) s = t := by
      cases hx; rfl
    obtain ⟨hs, rfl⟩ | ⟨hs, rfl⟩ := emit_move hx'
    · exact .rleHold b h hv hs (.inl hb)
    · exact .rleLit b h hs hb
  | rle4Rep b h hv hb ha =>
    have hx' : emit b (fun t => advance .rle { t with rleAcc := t.rleAcc + 1 }) s = t := by
      cases hx; rfl
    obtain ⟨hs, rfl⟩ | ⟨hs, rfl⟩ := emit_move hx'
    · exact .rleHold b h hv hs (.inr ha)
    · exact .rleRep b h hs hb ha
  | rle4Run b h hv hb ha =>
    obtain ⟨⟨b?, u⟩, hn, hx⟩ := attempt_eq_next.mp hx
    cases b? with
    | none =>
      cases hx
      obtain ⟨hd, -, rfl⟩ | ⟨c, -, -, -, hc, -⟩ := nextBWT_eq_ok hn
      · exact .noCount b h hv hb (by omega) hd
      · cases hc
    | some c => cases hx; exact .rleRun b c u h hv hb (by omega) hn
  | rle4Count c h => cases hx; exact .rleCount c h

/-! ## The walk and the stages -/

/-- The next states of the walk where no byte stands ready. -/
inductive WalkMove (s : State) : State → Prop
  | copyHold (b : Byte) (hp : 0 < s.rlePending) (hb : s.rleLast = some b) (hs : s.snkRoom = some 0) :
      WalkMove s { s with waitSnk := true }
  | copy (b : Byte) (hp : 0 < s.rlePending) (hb : s.rleLast = some b) (hs : s.snkRoom ≠ some 0) :
      WalkMove s { accepted b s with rlePending := s.rlePending - 1 }
  | byte (b : Byte) (t : State) (hp : s.rlePending = 0) (hn : nextBWT s = .ok (some b, t)) :
      WalkMove s (latchByte .rle b t)
  | badCrc (hp : s.rlePending = 0) (hd : s.bwtDone = s.bwtLen) :
      WalkMove s (raise .blockCRCMismatch Config.detailNone
        { s with calcBlockCRC := s.blockCRC ^^^ Config.crcInit, bphase := .exhausted })
  | blockEnd (hp : s.rlePending = 0) (hd : s.bwtDone = s.bwtLen)
      (hc : s.blockCRC ^^^ Config.crcInit = s.storedBlockCRC) :
      WalkMove s (advance .marker { s with
        calcBlockCRC := s.blockCRC ^^^ Config.crcInit
        streamCRC := rotl1 s.streamCRC ^^^ (s.blockCRC ^^^ Config.crcInit)
        bphase := .none, phase := .awaitBlock })

theorem walkStep_move {s t : State} (h : walkStep s = .next t) : WalkMove s t := by
  unfold walkStep at h
  split at h
  · rename_i hp
    unfold copyStep at h
    split at h
    · cases h
    · rename_i b hb
      have h' : emit b (fun t => { t with rlePending := t.rlePending - 1 }) s = t := by cases h; rfl
      obtain ⟨hs, rfl⟩ | ⟨hs, rfl⟩ := emit_move h'
      · exact .copyHold b hp hb hs
      · exact .copy b hp hb hs
  · rename_i hp
    obtain ⟨⟨b?, u⟩, hn, h⟩ := attempt_eq_next.mp h
    cases b? with
    | some b => cases h; exact .byte b u (by omega) hn
    | none =>
      cases h
      obtain ⟨hd, -, rfl⟩ | ⟨c, -, -, -, hc, -⟩ := nextBWT_eq_ok hn
      · unfold blockEnd
        split
        · exact .badCrc (by omega) hd
        · rename_i hc; exact .blockEnd (by omega) hd (by simpa using hc)
      · cases hc

theorem fetchCount_move {s t : State} (h : fetchCount s = .next t) :
    (s.bwtDone = s.bwtLen ∧ t = raiseCorrupt Config.detailRle4Count s)
      ∨ ∃ c u, nextBWT s = .ok (some c, u) ∧ t = latchByte .rleCount c u := by
  obtain ⟨⟨b?, u⟩, hn, h⟩ := attempt_eq_next.mp h
  cases b? with
  | none =>
    cases h
    obtain ⟨hd, -, rfl⟩ | ⟨c, -, -, -, hc, -⟩ := nextBWT_eq_ok hn
    · exact .inl ⟨hd, rfl⟩
    · cases hc
  | some c => cases h; exact .inr ⟨c, u, hn, rfl⟩

theorem selectStep_move {s t : State} (h : selectStep s = .next t) :
    (s.numSelectors ≤ s.symCount / Config.groupSize ∧ t = raiseCorrupt Config.detailSelOvf s)
      ∨ (∃ n, s.symCount % Config.groupSize = 0 ∧ s.symCount / Config.groupSize < s.numSelectors
          ∧ Memory.lookup s.selectors (s.symCount / Config.groupSize) = some n
          ∧ t = advance .symbol { s with curTable := n })
      ∨ (s.symCount % Config.groupSize ≠ 0 ∧ t = advance .symbol s) := by
  unfold selectStep at h
  split at h
  · rename_i hm
    split at h
    · rename_i hn; cases h; exact .inl ⟨hn, rfl⟩
    · rename_i hn
      obtain ⟨n, hr, h⟩ := attempt_eq_next.mp h
      cases h
      obtain ⟨-, h1, h2⟩ := memRead_eq_ok.mp hr
      exact .inr (.inl ⟨n, hm, h1, h2, rfl⟩)
  · rename_i hm; cases h; exact .inr (.inr ⟨hm, rfl⟩)

theorem invertStep_move {s t : State} (h : invertStep s = .next t) :
    (s.bwtLen ≤ s.origPtr.toNat ∧ t = raiseCorrupt Config.detailOrigPtr s)
      ∨ ∃ m c, s.origPtr.toNat < s.bwtLen ∧ buildMp s = .ok m
          ∧ Memory.lookup m s.origPtr.toNat = some c
          ∧ t = advance .rle { s with mp := m, cursor := c, bwtDone := 0, bphase := .streaming } := by
  unfold invertStep at h
  split at h
  · rename_i ho; cases h; exact .inl ⟨ho, rfl⟩
  · obtain ⟨m, hm, h⟩ := attempt_eq_next.mp h
    obtain ⟨c, hc, h⟩ := attempt_eq_next.mp h
    cases h
    obtain ⟨-, h1, h2⟩ := memRead_eq_ok.mp hc
    exact .inr ⟨m, c, h1, hm, h2, rfl⟩

/-! ## The whole step -/

/-- The next states of one step: the core's turn, or an event of the environment. -/
inductive StepMove (s : State) : State → Prop
  | core (t : State) (he : s.env = []) (h : CoreMove s t) : StepMove s t
  | turn (rest : List EnvEvent) (t : State) (he : s.env = .core :: rest)
      (h : CoreMove { s with env := rest } t) : StepMove s t
  | reset (rest : List EnvEvent) (he : s.env = .reset :: rest) :
      StepMove s (resetCore { s with env := rest })
  | start (value : Word) (rest : List EnvEvent) (he : s.env = .write Config.csrBase 4 value :: rest)
      (hv : value.getLsbD 0 = true) (hp : s.phase = .idle) :
      StepMove s { s with env := rest, streamCRC := 0#32, phase := .header }
  | event (e : EnvEvent) (rest : List EnvEvent) (q : List SrcAnswer) (room : Option Nat)
      (data : List Word) (he : s.env = e :: rest) (hr : e ≠ .reset) (hc : e ≠ .core) :
      StepMove s { s with env := rest, srcQ := s.srcQ ++ q, snkRoom := room, hostData := data }
  | close (rest : List EnvEvent) (he : s.env = .srcClose :: rest) :
      StepMove s { s with env := rest, srcQ := [.eof] }

theorem windowOffset_eq_some {addr width offset : Nat} :
    windowOffset addr width = some offset ↔
      width = 4 ∧ offset % 4 = 0 ∧ addr = Config.csrBase + offset := by
  unfold windowOffset
  split
  · simp; omega
  · simp; omega

theorem step_move {s t : State} (h : step s = .next t) : StepMove s t := by
  unfold step at h
  split at h
  · rename_i he; exact .core t he (coreStep_move h)
  · rename_i e rest he
    cases e with
    | core => exact .turn rest t he (coreStep_move h)
    | reset => cases h; exact .reset rest he
    | read addr width =>
      change hostRead addr width _ = _ at h
      unfold hostRead at h
      split at h
      · cases h
      · rename_i o ho
        cases h
        have := StepMove.event _ rest [] s.snkRoom
          (s.hostData ++ [csrWord { s with env := rest } o]) he (by simp) (by simp)
        simpa using this
    | write addr width value =>
      change hostWrite addr width value _ = _ at h
      unfold hostWrite at h
      have same : StepMove s { s with env := rest } := by
        have := StepMove.event _ rest [] s.snkRoom s.hostData he (by simp) (by simp)
        simpa using this
      split at h
      · cases h
      · rename_i o ho
        obtain ⟨rfl, -, rfl⟩ := windowOffset_eq_some.mp ho
        cases h
        unfold csrWrite start
        split
        · rename_i hv
          obtain ⟨rfl, hv⟩ := hv
          split
          · rename_i hp; exact .start value rest he hv hp
          · exact same
        · exact same
    | srcByte b =>
      cases h
      have := StepMove.event _ rest [.byte b] s.snkRoom s.hostData he (by simp) (by simp)
      simpa using this
    | srcEnd =>
      cases h
      have := StepMove.event _ rest [.eof] s.snkRoom s.hostData he (by simp) (by simp)
      simpa using this
    | srcClose => cases h; exact .close rest he
    | snkRoom n =>
      cases h
      have := StepMove.event _ rest [] (s.snkRoom.map (fun k => k + n)) s.hostData he (by simp)
        (by simp)
      simpa [sinkMakesRoom] using this

/-- A property of every state is kept by every step once the core's moves, reset, START and the events that
touch only the environment's fields keep it. -/
theorem step_keeps {P : State → Prop} (hcore : ∀ s t, P s → CoreMove s t → P t)
    (hreset : ∀ s, P (resetCore s))
    (hstart : ∀ s e, P s → s.phase = .idle → P { s with env := e, streamCRC := 0#32, phase := .header })
    (hev : ∀ s e q r d, P s → P { s with env := e, srcQ := q, snkRoom := r, hostData := d })
    {s t : State} (hs : P s) (h : step s = .next t) : P t := by
  cases step_move h with
  | core t he h => exact hcore s t hs h
  | turn rest t he h =>
    exact hcore _ t (by have := hev s rest s.srcQ s.snkRoom s.hostData hs; simpa using this) h
  | reset rest he => exact hreset _
  | start value rest he _ hp => exact hstart s rest hs hp
  | event e rest q room data he hr hc => exact hev s rest _ room data hs
  | close rest he => exact hev s rest _ s.snkRoom s.hostData hs

end Sys2Proof.Machine
end

