-- ==== Sys2Proof/Laws/Huffman.lean ====
section
/-! SUPPORT. The decode tables in closed form (spec/43_huffman.md R211 to R214): the extrema of the lengths,
the slots of `base` and `limit`, and what `perm` holds. -/

namespace Sys2Proof.Machine

/-! ## First codes and extrema -/

theorem firstCode_min (lens : List Nat) : firstCode lens (lenMin lens) = 0 := by
  cases h : lenMin lens with
  | zero => rfl
  | succ n => simp [firstCode, h]

theorem firstCode_succ {lens : List Nat} {l : Nat} (h : lenMin lens ≤ l) :
    firstCode lens (l + 1) = (firstCode lens l + lenCount lens l) * 2 := by
  rw [firstCode, if_neg (by omega)]

theorem foldl_min (ls : List Nat) (a : Nat) :
    (∀ l ∈ a :: ls, ls.foldl min a ≤ l) ∧ ls.foldl min a ∈ a :: ls := by
  induction ls generalizing a with
  | nil => simp
  | cons b r ih =>
    obtain ⟨h1, h2⟩ := ih (min a b)
    simp only [List.foldl_cons, List.mem_cons, forall_eq_or_imp] at h1 h2 ⊢
    refine ⟨⟨by omega, by omega, h1.2⟩, ?_⟩
    rcases h2 with h | h
    · rw [h]; omega
    · exact .inr (.inr h)

theorem foldl_max (ls : List Nat) (a : Nat) :
    (∀ l ∈ a :: ls, l ≤ ls.foldl max a) ∧ ls.foldl max a ∈ a :: ls := by
  induction ls generalizing a with
  | nil => simp
  | cons b r ih =>
    obtain ⟨h1, h2⟩ := ih (max a b)
    simp only [List.foldl_cons, List.mem_cons, forall_eq_or_imp] at h1 h2 ⊢
    refine ⟨⟨by omega, by omega, h1.2⟩, ?_⟩
    rcases h2 with h | h
    · rw [h]; omega
    · exact .inr (.inr h)

theorem lenMin_le {lens : List Nat} {l : Nat} (h : l ∈ lens) : lenMin lens ≤ l := by
  cases lens with
  | nil => cases h
  | cons a r => exact (foldl_min r a).1 l h

theorem lenMin_mem {lens : List Nat} (h : lens ≠ []) : lenMin lens ∈ lens := by
  cases lens with
  | nil => exact absurd rfl h
  | cons a r => exact (foldl_min r a).2

theorem le_lenMax {lens : List Nat} {l : Nat} (h : l ∈ lens) : l ≤ lenMax lens := by
  cases lens with
  | nil => cases h
  | cons a r => exact (foldl_max r a).1 l h

theorem lenMax_mem {lens : List Nat} (h : lens ≠ []) : lenMax lens ∈ lens := by
  cases lens with
  | nil => exact absurd rfl h
  | cons a r => exact (foldl_max r a).2

theorem ne_nil_of_lensOk {eob : Nat} {lens : List Nat} (h : LensOk eob lens) : lens ≠ [] := by
  intro e
  have := h.1
  rw [e] at this
  simp at this

/-! ## The slots -/

/-- The `k`-th slot of a row list, `f` the field of a row. -/
theorem codeRows_lookup {α : Type} (f : Nat × Int × Int → α) (lens : List Nat) (n : Nat) {l : Nat}
    (hl : lenMin lens ≤ l) (k : Nat) :
    Memory.lookup ((codeRows lens n l (firstCode lens l)).map (fun r => (r.1, f r))) k =
      if l ≤ k ∧ k < l + n then
        some (f (k, (firstCode lens k : Int) - shorterCount lens k,
          (firstCode lens k : Int) + lenCount lens k - 1))
      else none := by
  induction n generalizing l with
  | zero => rw [if_neg (by omega)]; rfl
  | succ n ih =>
    rw [codeRows, List.map_cons, ← firstCode_succ hl]
    by_cases hk : l = k
    · subst hk
      rw [if_pos (by omega)]
      simp [Memory.lookup]
    · simp only [Memory.lookup, if_neg hk]
      rw [ih (l := l + 1) (by omega)]
      by_cases h : l + 1 ≤ k ∧ k < l + 1 + n
      · rw [if_pos h, if_pos (by omega)]
      · rw [if_neg h, if_neg (by omega)]

/-- `base` in closed form. -/
theorem base_lookup (lens : List Nat) (k : Nat) :
    Memory.lookup (buildTable lens).base k =
      if lenMin lens ≤ k ∧ k < lenMin lens + (24 - lenMin lens) then
        some ((firstCode lens k : Int) - shorterCount lens k)
      else none := by
  have h := codeRows_lookup (fun r => r.2.1) lens (24 - lenMin lens) (le_refl (lenMin lens)) k
  rw [firstCode_min] at h
  exact h

/-- `limit` in closed form. -/
theorem limit_lookup (lens : List Nat) (k : Nat) :
    Memory.lookup (buildTable lens).limit k =
      if lenMin lens ≤ k ∧ k < lenMin lens + (24 - lenMin lens) then
        some ((firstCode lens k : Int) + lenCount lens k - 1)
      else none := by
  have h := codeRows_lookup (fun r => r.2.2) lens (24 - lenMin lens) (le_refl (lenMin lens)) k
  rw [firstCode_min] at h
  exact h

/-- R212's running sum is the number of shorter symbols. -/
theorem shorterCount_eq {lens : List Nat} (h : ∀ l ∈ lens, 1 ≤ l) (l : Nat) :
    shorterCount lens l = lens.countP (fun k => decide (k < l)) := by
  have base : ∀ l, l ≤ 1 → lens.countP (fun k => decide (k < l)) = 0 := by
    intro l hl
    rw [List.countP_eq_zero]
    intro a ha
    have := h a ha
    simp; omega
  induction l with
  | zero => rw [base 0 (by omega)]; rfl
  | succ l ih =>
    cases l with
    | zero => rw [base 1 (by omega)]; rfl
    | succ l =>
      rw [shorterCount, ih, lenCount]
      clear h base ih
      induction lens with
      | nil => rfl
      | cons a r ih =>
        simp only [List.countP_cons, List.count_cons]
        have e : (if decide (a < l + 1 + 1) = true then 1 else 0)
            = (if decide (a < l + 1) = true then 1 else 0) + (if (a == l + 1) = true then 1 else 0) := by
          simp only [decide_eq_true_eq, beq_iff_eq]
          split <;> split <;> split <;> omega
        omega

/-! ## The ranks -/

theorem mem_symbolsOfLen {l s : Nat} {lens : List Nat} {x : Nat} :
    x ∈ symbolsOfLen l s lens ↔ s ≤ x ∧ lens[x - s]? = some l := by
  induction lens generalizing s with
  | nil => simp [symbolsOfLen]
  | cons k r ih =>
    have key : (x ∈ symbolsOfLen l (s + 1) r) ↔ s + 1 ≤ x ∧ r[x - (s + 1)]? = some l := ih
    have e : s + 1 ≤ x → (k :: r)[x - s]? = r[x - (s + 1)]? := by
      intro h; rw [show x - s = (x - (s + 1)) + 1 by omega]; rfl
    unfold symbolsOfLen
    split
    · rename_i hk
      rw [List.mem_cons, key]
      constructor
      · rintro (rfl | ⟨h1, h2⟩)
        · simp [hk]
        · exact ⟨by omega, by rw [e h1]; exact h2⟩
      · rintro ⟨h1, h2⟩
        by_cases hx : x = s
        · exact .inl hx
        · exact .inr ⟨by omega, by rw [← e (by omega)]; exact h2⟩
    · rename_i hk
      rw [key]
      constructor
      · rintro ⟨h1, h2⟩; exact ⟨by omega, by rw [e h1]; exact h2⟩
      · rintro ⟨h1, h2⟩
        by_cases hx : x = s
        · subst hx; simp at h2; exact absurd h2 hk
        · exact ⟨by omega, by rw [← e (by omega)]; exact h2⟩

theorem symbolsOfLen_length (l s : Nat) (lens : List Nat) :
    (symbolsOfLen l s lens).length = lens.count l := by
  induction lens generalizing s with
  | nil => rfl
  | cons k r ih =>
    unfold symbolsOfLen
    split
    · rename_i hk; subst hk; simp [ih]
    · rename_i hk; rw [ih, List.count_cons_of_ne (fun h => hk h)]

/-- The ranks of the lengths l..l+n-1 are as many as the symbols of these lengths. -/
theorem rankFrom_length (lens : List Nat) (n l : Nat) :
    (rankFrom lens n l).length = lens.countP (fun k => decide (l ≤ k ∧ k < l + n)) := by
  induction n generalizing l with
  | zero =>
    rw [rankFrom, List.length_nil, eq_comm, List.countP_eq_zero]
    intro k _ h
    have := of_decide_eq_true h
    omega
  | succ n ih =>
    rw [rankFrom, List.length_append, symbolsOfLen_length, ih]
    clear ih
    induction lens with
    | nil => rfl
    | cons k r ih =>
      rw [List.count_cons, List.countP_cons, List.countP_cons, ← ih]
      have e : (if decide (l ≤ k ∧ k < l + (n + 1)) = true then 1 else 0)
          = (if (k == l) = true then 1 else 0)
            + (if decide (l + 1 ≤ k ∧ k < l + 1 + n) = true then 1 else 0) := by
        simp only [decide_eq_true_eq, beq_iff_eq]
        split <;> split <;> split <;> omega
      omega

/-- `perm` never has more ranks than the alphabet has symbols. -/
theorem perm_length_le (lens : List Nat) : (buildTable lens).perm.length ≤ lens.length := by
  show (rankFrom lens _ _).length ≤ _
  rw [rankFrom_length]
  exact List.countP_le_length

theorem symbolsOfLen_pairwise (l s : Nat) (lens : List Nat) :
    (symbolsOfLen l s lens).Pairwise (· < ·) := by
  induction lens generalizing s with
  | nil => exact .nil
  | cons k r ih =>
    unfold symbolsOfLen
    split
    · refine List.pairwise_cons.mpr ⟨fun x hx => ?_, ih _⟩
      have := (mem_symbolsOfLen.mp hx).1
      omega
    · exact ih _

theorem mem_rankFrom {lens : List Nat} {n l x : Nat} :
    x ∈ rankFrom lens n l ↔ ∃ k, l ≤ k ∧ k < l + n ∧ lens[x]? = some k := by
  induction n generalizing l with
  | zero => simp [rankFrom]; intro k h1 h2; omega
  | succ n ih =>
    rw [rankFrom, List.mem_append, ih, mem_symbolsOfLen]
    constructor
    · rintro (⟨-, h⟩ | ⟨k, h1, h2, h3⟩)
      · exact ⟨l, by omega, by omega, h⟩
      · exact ⟨k, by omega, by omega, h3⟩
    · rintro ⟨k, h1, h2, h3⟩
      by_cases hk : k = l
      · subst hk; exact .inl ⟨by omega, h3⟩
      · exact .inr ⟨k, by omega, by omega, h3⟩

/-- Every symbol of a table is one of the alphabet's. -/
theorem perm_le_eob {eob : Nat} {lens : List Nat} (h : LensOk eob lens) {x : Nat}
    (hx : x ∈ (buildTable lens).perm) : x ≤ eob := by
  obtain ⟨k, -, -, hk⟩ := mem_rankFrom.mp hx
  have := (List.getElem?_eq_some_iff.mp hk).1
  have := h.1
  omega

end Sys2Proof.Machine
end

