-- ==== Sys2Proof/Laws/PerInstr.lean ====
section
/-! SUPPORT. Laws stated once per instruction: the width of every element's encoding
(spec/30_encoding.md R110, R130). -/

namespace Sys2Proof.Laws.EncodeWidth

open Sys2Proof

/-- The number of bits the table gives the element; `none` for the Huffman-coded ones, whose width is the
recorded code length of their symbol. -/
def fixedWidth : Instr → Option Nat
  | .hdrMagic => some 16
  | .hdrH => some 8
  | .hdrLevel _ => some 8
  | .markBlock => some 48
  | .markEnd => some 48
  | .streamCrc _ => some 32
  | .blkCrc _ => some 32
  | .blkRand _ => some 1
  | .blkOrigPtr _ => some 24
  | .mapUsed _ => some 16
  | .mapPresent _ => some 16
  | .nGroups _ => some 3
  | .nSelectors _ => some 15
  | .selMtf j => some (j + 1)
  | .clStart _ => some 5
  | .clDone => some 1
  | .clInc => some 2
  | .clDec => some 2
  | .runa => none
  | .runb => none
  | .mtfv _ => none
  | .eob => none
  | .rle4Lit _ => some 8
  | .rle4Rep _ => some 8
  | .rle4Run _ => some 8
  | .rle4Count _ => some 8

/-- The element encodes to as many bits as the table gives it. -/
def Statement (i : Instr) : Prop :=
  ∀ (c : Ctx) (n : Nat), fixedWidth i = some n → (encode c i).length = n

theorem hdrMagic : Statement .hdrMagic := by
  intro c n h
  cases h
  simp [encode]

theorem hdrH : Statement .hdrH := by
  intro c n h
  cases h
  simp [encode]

theorem hdrLevel (d : Byte) : Statement (.hdrLevel d) := by
  intro c n h
  cases h
  simp [encode]

theorem markBlock : Statement .markBlock := by
  intro c n h
  cases h
  simp [encode]

theorem markEnd : Statement .markEnd := by
  intro c n h
  cases h
  simp [encode]

theorem streamCrc (crc : Word) : Statement (.streamCrc crc) := by
  intro c n h
  cases h
  simp [encode]

theorem blkCrc (crc : Word) : Statement (.blkCrc crc) := by
  intro c n h
  cases h
  simp [encode]

theorem blkRand (r : Bool) : Statement (.blkRand r) := by
  intro c n h
  cases h
  simp [encode]

theorem blkOrigPtr (p : BitVec 24) : Statement (.blkOrigPtr p) := by
  intro c n h
  cases h
  simp [encode]

theorem mapUsed (m : BitVec 16) : Statement (.mapUsed m) := by
  intro c n h
  cases h
  simp [encode]

theorem mapPresent (p : BitVec 16) : Statement (.mapPresent p) := by
  intro c n h
  cases h
  simp [encode]

theorem nGroups (n : BitVec 3) : Statement (.nGroups n) := by
  intro c n h
  cases h
  simp [encode]

theorem nSelectors (k : BitVec 15) : Statement (.nSelectors k) := by
  intro c n h
  cases h
  simp [encode]

theorem selMtf (j : Nat) : Statement (.selMtf j) := by
  intro c n h
  cases h
  simp [encode]

theorem clStart (l : BitVec 5) : Statement (.clStart l) := by
  intro c n h
  cases h
  simp [encode]

theorem clDone : Statement .clDone := by
  intro c n h
  cases h
  simp [encode]

theorem clInc : Statement .clInc := by
  intro c n h
  cases h
  simp [encode]

theorem clDec : Statement .clDec := by
  intro c n h
  cases h
  simp [encode]

theorem runa : Statement .runa := by
  intro c n h
  cases h

theorem runb : Statement .runb := by
  intro c n h
  cases h

theorem mtfv (s : Nat) : Statement (.mtfv s) := by
  intro c n h
  cases h

theorem eob : Statement .eob := by
  intro c n h
  cases h

theorem rle4Lit (b : Byte) : Statement (.rle4Lit b) := by
  intro c n h
  cases h
  simp [encode]

theorem rle4Rep (b : Byte) : Statement (.rle4Rep b) := by
  intro c n h
  cases h
  simp [encode]

theorem rle4Run (b : Byte) : Statement (.rle4Run b) := by
  intro c n h
  cases h
  simp [encode]

theorem rle4Count (n : Byte) : Statement (.rle4Count n) := by
  intro c n h
  cases h
  simp [encode]

end Sys2Proof.Laws.EncodeWidth
end

