-- ==== Sys2Proof/Machine/Pseudo.lean ====
section
/-! DEFINITION. The pseudo-instructions of the stream notation: which elements each stands for
(spec/30_encoding.md R129). The core never sees them; `step` does not use this file. -/

namespace Sys2Proof.Machine

/-- `HDR d`, with d the digit 1..9. -/
def expandHdr (d : Nat) : List Instr := [.hdrMagic, .hdrH, .hdrLevel (BitVec.ofNat 8 (0x30 + d))]

/-- `BLOCK crc p r`; the notation's default for r is 0. -/
def expandBlock (crc : Word) (p : BitVec 24) (r : Bool := false) : List Instr :=
  [.markBlock, .blkCrc crc, .blkRand r, .blkOrigPtr p]

/-- The 16-bit map whose bit 15 - k is set exactly for the k that `used` accepts. -/
def mapOf (used : Nat → Bool) : BitVec 16 :=
  BitVec.ofNat 16 (bitsToNat ((List.range 16).map used))

/-- `MAP v1,v2,…`: MAP_USED, then one MAP_PRESENT for each used range in ascending order. -/
def expandMap (values : List Nat) : List Instr :=
  .mapUsed (mapOf (fun i => values.any (fun v => v / 16 == i)))
    :: ((List.range 16).filter (fun i => values.any (fun v => v / 16 == i))).map
        (fun i => .mapPresent (mapOf (fun j => values.any (fun v => v / 16 == i && v % 16 == j))))

/-- `TABLES n k`. -/
def expandTables (n : BitVec 3) (k : BitVec 15) : List Instr := [.nGroups n, .nSelectors k]

/-- `SEL t`: the element that selects table `t`, whose place in `selFL` now is its unary index. -/
def expandSel (selFL : List Byte) (t : Byte) : List Instr := [.selMtf (selFL.idxOf t)]

/-- The lengths after the start, from the running length `prev` on: `CLEN`'s part for each symbol. -/
def clenFrom : Nat → List Nat → List Instr
  | _, [] => []
  | prev, l :: rest =>
    (if prev < l then List.replicate (l - prev) .clInc else List.replicate (prev - l) .clDec)
      ++ .clDone :: clenFrom l rest

/-- `CLEN l1 l2 … lA`. -/
def expandClen : List Nat → List Instr
  | [] => []
  | l :: rest => .clStart (BitVec.ofNat 5 l) :: clenFrom l (l :: rest)

/-- The bijective base-2 digits of `n`, least significant first: `true` is the digit 2 (RUNB). `fuel` is
at least the number of digits. -/
def runDigits : Nat → Nat → List Bool
  | 0, _ => []
  | fuel + 1, n =>
    if n = 0 then []
    else if n % 2 = 1 then false :: runDigits fuel ((n - 1) / 2)
    else true :: runDigits fuel ((n - 2) / 2)

/-- `RUN n`. -/
def expandRun (n : Nat) : List Instr := (runDigits n n).map (fun two => if two then .runb else .runa)

/-- `LIT k`, with k the move-to-front index, at least 1. -/
def expandLit (k : Nat) : List Instr := [.mtfv (k + 1)]

/-- `END crc`. -/
def expandEnd (crc : Word) : List Instr := [.markEnd, .streamCrc crc]

/-- `PAD`: the zero bits from a stream of `length` bits to the next byte boundary. -/
def padBits (length : Nat) : List Bool := List.replicate ((8 - length % 8) % 8) false

end Sys2Proof.Machine
end

