-- ==== Sys2Proof/Laws/Pseudo.lean ====
section
/-! SUPPORT. The expansion of `RUN n` is a run of exactly n (spec/30_encoding.md R129): its digits, each of
weight twice the one before (spec/45_symbol_decode.md R281, R282), add up to n. -/

namespace Sys2Proof.Machine

/-- What a list of bijective base-2 digits adds up to. -/
def digitsValue : List Bool → Nat
  | [] => 0
  | two :: rest => (if two then 2 else 1) + 2 * digitsValue rest

theorem digitsValue_runDigits (fuel : Nat) : ∀ n, n ≤ fuel → digitsValue (runDigits fuel n) = n := by
  induction fuel with
  | zero => intro n h; simp [runDigits, digitsValue]; omega
  | succ fuel ih =>
    intro n h
    unfold runDigits
    split
    · simp [digitsValue]; omega
    · split
      · rw [digitsValue, ih _ (by omega)]; simp; omega
      · rw [digitsValue, ih _ (by omega)]; simp; omega

theorem expandRun_value (n : Nat) : digitsValue (runDigits n n) = n :=
  digitsValue_runDigits n n (Nat.le_refl n)

end Sys2Proof.Machine
end

