-- ==== Sys2Proof/Laws/Tables.lean ====
section
/-! SUPPORT. The canonical form of what the internal stages build: decode tables, merged pointers, the block
after a run flush; and the memories after reset. -/

namespace Sys2Proof.Machine

theorem codeRows_wf {α : Type} (f : Nat × Int × Int → α) (lens : List Nat) (n l code : Nat) :
    Memory.wfFrom l ((codeRows lens n l code).map (fun r => (r.1, f r))) = true := by
  induction n generalizing l code with
  | zero => rfl
  | succ n ih => simp [codeRows, Memory.wfFrom, ih]

theorem codeRows_within {α : Type} (f : Nat × Int × Int → α) (lens : List Nat) {n l b : Nat} (code : Nat)
    (h : l + n ≤ b ∨ n = 0) :
    Memory.within b ((codeRows lens n l code).map (fun r => (r.1, f r))) = true := by
  induction n generalizing l code with
  | zero => rfl
  | succ n ih =>
    have := ih (l := l + 1) ((code + lenCount lens l) * 2) (by omega)
    simp only [codeRows, List.map_cons, Memory.within, List.all_cons, Bool.and_eq_true,
      decide_eq_true_eq] at this ⊢
    exact ⟨by omega, this⟩

/-- A table's slots are in canonical form and inside LENGTH_SLOTS, and its ranks inside MAX_SYMBOLS. -/
theorem buildTable_wf {lens : List Nat} (hl : lens.length ≤ Config.maxSymbols) :
    tableWf (buildTable lens) = true := by
  have hp : (buildTable lens).perm.length ≤ Config.memSize .perm := le_trans (perm_length_le lens) hl
  simp only [tableWf, Bool.and_eq_true, hp, decide_true, and_true]
  simp only [buildTable, tableRows]
  have h : lenMin lens + (Config.maxCodeLen + 1 - lenMin lens) ≤ Config.lengthSlots
      ∨ Config.maxCodeLen + 1 - lenMin lens = 0 := by
    simp [Config.maxCodeLen, Config.lengthSlots]; omega
  refine ⟨⟨⟨?_, codeRows_within (fun r => r.2.1) _ _ h⟩, ?_⟩, codeRows_within (fun r => r.2.2) _ _ h⟩
  · exact Memory.wfFrom_mono (Nat.zero_le _) (codeRows_wf (fun r => r.2.1) lens _ _ _)
  · exact Memory.wfFrom_mono (Nat.zero_le _) (codeRows_wf (fun r => r.2.2) lens _ _ _)

/-- The bucket offsets of any `n` byte values: never a fault, and each the sum of the counts before it
(spec/46_bwt.md R302). -/
theorem bucketFrom_ok (h : Memory Nat) {n v : Nat} (hv : v + n ≤ 256) (acc : Nat) :
    ∃ bkt, bucketFrom h n v acc = .ok bkt ∧ bkt.length = n
      ∧ ∀ k, k < n → bkt[k]? = some (acc + ((List.range k).map (fun u => histAt h (v + u))).sum) := by
  induction n generalizing v acc with
  | zero => exact ⟨[], rfl, rfl, fun k hk => absurd hk (Nat.not_lt_zero k)⟩
  | succ n ih =>
    obtain ⟨bkt, h1, h2, h3⟩ := ih (v := v + 1) (by omega) (acc + histAt h v)
    have hr : histRead h v = .ok (histAt h v) := if_neg (by simp [Config.memSize]; omega)
    refine ⟨acc :: bkt, by simp only [bucketFrom, hr, h1], by simp [h2], fun k hk => ?_⟩
    cases k with
    | zero => simp
    | succ k =>
      rw [List.getElem?_cons_succ, h3 k (by omega), List.range_succ_eq_map]
      simp [Function.comp_def, Nat.add_assoc, Nat.add_comm 1]

/-- `bkt[v]` is the number of bytes below `v` in the block's histogram (R302). -/
theorem bucketStarts_ok (h : Memory Nat) :
    ∃ bkt, bucketStarts h = .ok bkt ∧ bkt.length = 256
      ∧ ∀ v, v < 256 → bkt[v]? = some ((List.range v).map (histAt h)).sum := by
  simpa [bucketStarts] using bucketFrom_ok h (n := 256) (v := 0) (by omega) 0

/-- The merged-pointer build keeps the canonical form. -/
theorem buildMpFrom_wf {block : Memory Byte} {len n i : Nat} {bkt : List Nat} {m m' : Memory Word}
    (h : buildMpFrom block len n i bkt m = .ok m')
    (hm : Memory.wf m = true ∧ Memory.within Config.maxBlock m = true) :
    Memory.wf m' = true ∧ Memory.within Config.maxBlock m' = true := by
  induction n generalizing i bkt m with
  | zero => cases h; exact hm
  | succ n ih =>
    unfold buildMpFrom at h
    split at h
    · cases h
    · split at h
      · cases h
      · rename_i m1 hw
        obtain ⟨hi, rfl⟩ := memWrite_eq_ok.mp hw
        exact ih h ⟨Memory.wf_insert _ _ hm.1, Memory.within_insert _ hi hm.2⟩

theorem buildMp_wf {s : State} {m : Memory Word} (h : buildMp s = .ok m)
    (hm : Memory.wf s.mp = true ∧ Memory.within Config.maxBlock s.mp = true) :
    Memory.wf m = true ∧ Memory.within Config.maxBlock m = true := by
  unfold buildMp at h
  split at h
  · cases h
  · exact buildMpFrom_wf h hm

/-- Block init's FrontLists are whole (spec/42_frontlist.md R200). -/
@[simp] theorem identityList_length : identityList.length = 256 := by
  simp [identityList]

/-- A promotion keeps the list's length. -/
theorem promote_length {fl : List Byte} {i : Nat} {v : Byte} (h : fl[i]? = some v) :
    (v :: (fl.take i ++ fl.drop (i + 1))).length = fl.length := by
  have := (List.getElem?_eq_some_iff.mp h).1
  simp; omega

/-- Code lengths that could be read are those of an alphabet that fits (spec/20_memory.md R83). -/
theorem codeLensFrom_length_le {m : Memory Nat} {t n : Nat} {ls : List Nat}
    (h : codeLensFrom m t (n + 1) 0 = .ok ls) : ls.length ≤ Config.maxSymbols := by
  suffices H : ∀ n s ls, codeLensFrom m t n s = .ok ls → n = 0 ∨ s + n ≤ Config.maxSymbols by
    have := (codeLensFrom_eq_ok h).1
    have := H _ _ _ h
    omega
  intro n
  induction n with
  | zero => intro s ls _; exact .inl rfl
  | succ n ih =>
    intro s ls h
    unfold codeLensFrom at h
    split at h
    · cases h
    · rename_i l hl
      obtain ⟨-, hs, -⟩ := codeLenRead_eq_ok.mp hl
      split at h
      · cases h
      · rename_i hls
        have := ih _ _ hls
        omega

/-- The run flush keeps every memory's canonical form. -/
theorem flushRun_memoriesWf {s t : State} (hs : s.MemoriesWf) (h : flushRun (countSymbol s) = .ok t) :
    t.MemoriesWf := by
  obtain ⟨-, rfl⟩ | ⟨v, m, -, -, -, hw, rfl⟩ := flushRun_eq_ok h
  · exact ⟨hs.symMap, hs.selectors, hs.codeLen, hs.tables, hs.slots, hs.bwtBlock, hs.hist, hs.histNoZero,
      hs.mp, hs.selFL, hs.mtfFL⟩
  · obtain ⟨-, -, h3, h4⟩ := writeRun_eq_ok hw
    exact ⟨hs.symMap, hs.selectors, hs.codeLen, hs.tables, hs.slots,
      ⟨h3 hs.bwtBlock.1, h4 hs.bwtBlock.2⟩,
      ⟨histAdd_wf _ _ hs.hist.1, histAdd_within _ v.isLt hs.hist.2⟩, histAdd_noZero _ _ hs.histNoZero,
      hs.mp, hs.selFL, hs.mtfFL⟩

/-- The walk keeps every memory. -/
theorem nextBWT_memoriesWf {s t : State} {b? : Option Byte} (hs : s.MemoriesWf)
    (h : nextBWT s = .ok (b?, t)) : t.MemoriesWf := by
  rw [nextBWT_frame h]
  exact ⟨hs.symMap, hs.selectors, hs.codeLen, hs.tables, hs.slots, hs.bwtBlock, hs.hist, hs.histNoZero,
    hs.mp, hs.selFL, hs.mtfFL⟩

/-! ## Occurrences in the block (spec/45_symbol_decode.md R287) -/

theorem occurrences_succ (m : Memory Byte) (n : Nat) (v : Byte) :
    occurrences m (n + 1) v = occurrences m n v + if Memory.lookup m n = some v then 1 else 0 := by
  simp [occurrences, List.range_succ, List.countP_append, List.countP_cons]

theorem occurrences_congr {m m' : Memory Byte} {n : Nat} {v : Byte}
    (h : ∀ i, i < n → Memory.lookup m' i = Memory.lookup m i) : occurrences m' n v = occurrences m n v := by
  unfold occurrences
  apply List.countP_congr
  intro i hi
  simp only [List.mem_range] at hi
  rw [h i hi]

/-- `k` copies of `u` written behind the first `n` elements. -/
theorem occurrences_run {m m' : Memory Byte} {n k : Nat} {u v : Byte}
    (h : ∀ i, Memory.lookup m' i = if n ≤ i ∧ i < n + k then some u else Memory.lookup m i) :
    occurrences m' (n + k) v = occurrences m n v + if u = v then k else 0 := by
  suffices H : ∀ j, j ≤ k → occurrences m' (n + j) v = occurrences m n v + if u = v then j else 0 from
    H k (le_refl k)
  intro j
  induction j with
  | zero => intro _; simp; exact occurrences_congr (fun i hi => by rw [h, if_neg (by omega)])
  | succ j ih =>
    intro hj
    have e : Memory.lookup m' (n + j) = some u := by rw [h, if_pos ⟨by omega, by omega⟩]
    rw [← Nat.add_assoc, occurrences_succ, ih (by omega), e]
    by_cases hu : u = v
    · simp [hu]; omega
    · simp [hu]

/-- The memories after reset are in canonical form. -/
theorem reset_memoriesWf : State.reset.MemoriesWf :=
  ⟨⟨rfl, rfl⟩, ⟨rfl, rfl⟩, ⟨rfl, rfl⟩, ⟨rfl, rfl⟩, rfl, ⟨rfl, rfl⟩, ⟨rfl, rfl⟩, rfl, ⟨rfl, rfl⟩,
    .inl rfl, .inl rfl⟩

end Sys2Proof.Machine
end

