-- ==== Sys2Proof/Laws/Reading.lean ====
section
/-! SUPPORT. How a core step reads: at an element's slot the step is `elementStep` in that element's context,
and a FIX element is read chunk by chunk and then run. -/

namespace Sys2Proof.Machine

theorem step_elementStep {sl : Slot} {s : State} {c : Ctx} (h : AtElement sl s)
    (hc : ctxOf s = .ok (some c)) : step s = elementStep c s := by
  obtain ⟨he, ha, hs⟩ := h
  simp [step, he, coreStep, ha, hc]

theorem readsField_of_fixed {sl : Slot} {c : Ctx} {n chunk : Nat} (hsl : sl ≠ .rle) (hsl' : sl ≠ .rleCount)
    (hc : ∀ s : State, s.slot = sl → ctxOf s = .ok (some c))
    (hd : ∃ k, ∀ bits, decodeBits c bits = fixed n chunk k bits) (h0 : 0 < chunk) :
    ReadsField sl n chunk := by
  obtain ⟨k, hd⟩ := hd
  intro s h hl
  rw [step_elementStep h (hc s h.2.2), elementStep, hd, fixed, if_pos (by omega)]
  have : min chunk (n - s.latch.length) = chunk := by omega
  simp only [this]
  unfold fetchMore
  rw [h.2.2]
  split <;> simp_all

theorem runsField_of_fixed {sl : Slot} {c : Ctx} {n chunk : Nat} {mk : Nat → Instr}
    (hc : ∀ s : State, s.slot = sl → ctxOf s = .ok (some c))
    (hd : ∀ bits, decodeBits c bits = fixed n chunk (fun v => .instr (mk v)) bits) :
    RunsField sl n mk := by
  intro s h hl
  rw [step_elementStep h (hc s h.2.2), elementStep, hd, fixed, if_neg (by omega)]

/-- An internal stage's step. -/
theorem step_stageStep {sl : Slot} {s : State} (h : AtElement sl s) (hc : ctxOf s = .ok none) :
    step s = stageStep s := by
  obtain ⟨he, ha, hs⟩ := h
  simp [step, he, coreStep, ha, hc]

/-- Without a byte ready, the streaming loop's step is the copy, the walk byte or the block end. -/
theorem step_walkStep {s : State} (h : AtElement .rle s) (hl : s.latch = []) : step s = walkStep s := by
  have hd : decodeBits (.rle s.rleLast s.rleAcc) s.latch = .more 8 := by rw [hl]; rfl
  rw [step_elementStep h (c := .rle s.rleLast s.rleAcc) (by simp only [ctxOf, h.2.2]), elementStep, hd]
  simp only [fetchMore, h.2.2]

end Sys2Proof.Machine
end

