-- ==== Sys2Proof/Tests/Slice0.lean ====
section
/-! SUPPORT. The model's own tests, each on a word or a value the spec prints (spec/30_encoding.md,
spec/95_test_vectors.md; the vector is named beside it), and a witness for every statement that has
hypotheses. -/

namespace Sys2Proof.Tests

open Sys2Proof Sys2Proof.Machine

/-! ## Helpers -/

/-- A field of the next state. -/
def after {α : Type} (r : Result) (f : State → α) : Option α :=
  match r with
  | .next t => some (f t)
  | .fault _ => none
  | .refused _ => none

/-- A byte as eight bits, first bit most significant. -/
def b8 (n : Nat) : List Bool := natToBits 8 n

/-- The core standing at slot `sl` with `bits` read, in front of a sink that takes everything. -/
def atSlot (sl : Slot) (bits : List Bool) : State :=
  { State.reset with
    phase := (slotPosition sl).1, bphase := (slotPosition sl).2, slot := sl, latch := bits
    snkRoom := none, mult := 1#4 }

/-- The block "nnbaaa" of vector W2, its symbols complete. -/
def blockW2 : State :=
  { atSlot .invert [] with
    bwtBlock := [(0, 0x6E#8), (1, 0x6E#8), (2, 0x62#8), (3, 0x61#8), (4, 0x61#8), (5, 0x61#8)]
    bwtLen := 6, hist := [(0x61, 3), (0x62, 1), (0x6E, 2)], origPtr := 3#24 }

/-- The walk of a one-byte block "a" at its start. -/
def walkA (bits : List Bool) : State :=
  { atSlot .rle bits with
    bwtBlock := [(0, 0x61#8)], bwtLen := 1, hist := [(0x61, 1)], mp := [(0, 0x61#32)], cursor := 0x61#32 }

/-! ## Well-formedness refuses what no encoding holds (spec/30_encoding.md R119, R121) -/

theorem test_wf_selMtf_6 : Instr.wellFormed (.selMtf 6) = false := by decide
theorem test_wf_selMtf_5 : Instr.wellFormed (.selMtf 5) = true := by decide
theorem test_wf_mtfv_0 : Instr.wellFormed (.mtfv 0) = false := by decide
theorem test_wf_mtfv_1 : Instr.wellFormed (.mtfv 1) = false := by decide
theorem test_wf_mtfv_257 : Instr.wellFormed (.mtfv 257) = false := by decide
theorem test_wf_mtfv_256 : Instr.wellFormed (.mtfv 256) = true := by decide

/-! ## Decoding: one word written out for every constructor (spec/30_encoding.md R113 to R123) -/

/-- R113: 'B' 'Z'. -/
theorem test_decode_hdrMagic :
    decode (.hdrMagic) ([false, true, false, false, false, false, true, false, false, true, false, true, true,
      false, true, false]) = some (.hdrMagic, []) := by decide

/-- R113: 'h'. -/
theorem test_decode_hdrH :
    decode (.hdrH) ([false, true, true, false, true, false, false, false]) = some (.hdrH, []) := by decide

/-- P1: '9'. -/
theorem test_decode_hdrLevel :
    decode (.hdrLevel) ([false, false, true, true, true, false, false, true]) = some (.hdrLevel 0x39#8, []) := by decide

/-- P2. -/
theorem test_decode_markBlock :
    decode (.marker) ([false, false, true, true, false, false, false, true, false, true, false, false, false,
      false, false, true, false, true, false, true, true, false, false, true, false, false, true,
      false, false, true, true, false, false, true, false, true, false, false, true, true, false,
      true, false, true, true, false, false, true]) = some (.markBlock, []) := by decide

/-- P1. -/
theorem test_decode_markEnd :
    decode (.marker) ([false, false, false, true, false, true, true, true, false, true, true, true, false, false,
      true, false, false, true, false, false, false, true, false, true, false, false, true, true,
      true, false, false, false, false, true, false, true, false, false, false, false, true,
      false, false, true, false, false, false, false]) = some (.markEnd, []) := by decide

/-- P2. -/
theorem test_decode_streamCrc :
    decode (.streamCrc) ([false, true, true, false, false, true, false, false, true, false, false, false, true,
      true, false, false, true, false, true, true, true, false, true, true, false, true, true,
      true, false, false, true, true]) = some (.streamCrc 0x648CBB73#32, []) := by decide

/-- P2. -/
theorem test_decode_blkCrc :
    decode (.blkCrc) ([false, true, true, false, false, true, false, false, true, false, false, false, true,
      true, false, false, true, false, true, true, true, false, true, true, false, true, true,
      true, false, false, true, true]) = some (.blkCrc 0x648CBB73#32, []) := by decide

/-- R116. -/
theorem test_decode_blkRand :
    decode (.blkRand) ([true]) = some (.blkRand true, []) := by decide

/-- P4, block 2. -/
theorem test_decode_blkOrigPtr :
    decode (.blkOrigPtr) ([false, false, false, false, false, false, false, false, false, false, false, false, false,
      false, false, false, false, false, false, false, false, false, true, true]) = some (.blkOrigPtr 3#24, []) := by decide

/-- T1. -/
theorem test_decode_mapUsed :
    decode (.mapUsed) ([false, false, false, false, false, false, true, false, false, false, false, false, false,
      false, false, false]) = some (.mapUsed 0x0200#16, []) := by decide

/-- T3. -/
theorem test_decode_mapPresent :
    decode (.mapPresent) ([false, false, false, false, false, true, false, false, true, false, false, false, true,
      false, false, true]) = some (.mapPresent 0x0489#16, []) := by decide

/-- P2. -/
theorem test_decode_nGroups :
    decode (.nGroups) ([false, true, false]) = some (.nGroups 2#3, []) := by decide

/-- P2. -/
theorem test_decode_nSelectors :
    decode (.nSelectors) ([false, false, false, false, false, false, false, false, false, false, false, false, false,
      false, true]) = some (.nSelectors 1#15, []) := by decide

/-- T9. -/
theorem test_decode_selMtf :
    decode (.selMtf 2) ([true, false]) = some (.selMtf 1, []) := by decide

/-- T11. -/
theorem test_decode_clStart :
    decode (.clStart) ([false, false, false, true, false]) = some (.clStart 2#5, []) := by decide

/-- T11. -/
theorem test_decode_clDone :
    decode (.cld) ([false]) = some (.clDone, []) := by decide

/-- T11. -/
theorem test_decode_clInc :
    decode (.cld) ([true, false]) = some (.clInc, []) := by decide

/-- T12. -/
theorem test_decode_clDec :
    decode (.cld) ([true, true]) = some (.clDec, []) := by decide

/-- H5, the table of P2 and P3. -/
theorem test_decode_runa :
    decode (.symbol [2, 2, 2, 3, 3] (buildTable [2, 2, 2, 3, 3]) 4) [false, false] = some (.runa, []) := by decide

/-- H5, the table of P2 and P3. -/
theorem test_decode_runb :
    decode (.symbol [2, 2, 2, 3, 3] (buildTable [2, 2, 2, 3, 3]) 4) [false, true] = some (.runb, []) := by decide

/-- H5, the table of P2 and P3. -/
theorem test_decode_mtfv :
    decode (.symbol [2, 2, 2, 3, 3] (buildTable [2, 2, 2, 3, 3]) 4) [true, true, false] = some (.mtfv 3, []) := by decide

/-- H5, the table of P2 and P3. -/
theorem test_decode_eob :
    decode (.symbol [2, 2, 2, 3, 3] (buildTable [2, 2, 2, 3, 3]) 4) [true, true, true] = some (.eob, []) := by decide

/-- R1. -/
theorem test_decode_rle4Lit :
    decode (.rle none 0) [false, true, true, true, true, false, false, false] = some (.rle4Lit 0x78#8, []) := by decide

/-- R2. -/
theorem test_decode_rle4Rep :
    decode (.rle (some 0x78#8) 2) [false, true, true, true, true, false, false, false] = some (.rle4Rep 0x78#8, []) := by decide

/-- R3. -/
theorem test_decode_rle4Run :
    decode (.rle (some 0x78#8) 3) [false, true, true, true, true, false, false, false] = some (.rle4Run 0x78#8, []) := by decide

/-- R3. -/
theorem test_decode_rle4Count :
    decode .rleCount [false, false, false, false, false, false, true, true] = some (.rle4Count 3#8, []) := by decide

/-- 0x4259 is no HDR_MAGIC (S1). -/
theorem test_decode_badMagic : decodeBits .hdrMagic (natToBits 16 0x4259) = .reject .magic := by decide

/-- A 48-bit value that is neither marker is rejected (S6). -/
theorem test_decode_badMarker : decodeBits .marker (natToBits 48 0) = .reject .marker := by decide

/-- The second 1 bit of a selector is rejected when there are two tables (T9). -/
theorem test_decode_badSelMtf : decodeBits (.selMtf 2) [true, true] = .reject .selMtf := by decide

/-- H7: 23 one-bits are no code, and no 24th bit is asked for. -/
theorem test_decode_badCode :
    decodeBits (.symbol [] (buildTable [2, 2, 2]) 2) (List.replicate 23 true) = .reject .badCode := by
  decide

/-- The host's table words in the table's own numbering. -/
theorem test_tableWord_hdrMagic : decodeTableWord 16 0x425A = some .hdrMagic := by decide
theorem test_tableWord_markEnd : decodeTableWord 48 0x177245385090 = some .markEnd := by decide
theorem test_tableWord_clDec : decodeTableWord 2 3 = some .clDec := by decide

/-! ## CRC (spec/41_crc.md R182; spec/95_test_vectors.md K1, K9, K15) -/

theorem test_crct_00 : (List.range 32).map (fun i => crct (BitVec.ofNat 8 (0x00 + i))) =
    [0x00000000#32, 0x04C11DB7#32, 0x09823B6E#32, 0x0D4326D9#32, 0x130476DC#32, 0x17C56B6B#32,
     0x1A864DB2#32, 0x1E475005#32, 0x2608EDB8#32, 0x22C9F00F#32, 0x2F8AD6D6#32, 0x2B4BCB61#32,
     0x350C9B64#32, 0x31CD86D3#32, 0x3C8EA00A#32, 0x384FBDBD#32, 0x4C11DB70#32, 0x48D0C6C7#32,
     0x4593E01E#32, 0x4152FDA9#32, 0x5F15ADAC#32, 0x5BD4B01B#32, 0x569796C2#32, 0x52568B75#32,
     0x6A1936C8#32, 0x6ED82B7F#32, 0x639B0DA6#32, 0x675A1011#32, 0x791D4014#32, 0x7DDC5DA3#32,
     0x709F7B7A#32, 0x745E66CD#32] := by decide

theorem test_crct_20 : (List.range 32).map (fun i => crct (BitVec.ofNat 8 (0x20 + i))) =
    [0x9823B6E0#32, 0x9CE2AB57#32, 0x91A18D8E#32, 0x95609039#32, 0x8B27C03C#32, 0x8FE6DD8B#32,
     0x82A5FB52#32, 0x8664E6E5#32, 0xBE2B5B58#32, 0xBAEA46EF#32, 0xB7A96036#32, 0xB3687D81#32,
     0xAD2F2D84#32, 0xA9EE3033#32, 0xA4AD16EA#32, 0xA06C0B5D#32, 0xD4326D90#32, 0xD0F37027#32,
     0xDDB056FE#32, 0xD9714B49#32, 0xC7361B4C#32, 0xC3F706FB#32, 0xCEB42022#32, 0xCA753D95#32,
     0xF23A8028#32, 0xF6FB9D9F#32, 0xFBB8BB46#32, 0xFF79A6F1#32, 0xE13EF6F4#32, 0xE5FFEB43#32,
     0xE8BCCD9A#32, 0xEC7DD02D#32] := by decide

theorem test_crct_40 : (List.range 32).map (fun i => crct (BitVec.ofNat 8 (0x40 + i))) =
    [0x34867077#32, 0x30476DC0#32, 0x3D044B19#32, 0x39C556AE#32, 0x278206AB#32, 0x23431B1C#32,
     0x2E003DC5#32, 0x2AC12072#32, 0x128E9DCF#32, 0x164F8078#32, 0x1B0CA6A1#32, 0x1FCDBB16#32,
     0x018AEB13#32, 0x054BF6A4#32, 0x0808D07D#32, 0x0CC9CDCA#32, 0x7897AB07#32, 0x7C56B6B0#32,
     0x71159069#32, 0x75D48DDE#32, 0x6B93DDDB#32, 0x6F52C06C#32, 0x6211E6B5#32, 0x66D0FB02#32,
     0x5E9F46BF#32, 0x5A5E5B08#32, 0x571D7DD1#32, 0x53DC6066#32, 0x4D9B3063#32, 0x495A2DD4#32,
     0x44190B0D#32, 0x40D816BA#32] := by decide

theorem test_crct_60 : (List.range 32).map (fun i => crct (BitVec.ofNat 8 (0x60 + i))) =
    [0xACA5C697#32, 0xA864DB20#32, 0xA527FDF9#32, 0xA1E6E04E#32, 0xBFA1B04B#32, 0xBB60ADFC#32,
     0xB6238B25#32, 0xB2E29692#32, 0x8AAD2B2F#32, 0x8E6C3698#32, 0x832F1041#32, 0x87EE0DF6#32,
     0x99A95DF3#32, 0x9D684044#32, 0x902B669D#32, 0x94EA7B2A#32, 0xE0B41DE7#32, 0xE4750050#32,
     0xE9362689#32, 0xEDF73B3E#32, 0xF3B06B3B#32, 0xF771768C#32, 0xFA325055#32, 0xFEF34DE2#32,
     0xC6BCF05F#32, 0xC27DEDE8#32, 0xCF3ECB31#32, 0xCBFFD686#32, 0xD5B88683#32, 0xD1799B34#32,
     0xDC3ABDED#32, 0xD8FBA05A#32] := by decide

theorem test_crct_80 : (List.range 32).map (fun i => crct (BitVec.ofNat 8 (0x80 + i))) =
    [0x690CE0EE#32, 0x6DCDFD59#32, 0x608EDB80#32, 0x644FC637#32, 0x7A089632#32, 0x7EC98B85#32,
     0x738AAD5C#32, 0x774BB0EB#32, 0x4F040D56#32, 0x4BC510E1#32, 0x46863638#32, 0x42472B8F#32,
     0x5C007B8A#32, 0x58C1663D#32, 0x558240E4#32, 0x51435D53#32, 0x251D3B9E#32, 0x21DC2629#32,
     0x2C9F00F0#32, 0x285E1D47#32, 0x36194D42#32, 0x32D850F5#32, 0x3F9B762C#32, 0x3B5A6B9B#32,
     0x0315D626#32, 0x07D4CB91#32, 0x0A97ED48#32, 0x0E56F0FF#32, 0x1011A0FA#32, 0x14D0BD4D#32,
     0x19939B94#32, 0x1D528623#32] := by decide

theorem test_crct_a0 : (List.range 32).map (fun i => crct (BitVec.ofNat 8 (0xA0 + i))) =
    [0xF12F560E#32, 0xF5EE4BB9#32, 0xF8AD6D60#32, 0xFC6C70D7#32, 0xE22B20D2#32, 0xE6EA3D65#32,
     0xEBA91BBC#32, 0xEF68060B#32, 0xD727BBB6#32, 0xD3E6A601#32, 0xDEA580D8#32, 0xDA649D6F#32,
     0xC423CD6A#32, 0xC0E2D0DD#32, 0xCDA1F604#32, 0xC960EBB3#32, 0xBD3E8D7E#32, 0xB9FF90C9#32,
     0xB4BCB610#32, 0xB07DABA7#32, 0xAE3AFBA2#32, 0xAAFBE615#32, 0xA7B8C0CC#32, 0xA379DD7B#32,
     0x9B3660C6#32, 0x9FF77D71#32, 0x92B45BA8#32, 0x9675461F#32, 0x8832161A#32, 0x8CF30BAD#32,
     0x81B02D74#32, 0x857130C3#32] := by decide

theorem test_crct_c0 : (List.range 32).map (fun i => crct (BitVec.ofNat 8 (0xC0 + i))) =
    [0x5D8A9099#32, 0x594B8D2E#32, 0x5408ABF7#32, 0x50C9B640#32, 0x4E8EE645#32, 0x4A4FFBF2#32,
     0x470CDD2B#32, 0x43CDC09C#32, 0x7B827D21#32, 0x7F436096#32, 0x7200464F#32, 0x76C15BF8#32,
     0x68860BFD#32, 0x6C47164A#32, 0x61043093#32, 0x65C52D24#32, 0x119B4BE9#32, 0x155A565E#32,
     0x18197087#32, 0x1CD86D30#32, 0x029F3D35#32, 0x065E2082#32, 0x0B1D065B#32, 0x0FDC1BEC#32,
     0x3793A651#32, 0x3352BBE6#32, 0x3E119D3F#32, 0x3AD08088#32, 0x2497D08D#32, 0x2056CD3A#32,
     0x2D15EBE3#32, 0x29D4F654#32] := by decide

theorem test_crct_e0 : (List.range 32).map (fun i => crct (BitVec.ofNat 8 (0xE0 + i))) =
    [0xC5A92679#32, 0xC1683BCE#32, 0xCC2B1D17#32, 0xC8EA00A0#32, 0xD6AD50A5#32, 0xD26C4D12#32,
     0xDF2F6BCB#32, 0xDBEE767C#32, 0xE3A1CBC1#32, 0xE760D676#32, 0xEA23F0AF#32, 0xEEE2ED18#32,
     0xF0A5BD1D#32, 0xF464A0AA#32, 0xF9278673#32, 0xFDE69BC4#32, 0x89B8FD09#32, 0x8D79E0BE#32,
     0x803AC667#32, 0x84FBDBD0#32, 0x9ABC8BD5#32, 0x9E7D9662#32, 0x933EB0BB#32, 0x97FFAD0C#32,
     0xAFB010B1#32, 0xAB710D06#32, 0xA6322BDF#32, 0xA2F33668#32, 0xBCB4666D#32, 0xB8757BDA#32,
     0xB5365D03#32, 0xB1F740B4#32] := by decide

/-- K1: the check value. -/
theorem test_crc_check :
    [0x31#8, 0x32#8, 0x33#8, 0x34#8, 0x35#8, 0x36#8, 0x37#8, 0x38#8, 0x39#8].foldl crcUpdate Config.crcInit
      ^^^ Config.crcInit = 0xFC891918#32 := by decide

theorem test_crc_repeat : crcRepeat Config.crcInit 0x61#8 7 ^^^ Config.crcInit = 0x32A4B623#32 := by decide

theorem test_rotl1 : rotl1 0x80000000#32 = 1#32 := by decide

/-! ## FrontLists (F1, F4, F6, F7) -/

set_option maxRecDepth 4000 in
theorem test_promote_5 :
    (promoteByIndex .mtfFL identityList 5).map (fun r => (r.1, r.2.take 7)) =
      .ok (5#8, [5#8, 0#8, 1#8, 2#8, 3#8, 4#8, 6#8]) := by decide

set_option maxRecDepth 4000 in
theorem test_promote_255 :
    (promoteByIndex .mtfFL identityList 255).map (fun r => (r.1, r.2.take 2, r.2.drop 254)) =
      .ok (255#8, [255#8, 0#8], [253#8, 254#8]) := by decide

set_option maxRecDepth 4000 in
theorem test_promoteByValue_7 :
    (promoteByValue .mtfFL identityList 7#8).map (fun r => (r.1, r.2.take 3)) =
      .ok (7, [7#8, 0#8, 1#8]) := by decide

/-! ## Huffman tables (H3, H4) -/

theorem test_table_H3 :
    (buildTable [2, 1, 3, 3]).minLen = 1 ∧ (buildTable [2, 1, 3, 3]).maxLen = 3
      ∧ ([1, 2, 3, 4, 5, 23].map (Memory.lookup (buildTable [2, 1, 3, 3]).base)
          = [some 0, some 1, some 4, some 12, some 28, some 8388604])
      ∧ (buildTable [2, 1, 3, 3]).perm = [1, 0, 2, 3] := by decide

theorem test_table_H4 :
    (buildTable [3, 3, 3, 2, 2]).perm = [3, 4, 0, 1, 2]
      ∧ ([1, 2, 3, 4, 5, 23].map (Memory.lookup (buildTable [3, 3, 3, 2, 2]).limit)
          = [none, some 1, some 6, some 13, some 27, some 7340031]) := by decide

/-- H5's codes. -/
theorem test_codeword_H5 :
    (List.range 5).map (codeword [2, 2, 2, 3, 3]) =
      [[false, false], [false, true], [true, false], [true, true, false], [true, true, true]] := by decide

/-! ## Indexes outside a memory (spec/20_memory.md R83; spec/93 I3) -/

/-- Symbol 258 of table 0 is no element of table 1, and there is no table 6. -/
theorem test_codeLen_range :
    codeLenRead [(258, 7)] 0 258 = .error (.outOfRange .codeLen) ∧ codeLenRead [(258, 7)] 1 0 = .ok 7
      ∧ codeLenWrite [] 0 258 7 = .error (.outOfRange .codeLen)
      ∧ codeLenWrite [] 6 0 7 = .error (.outOfRange .codeLen)
      ∧ codeLenWrite [] 5 257 7 = .ok [(1547, 7)] := by decide

theorem test_hist_range :
    histRead [] 255 = .ok 0 ∧ histRead [] 256 = .error (.outOfRange .hist)
      ∧ histCount [] 256 1 = .error (.outOfRange .hist) ∧ histCount [] 255 1 = .ok [(255, 1)] := by decide

theorem test_slot_range :
    slotAt .limit [(23, 5)] 23 = .ok 5 ∧ slotAt .limit [(24, 5)] 24 = .error (.outOfRange .limit)
      ∧ slotAt .base [] 23 = .error (.noValue .base) := by decide

/-! ## The inverse transform (W2; section 2.8) -/

set_option maxRecDepth 10000 in
theorem test_mergedPointers_W2 :
    buildMp blockW2 = .ok [(0, 0x361#32), (1, 0x461#32), (2, 0x561#32), (3, 0x262#32), (4, 0x06E#32),
      (5, 0x16E#32)] := by decide

set_option maxRecDepth 10000 in
theorem test_invert_W2 : after (step blockW2) (fun t => (t.cursor, t.slot)) = some (0x262#32, .rle) := by
  decide

/-- With the test table 5, 3, 4, then 7, the flips fall at positions 4, 7, 11 and 18. -/
def flipsFrom : Nat → State → List Bool
  | 0, _ => []
  | n + 1, s =>
    let r := derandomiseWith [5, 3, 4, 7, 7] 0#8 s
    (r.1 == 1#8) :: flipsFrom n r.2

theorem test_derandomise :
    flipsFrom 18 { State.reset with randFlag := true } =
      [false, false, false, true, false, false, true, false, false, false, true, false, false, false, false,
       false, false, true] := by decide

/-! ## One step of each element -/

/-- S3 and P1: '0' is no level, '9' is multiplier 9. -/
theorem test_exec_hdrLevel_0 :
    after (exec (.hdrLevel 0x30#8) (atSlot .hdrLevel [])) (fun t => (t.phase, t.errKind, t.errDetail)) =
      some (.error, .invalidHeader, 3#4) := by decide
theorem test_exec_hdrLevel_9 :
    after (exec (.hdrLevel 0x39#8) (atSlot .hdrLevel [])) (fun t => (t.phase, t.mult)) =
      some (.awaitBlock, 9#4) := by decide
/-- S1: the first element with 0x4259 raises MAGIC. -/
theorem test_step_badMagic :
    after (step (atSlot .hdrMagic (natToBits 16 0x4259))) (fun t => (t.errKind, t.errDetail)) =
      some (.invalidHeader, 1#4) := by decide
theorem test_exec_hdrMagic : after (exec .hdrMagic (atSlot .hdrMagic [])) (·.slot) = some .hdrH := by decide
theorem test_exec_hdrH : after (exec .hdrH (atSlot .hdrH [])) (·.slot) = some .hdrLevel := by decide
/-- P4: the second block starts with everything of R46 fresh and the count 2. -/
theorem test_exec_markBlock :
    after (exec .markBlock { atSlot .marker [] with blockCount := 1#32, bwtLen := 3, runInc := 4 })
      (fun t => (t.blockCount, t.bwtLen, t.runInc, t.bphase)) = some (2#32, 0, 1, .bheader) := by decide
theorem test_exec_markEnd : after (exec .markEnd (atSlot .marker [])) (·.phase) = some .trailer := by decide
/-- P1 and S8. -/
theorem test_exec_streamCrc :
    after (exec (.streamCrc 0#32) (atSlot .streamCrc [])) (·.phase) = some .done := by decide
theorem test_exec_streamCrc_bad :
    after (exec (.streamCrc 0x648CBB72#32) { atSlot .streamCrc [] with streamCRC := 0x648CBB73#32 })
      (fun t => (t.errKind, t.storedStreamCRC)) = some (.streamCRCMismatch, 0x648CBB72#32) := by decide
theorem test_exec_blkCrc :
    after (exec (.blkCrc 0x648CBB73#32) (atSlot .blkCrc [])) (fun t => (t.storedBlockCRC, t.slot)) =
      some (0x648CBB73#32, .blkRand) := by decide
theorem test_exec_blkRand :
    after (exec (.blkRand true) (atSlot .blkRand [])) (fun t => (t.randFlag, t.slot)) =
      some (true, .blkOrigPtr) := by decide
theorem test_exec_blkOrigPtr :
    after (exec (.blkOrigPtr 3#24) (atSlot .blkOrigPtr [])) (fun t => (t.origPtr, t.bphase)) =
      some (3#24, .tables) := by decide
/-- T2: the first used range of 0x8200 is 0; T4: no range. -/
theorem test_exec_mapUsed :
    after (exec (.mapUsed 0x0200#16) (atSlot .mapUsed [])) (·.rangeIdx) = some 6 := by decide
theorem test_exec_mapUsed_0 :
    after (exec (.mapUsed 0#16) (atSlot .mapUsed [])) (fun t => (t.errKind, t.errDetail)) =
      some (.corruptBlock, 5#4) := by decide
/-- T1: range 6 with 0x7000 gives 'a', 'b', 'c' and the end-of-block symbol 4. -/
theorem test_exec_mapPresent :
    after (exec (.mapPresent 0x7000#16) { atSlot .mapPresent [] with usedMap := 0x0200#16, rangeIdx := 6 })
      (fun t => (t.symMap, t.numInUse, t.eob)) =
      some ([(0, 0x61#8), (1, 0x62#8), (2, 0x63#8)], 3, 4) := by decide
theorem test_exec_nGroups :
    after (exec (.nGroups 7#3) (atSlot .nGroups [])) (fun t => (t.numTables, t.phase)) =
      some (7, .inBlock) := by decide
/-- T5 and T8. -/
theorem test_exec_nSelectors_tables :
    after (exec (.nSelectors 1#15) { atSlot .nSelectors [] with numTables := 7 })
      (fun t => (t.errKind, t.errDetail)) = some (.corruptBlock, 1#4) := by decide
theorem test_exec_nSelectors_18003 :
    after (exec (.nSelectors 18003#15) { atSlot .nSelectors [] with numTables := 2 })
      (fun t => (t.errKind, t.errDetail)) = some (.corruptBlock, 2#4) := by decide
/-- T10: the first selector 1 is moved to the front. -/
theorem test_exec_selMtf :
    after (exec (.selMtf 1)
        { atSlot .selMtf [] with numTables := 2, numSelectors := 3, selFL := [0#8, 1#8] })
      (fun t => (t.selectors, t.selFL, t.selIdx)) = some ([(0, 1)], [1#8, 0#8], 1) := by decide
/-- T12: three from five by two decrements. -/
theorem test_exec_clStart :
    after (exec (.clStart 5#5) (atSlot .clStart [])) (·.curLen) = some 5 := by decide
theorem test_exec_clDec :
    after (exec .clDec { atSlot .cld [] with curLen := 0 }) (·.curLen) = some (-1) := by decide
theorem test_exec_clInc :
    after (exec .clInc { atSlot .cld [] with curLen := 23 }) (fun t => (t.curLen, t.phase)) =
      some (24, .inBlock) := by decide
/-- T14: length 24 is refused when it is recorded. -/
theorem test_exec_clDone_24 :
    after (exec .clDone { atSlot .cld [] with curLen := 24 }) (fun t => (t.errKind, t.errDetail)) =
      some (.corruptBlock, 4#4) := by decide
theorem test_exec_clDone :
    after (exec .clDone { atSlot .cld [] with curLen := 2, tableIdx := 1, eob := 4 })
      (fun t => (t.codeLen, t.symIdx)) = some ([(258, 2)], 1) := by decide
/-- Section 2.6: RUNB RUNA is a run of 4. -/
theorem test_exec_runb :
    after (exec .runb (atSlot .symbol [])) (fun t => (t.runLen, t.runInc)) = some (2, 2) := by decide
theorem test_exec_runa :
    after (exec .runa { atSlot .symbol [] with runLen := 2, runInc := 2 })
      (fun t => (t.runLen, t.runInc)) = some (4, 4) := by decide
/-- Section 2.6, P3: MTFV 3 flushes 'a' three times, then appends 'b'. -/
theorem test_exec_mtfv :
    after (exec (.mtfv 3)
        { atSlot .symbol [] with
          runLen := 3, runInc := 4, lastMtf := 1#8, numInUse := 3, bwtLen := 1
          mtfFL := [1#8, 0#8, 2#8], symMap := [(0, 3#8), (1, 0x61#8), (2, 0x62#8)]
          bwtBlock := [(0, 0x61#8)], hist := [(0x61, 1)] })
      (fun t => (t.bwtBlock, t.hist, t.runLen, t.runInc, t.lastMtf)) =
      some ([(0, 0x61#8), (1, 0x61#8), (2, 0x61#8), (3, 0x61#8), (4, 0x62#8)], [(0x61, 4), (0x62, 1)],
        0, 1, 2#8) := by decide
/-- Section 2.6: the flush at EOB. -/
theorem test_exec_eob :
    after (exec .eob { atSlot .symbol [] with runLen := 2, numInUse := 1, symMap := [(0, 0x61#8)] })
      (fun t => (t.bwtBlock, t.bwtLen, t.bphase)) =
      some ([(0, 0x61#8), (1, 0x61#8)], 2, .bwtInvert) := by decide
/-- K9, R1: a literal reaches the sink and the CRC. -/
theorem test_exec_rle4Lit :
    after (exec (.rle4Lit 0x61#8) (atSlot .rle [])) (fun t => (t.sunk, t.blockCRC, t.rleLast, t.rleAcc)) =
      some ([0x61#8], 0xE66C6494#32, some 0x61#8, 1) := by decide
theorem test_exec_rle4Rep :
    after (exec (.rle4Rep 0x78#8) { atSlot .rle [] with rleLast := some 0x78#8, rleAcc := 2 })
      (fun t => (t.sunk, t.rleAcc)) = some ([0x78#8], 3) := by decide
/-- R10: no count byte. -/
theorem test_exec_rle4Run_end :
    after (exec (.rle4Run 0x61#8) (atSlot .rle [])) (fun t => (t.errKind, t.errDetail)) =
      some (.corruptBlock, 10#4) := by decide
theorem test_exec_rle4Run :
    after (exec (.rle4Run 0x61#8) (walkA (b8 0x61))) (fun t => (t.latch, t.slot, t.bwtDone)) =
      some (b8 0x61, .rleCount, 1) := by decide
/-- R3: a count byte of 3 sets four copies. -/
theorem test_exec_rle4Count :
    after (exec (.rle4Count 3#8) (atSlot .rleCount [])) (fun t => (t.rlePending, t.rleAcc)) =
      some (4, 0) := by decide
/-- X2: STATUS after START. -/
theorem test_status_started : statusWord { State.reset with phase := .header } = 0x00000101#32 := by decide
/-- R391: after a close the core's next read raises TruncatedInput, though the source still had a byte. -/
theorem test_close_cancels :
    (match step { State.reset with phase := .header, srcQ := [.byte 0x42#8], env := [.srcClose] } with
      | .next t => after (step t) (fun u => (u.phase, u.errKind, u.srcClosed, u.inCount))
      | _ => none) = some (.error, .truncatedInput, true, 0#32) := by decide
/-- X5: STATUS and ERROR after P5. -/
theorem test_status_P5 :
    statusWord { State.reset with phase := .error, bphase := .exhausted } = 0x00000466#32
      ∧ errorWord { State.reset with errKind := .blockCRCMismatch } = 0x00000004#32 := by decide

/-! ## Witnesses: for every statement with hypotheses, a state and operands that meet them all -/

/-- The symbol stage with one table, of the under-full length set H7, and `bits` read. -/
def symbolH7 (bits : List Bool) : State :=
  { atSlot .symbol bits with tables := [(0, buildTable [2, 2, 2])], numTables := 2, eob := 2, numInUse := 1 }

/-- The machine just started, in front of a source with the answers `q`, the events `env` ahead. -/
def started (q : List SrcAnswer) (env : List EnvEvent := []) : State :=
  { State.reset with phase := .header, srcQ := q, snkRoom := none, env := env }

theorem reset_widths : State.reset.WidthsOk := by constructor <;> decide

theorem started_inv (q : List SrcAnswer) (env : List EnvEvent := []) : (started q env).Inv := by
  refine ⟨⟨fun _ => rfl, fun h => ?_, fun h => ?_⟩,
    ⟨⟨rfl, rfl⟩, ⟨rfl, rfl⟩, ⟨rfl, rfl⟩, ⟨rfl, rfl⟩, rfl, ⟨rfl, rfl⟩, ⟨rfl, rfl⟩, rfl, ⟨rfl, rfl⟩,
      .inl rfl, .inl rfl⟩,
    ⟨Nat.zero_le _, fun _ => Nat.zero_le _⟩, ⟨⟨fun h => ?_, fun h => ?_⟩, rfl⟩,
    ⟨fun i h => absurd h (Nat.not_lt_zero _), fun _ => rfl⟩, ?_, ⟨fun h => ?_, fun h => ?_⟩,
    fun _ => trivial⟩
  · cases h
  · cases h
  · cases h
  · exact absurd rfl h
  · exact ⟨reset_widths.1, reset_widths.2, reset_widths.3, reset_widths.4, reset_widths.5, reset_widths.6,
      reset_widths.7, reset_widths.8, reset_widths.9, reset_widths.10, reset_widths.11, reset_widths.12,
      reset_widths.13, reset_widths.14, reset_widths.15, reset_widths.16, reset_widths.17, reset_widths.18,
      reset_widths.19, reset_widths.20, reset_widths.21⟩
  · cases h
  · cases h

/-- The walk of the block "a" in front of a full sink, its byte ready. -/
def walkFull : State := { walkA (b8 0x61) with snkRoom := some 0 }

theorem walkFull_inv : walkFull.Inv := by
  refine ⟨⟨fun _ => rfl, fun h => ?_, fun h => ?_⟩,
    ⟨⟨rfl, rfl⟩, ⟨rfl, rfl⟩, ⟨rfl, rfl⟩, ⟨rfl, rfl⟩, rfl, ⟨rfl, rfl⟩, ⟨rfl, rfl⟩, rfl, ⟨rfl, rfl⟩,
      .inl rfl, .inl rfl⟩,
    ⟨by decide, fun _ => Nat.zero_le _⟩, ⟨⟨fun h => ?_, fun h => ?_⟩, rfl⟩, ⟨fun i h => ?_, ?_⟩,
    ?_, ⟨fun h => ?_, fun h => ?_⟩, fun _ => ⟨⟨by decide, by decide⟩, Nat.zero_le _, fun j h => ?_, by decide⟩⟩
  · cases h
  · cases h
  · cases h
  · exact absurd rfl h
  · have : i = 0 := Nat.lt_one_iff.mp h
    subst this
    exact ⟨0x61#8, rfl⟩
  · decide
  · constructor <;> decide
  · cases h
  · cases h
  · have : j = 0 := Nat.lt_one_iff.mp h
    subst this
    exact ⟨0x61#32, rfl, by decide⟩

/-- The core can stand at every slot. -/
theorem witness_AtElement (sl : Slot) (bits : List Bool) : AtElement sl (atSlot sl bits) :=
  ⟨rfl, by cases sl <;> rfl, rfl⟩

theorem witness_ResetEvent : ({ walkFull with env := [.reset] } : State).env = .reset :: [] := rfl

/-- Accepted; then ignored for bit 0 and ignored for the phase. -/
theorem witness_HostStart :
    (State.reset.phase = .idle ∧ (1#32).getLsbD 0 = true) ∧ (0xFFFFFFFE#32).getLsbD 0 = false
      ∧ walkFull.phase ≠ .idle
      ∧ ({ State.reset with env := [.write Config.csrBase 4 1#32] } : State).env
          = .write Config.csrBase 4 1#32 :: [] :=
  ⟨⟨rfl, rfl⟩, rfl, by decide, rfl⟩

/-- A write at 4, reads at 0 and 0x30. -/
theorem witness_ReservedOffsets :
    4 % 4 = 0 ∧ (4 : Nat) ≠ 0 ∧ 0 % 4 = 0 ∧ 0x30 % 4 = 0 ∧ 0x2C < 0x30
      ∧ ∀ e, ({ State.reset with env := [e] } : State).env = e :: [] :=
  ⟨rfl, by decide, rfl, rfl, by decide, fun _ => rfl⟩

theorem witness_StatusRead :
    ({ State.reset with env := [.read (Config.csrBase + 0x04) 4] } : State).env
        = .read (Config.csrBase + 0x04) 4 :: []
      ∧ ({ State.reset with env := [.write (Config.csrBase + 0x04) 4 1#32] } : State).env
        = .write (Config.csrBase + 0x04) 4 1#32 :: [] := ⟨rfl, rfl⟩

/-- Each register at its own offset, the first and the last among them. -/
theorem witness_RegisterReads :
    (∀ o ∈ [0x08, 0x0C, 0x10, 0x14, 0x18, 0x1C, 0x20, 0x24, 0x28, 0x2C], 0x08 ≤ o ∧ o ≤ 0x2C ∧ o % 4 = 0)
      ∧ ∀ e, ({ State.reset with env := [e] } : State).env = e :: [] :=
  ⟨by decide, fun _ => rfl⟩

/-- A halfword read of STATUS (X9), and a word at offset 2. -/
theorem witness_RefusedAccess :
    ((2 : Nat) ≠ 4 ∨ 4 % 4 ≠ 0) ∧ ((4 : Nat) ≠ 4 ∨ 2 % 4 ≠ 0)
      ∧ ({ State.reset with env := [.read (Config.csrBase + 0x04) 2] } : State).env
          = .read (Config.csrBase + 0x04) 2 :: []
      ∧ ({ State.reset with env := [.write (Config.csrBase + 2) 4 0#32] } : State).env
          = .write (Config.csrBase + 2) 4 0#32 :: [] :=
  ⟨by decide, by decide, rfl, rfl⟩

/-- All four answers of the decoder. -/
theorem witness_StepRunsElement :
    (ctxOf (atSlot .hdrMagic (natToBits 16 0x425A)) = .ok (some .hdrMagic)
        ∧ decodeBits .hdrMagic (natToBits 16 0x425A) = .instr .hdrMagic)
      ∧ decodeBits .hdrMagic [] = .more 16
      ∧ (ctxOf { atSlot .selMtf [true, true] with numTables := 2 } = .ok (some (.selMtf 2))
        ∧ decodeBits (.selMtf 2) [true, true] = .reject .selMtf)
      ∧ (ctxOf (symbolH7 (List.replicate 23 true)) = .ok (some (.symbol [] (buildTable [2, 2, 2]) 2))
        ∧ decodeBits (.symbol [] (buildTable [2, 2, 2]) 2) (List.replicate 23 true) = .reject .badCode)
      ∧ (symbolH7 (List.replicate 23 true)).env = [] ∧ (symbolH7 []).phase.active = true :=
  ⟨⟨rfl, by decide⟩, by decide, ⟨rfl, by decide⟩, ⟨by decide, by decide⟩, rfl, rfl⟩

/-- The largest index of the largest table count. -/
theorem witness_DecodeEncodeAgree :
    (∀ lens table eob, Ctx.selMtf 6 ≠ .symbol lens table eob) ∧ Ctx.admits (.selMtf 6) (.selMtf 5) = true :=
  ⟨fun _ _ _ h => (nomatch h), rfl⟩

theorem lensOk_H5 : LensOk 4 [2, 2, 2, 3, 3] := ⟨rfl, by decide⟩

theorem witness_HuffmanRoundTrip :
    LensOk 4 [2, 2, 2, 3, 3] ∧ KraftComplete [2, 2, 2, 3, 3] ∧ 4 < [2, 2, 2, 3, 3].length :=
  ⟨lensOk_H5, by unfold KraftComplete; decide, by decide⟩

/-- The first two bytes of a stream. -/
theorem witness_FetchFollowsDecode :
    (started [.byte 0x42#8, .byte 0x5A#8]).Inv ∧ (started [.byte 0x42#8, .byte 0x5A#8]).env = []
      ∧ (started [.byte 0x42#8, .byte 0x5A#8]).phase.active = true
      ∧ (started [.byte 0x42#8, .byte 0x5A#8]).srcClosed = false
      ∧ (started [.byte 0x42#8, .byte 0x5A#8]).latch = []
      ∧ (started [.byte 0x42#8, .byte 0x5A#8]).slot ≠ .rle
      ∧ (started [.byte 0x42#8, .byte 0x5A#8]).slot ≠ .rleCount
      ∧ ctxOf (started [.byte 0x42#8, .byte 0x5A#8]) = .ok (some .hdrMagic)
      ∧ decode .hdrMagic (streamBits (started [.byte 0x42#8, .byte 0x5A#8])) = some (.hdrMagic, []) :=
  ⟨started_inv _, rfl, rfl, rfl, rfl, by decide, by decide, rfl, by decide⟩

/-- The four answers of the source while bits are missing, and the widest read at its boundary. -/
theorem witness_FillAndTake :
    (24 ≤ 24 ∧ (started []).bitCnt < 24)
      ∧ ({ started [] with srcClosed := true } : State).srcClosed = true
      ∧ ((started []).srcClosed = false ∧ (started []).srcQ = [])
      ∧ (started [.eof]).srcQ = .eof :: [] ∧ (started [.byte 1#8]).srcQ = .byte 1#8 :: []
      ∧ 24 ≤ ({ started [] with bitCnt := 24 } : State).bitCnt
      ∧ ({ started [] with bitCnt := 24 } : State).bitCnt ≤ 32 :=
  ⟨⟨by decide, by decide⟩, rfl, ⟨rfl, rfl⟩, rfl, rfl, by decide, by decide⟩

/-- B10: seven bits there, 24 wanted; and B6: 32 bits from four bytes. -/
theorem witness_ReadBitsValue :
    24 < 25 ∧ ({ started [.byte 1#8, .byte 2#8, .byte 3#8] with bitCnt := 7 } : State).bitCnt ≤ 7
      ∧ 24 ≤ (streamBits { started [.byte 1#8, .byte 2#8, .byte 3#8] with bitCnt := 7 }).length
      ∧ (started []).phase ≠ .error ∧ (started []).srcClosed = false ∧ (started []).waitSrc = false
      ∧ 32 ≤ (streamBits (started [.byte 0x12#8, .byte 0x34#8, .byte 0x56#8, .byte 0x78#8])).length :=
  ⟨by decide, by decide, by decide, by decide, rfl, rfl, by decide⟩

/-- B3: 1110 and four bits more. -/
theorem witness_ReadUnaryValue :
    streamBits (started [.byte 0xE9#8]) = List.replicate 3 true ++ false :: [true, false, false, true]
      ∧ (started [.byte 0xE9#8]).bitCnt ≤ 7 ∧ (started [.byte 0xE9#8]).phase ≠ .error :=
  ⟨by decide, by decide, by decide⟩

/-- The premises of the statements of the form "from a sound state, a step answers a next state". -/
theorem witness_step :
    (started [.byte 0x42#8]).Inv ∧ (started [.byte 0x42#8]).env = []
      ∧ ∃ t, step (started [.byte 0x42#8]) = .next t :=
  ⟨started_inv _, rfl, _, rfl⟩

/-- A core step; every event; and a close in front of a byte the source still had, a read of one bit to come. -/
theorem witness_OneTransferPerStep :
    (walkFull.env = [] ∧ ∃ t, step walkFull = .next t)
      ∧ (∀ e, ({ State.reset with env := [e] } : State).env = e :: [])
      ∧ (started [.byte 0x42#8] [.srcClose]).env = .srcClose :: []
      ∧ (started [.byte 0x42#8] [.srcClose]).srcClosed = false
      ∧ (started [.byte 0x42#8] [.srcClose]).bitCnt < 1 ∧ 1 ≤ 24 :=
  ⟨⟨rfl, _, rfl⟩, fun _ => rfl, rfl, rfl, Nat.zero_lt_one, by decide⟩
theorem witness_StagesOfTheRegisters : walkFull.Coherent ∧ walkFull.env = [] ∧ ∃ t, step walkFull = .next t :=
  ⟨walkFull_inv.coherent, rfl, _, rfl⟩
theorem witness_BphaseTransitions : walkFull.Coherent ∧ walkFull.env.head? ≠ some .reset :=
  ⟨walkFull_inv.coherent, by decide⟩
theorem witness_StepKeepsCursor : (started [.byte 0x42#8]).CursorOk := (started_inv _).cursor
theorem witness_StepKeepsHistogram : walkFull.HistogramOk := walkFull_inv.histogram

/-- No FrontList yet, and both whole. -/
theorem witness_StepKeepsMemories :
    walkFull.MemoriesWf ∧ ({ State.reset with selFL := identityList, mtfFL := identityList } : State).MemoriesWf :=
  ⟨walkFull_inv.memories, ⟨rfl, rfl⟩, ⟨rfl, rfl⟩, ⟨rfl, rfl⟩, ⟨rfl, rfl⟩, rfl, ⟨rfl, rfl⟩, ⟨rfl, rfl⟩, rfl,
    ⟨rfl, rfl⟩, .inr identityList_length, .inr identityList_length⟩
theorem witness_StepKeepsInv : walkFull.Inv ∧ ∃ t, step walkFull = .next t := ⟨walkFull_inv, _, rfl⟩

/-- No event ahead; and, for the refusal, an access that is narrow and one that is misaligned. -/
theorem witness_SoundStepNeverFaults :
    (walkFull.Inv ∧ walkFull.env = [])
      ∧ ((started [] [.read (Config.csrBase + 4) 2]).Inv
        ∧ step (started [] [.read (Config.csrBase + 4) 2]) = .refused .hostAccess)
      ∧ (started [] [.write (Config.csrBase + 1) 4 1#32]).Inv
        ∧ step (started [] [.write (Config.csrBase + 1) 4 1#32]) = .refused .hostAccess := by
  refine ⟨⟨walkFull_inv, rfl⟩, ⟨started_inv _ _, ?_⟩, started_inv _ _, ?_⟩
  · simp [started, step, envStep, hostRead, windowOffset]
  · simp [started, step, envStep, hostWrite, windowOffset]

set_option maxRecDepth 4000 in
/-- The first and the last index. -/
theorem witness_PromoteByIndex :
    Config.memSize .selFL = 256 ∧ Config.memSize .mtfFL = 256 ∧ identityList.length = 256 ∧ 0 < 256
      ∧ 255 < 256 := by decide

theorem witness_PromoteByValue : Config.memSize .mtfFL = 256 ∧ IsFrontList identityList :=
  ⟨rfl, List.Perm.refl _⟩

set_option maxRecDepth 4000 in
theorem witness_PromotionInvariants :
    promoteByIndex .mtfFL identityList 0 = .ok (0#8, identityList) ∧ IsFrontList identityList
      ∧ PrefixClosed 1 identityList ∧ 0 < 1 := by
  refine ⟨by decide, List.Perm.refl _, fun i v hi hv => ?_, by decide⟩
  have : i = 0 := Nat.lt_one_iff.mp hi
  subst this
  cases hv
  decide

/-- H5: the first slot, the last one, and a slot on either side. -/
theorem witness_TableRows :
    LensOk 4 [2, 2, 2, 3, 3] ∧ (buildTable [2, 2, 2, 3, 3]).minLen ≤ 2
      ∧ (buildTable [2, 2, 2, 3, 3]).minLen ≤ 23 ∧ 23 ≤ 23
      ∧ 1 < (buildTable [2, 2, 2, 3, 3]).minLen ∧ 23 < 24 :=
  ⟨lensOk_H5, by decide⟩

theorem witness_TableExtremaAndRanks : LensOk 4 [2, 2, 2, 3, 3] := lensOk_H5

/-- No bit read, and 23 bits of the under-full set H7. -/
theorem witness_DecodeReadsInRange :
    LensOk 2 [2, 2, 2] ∧ OnPath [2, 2, 2] [] ∧ OnPath [2, 2, 2] (List.replicate 23 true) :=
  ⟨⟨rfl, by decide⟩, .inl rfl, .inr ⟨by decide, by decide, by decide⟩⟩

/-- Symbol 1 of a group; symbol 50 with one selector; symbol 0 with selector 0; and a payload step. -/
theorem witness_SelectorAdvance :
    (AtElement .select { atSlot .select [] with symCount := 1 } ∧ 1 % 50 ≠ 0)
      ∧ (50 % 50 = 0 ∧ 1 ≤ 50 / 50)
      ∧ (0 % 50 = 0 ∧ 0 / 50 < 1 ∧ 1 ≤ 18002 ∧ Memory.lookup [(0, 1)] (0 / 50) = some 1)
      ∧ ∃ t, exec .runa (atSlot .symbol []) = .next t :=
  ⟨⟨⟨rfl, rfl, rfl⟩, by decide⟩, by decide, by decide, _, rfl⟩

/-- The header's two checked elements, right and wrong, and their reads at the boundary. -/
theorem witness_HeaderMagicAndH :
    (AtElement .hdrMagic (atSlot .hdrMagic (natToBits 16 0x425A)) ∧ (natToBits 16 0x425A).length = 16
        ∧ bitsToNat (natToBits 16 0x425A) = 0x425A ∧ bitsToNat (natToBits 16 0x4259) ≠ 0x425A)
      ∧ (AtElement .hdrH (atSlot .hdrH (b8 0x68)) ∧ (b8 0x68).length = 8 ∧ bitsToNat (b8 0x68) = 0x68
        ∧ bitsToNat (b8 0x78) ≠ 0x68)
      ∧ ([] : List Bool).length + 16 ≤ 16 ∧ ([] : List Bool).length + 8 ≤ 8 :=
  ⟨⟨witness_AtElement _ _, by decide, by decide, by decide⟩,
    ⟨witness_AtElement _ _, by decide, by decide, by decide⟩, by decide, by decide⟩

/-- '1' and '9' are levels, '0' and ':' are none. -/
theorem witness_HeaderLevel :
    (0x31 ≤ (0x31#8).toNat ∧ (0x31#8).toNat ≤ 0x39) ∧ (0x31 ≤ (0x39#8).toNat ∧ (0x39#8).toNat ≤ 0x39)
      ∧ (0x30#8).toNat < 0x31 ∧ 0x39 < (0x3A#8).toNat := by decide

theorem witness_MarkerDispatch :
    AtElement .marker (atSlot .marker (natToBits 48 0x314159265359))
      ∧ (natToBits 48 0x314159265359).length = 48
      ∧ bitsToNat (natToBits 48 0x314159265359) = 0x314159265359
      ∧ bitsToNat (natToBits 48 0x177245385090) = 0x177245385090
      ∧ bitsToNat (natToBits 48 0) ≠ 0x314159265359 ∧ bitsToNat (natToBits 48 0) ≠ 0x177245385090
      ∧ (natToBits 24 0).length + 24 ≤ 48 :=
  ⟨witness_AtElement _ _, by decide, by decide, by decide, by decide, by decide, by decide⟩

theorem witness_StreamCrcCheck :
    0x648CBB73#32 = ({ atSlot .streamCrc [] with streamCRC := 0x648CBB73#32 } : State).streamCRC
      ∧ 0x648CBB72#32 ≠ ({ atSlot .streamCrc [] with streamCRC := 0x648CBB73#32 } : State).streamCRC
      ∧ AtElement .streamCrc (atSlot .streamCrc (natToBits 32 0x648CBB73))
      ∧ (natToBits 32 0x648CBB73).length = 32 ∧ (natToBits 16 0).length + 16 ≤ 32 :=
  ⟨rfl, by decide, witness_AtElement _ _, by decide, by decide⟩

theorem witness_BlockHeader :
    AtElement .blkCrc (atSlot .blkCrc (natToBits 32 1)) ∧ (natToBits 32 1).length = 32
      ∧ AtElement .blkRand (atSlot .blkRand [true]) ∧ AtElement .blkOrigPtr (atSlot .blkOrigPtr (natToBits 24 1))
      ∧ (natToBits 24 1).length = 24 :=
  ⟨witness_AtElement _ _, by decide, witness_AtElement _ _, witness_AtElement _ _, by decide⟩

/-- The first used range is the last one, 15; and there is none. -/
theorem witness_MapUsed :
    (15 ≤ 15 ∧ (1#16).getLsbD (15 - 15) = true ∧ ∀ j, j < 15 → (1#16).getLsbD (15 - j) = false)
      ∧ (0#16 : BitVec 16) = 0#16 := by decide

/-- Range 6 of T1 with a next range 15, with none and symbols, with none and none. -/
theorem witness_MapPresent :
    (6 ≤ 15 ∧ 0 ≤ 16 * 6)
      ∧ (6 < 15 ∧ 15 ≤ 15 ∧ (0x0201#16).getLsbD (15 - 15) = true
        ∧ ∀ j, j < 15 → 6 < j → (0x0201#16).getLsbD (15 - j) = false)
      ∧ (∀ j, j ≤ 15 → 6 < j → (0x0200#16).getLsbD (15 - j) = false)
      ∧ 0 < ((List.range 16).filter (fun j => (0x7000#16).getLsbD (15 - j))).length
      ∧ ((List.range 16).filter (fun j => (0#16).getLsbD (15 - j))).length = 0 := by decide

/-- T5 to T8: table counts 1, 2, 6 and 7, selector counts 0, 1, 18002 and 18003. -/
theorem witness_GroupAndSelectorCounts :
    ((1 < 2 ∨ 6 < 1) ∧ ((7 : Nat) < 2 ∨ 6 < 7)) ∧ (2 ≤ 2 ∧ 2 ≤ 6 ∧ 2 ≤ 6 ∧ 6 ≤ 6)
      ∧ ((0#15).toNat < 1 ∧ 18002 < (18003#15).toNat)
      ∧ (1 ≤ (1#15).toNat ∧ (18002#15).toNat ≤ 18002) := by decide

theorem witness_SelectorElement :
    (AtElement .selMtf { atSlot .selMtf [] with numTables := 2 }
        ∧ ({ atSlot .selMtf [] with numTables := 2 } : State).latch = List.replicate 0 true)
      ∧ [true, false] = List.replicate 1 true ++ [false] ∧ [true, true] = List.replicate 2 true
      ∧ (1 < 2 ∧ 0 < 2)
      ∧ (255 < 256 ∧ identityList[255]? = some 255#8 ∧ 18001 < 18002) :=
  ⟨⟨⟨rfl, rfl, rfl⟩, rfl⟩, rfl, rfl, by decide, by decide⟩

theorem witness_RunningLength :
    AtElement .clStart (atSlot .clStart (natToBits 5 31)) ∧ (natToBits 5 31).length = 5
      ∧ ∀ bits, AtElement .cld (atSlot .cld bits) ∧ (atSlot .cld bits).latch = bits :=
  ⟨witness_AtElement _ _, by decide, fun _ => ⟨witness_AtElement _ _, rfl⟩⟩

/-- Lengths 0, 1, 23 and 24; a symbol before the last; the last symbol of the last alphabet. -/
theorem witness_LengthRecorded :
    ((0 : Int) < 1 ∧ (23 : Int) < 24) ∧ ((1 : Int) ≤ 1 ∧ (23 : Int) ≤ 23) ∧ (5 < 6 ∧ 2 < 4 ∧ 257 ≤ 257)
      ∧ ([2, 2].length = 2 ∧ ∀ k l, ([2, 2] : List Nat)[k]? = some l →
          Memory.lookup [(0, 2), (1, 2)] (258 * 0 + k) = some l) := by
  refine ⟨by decide, by decide, by decide, rfl, fun k l h => ?_⟩
  match k, h with
  | 0, h => exact h
  | 1, h => exact h
  | k + 2, h => cases h

/-- The last run that fits a block of 100000 bytes, and the first that does not. -/
theorem witness_RunEscapes :
    99998 + (1 + 1) ≤ (1#4).toNat * 100000 ∧ (1#4).toNat * 100000 < 99998 + (1 + 2)
      ∧ 99996 + (0 + 2 * 2) ≤ (1#4).toNat * 100000 ∧ (1#4).toNat * 100000 < 99997 + (0 + 2 * 2) := by decide

/-- A pending run of three 'a', and none; the block with one byte free, and full. -/
theorem witness_FlushReady :
    FlushReady { atSlot .symbol [] with runLen := 3, numInUse := 1, symMap := [(0, 0x61#8)] }
      ∧ FlushReady (atSlot .symbol []) :=
  ⟨⟨by decide, by decide, .inr ⟨by decide, _, rfl⟩⟩, ⟨by decide, by decide, .inl rfl⟩⟩

theorem witness_MtfvLiteral :
    FlushReady { atSlot .symbol [] with numInUse := 2, symMap := [(0, 0x61#8), (1, 0x62#8)] }
      ∧ (1#4).toNat * 100000 ≤ 100000 + 0
      ∧ (99999 + 0 < (1#4).toNat * 100000 ∧ 99999 + 0 < 900000 ∧ 2 - 1 < 256
        ∧ identityList[2 - 1]? = some 1#8 ∧ (1#8).toNat < 2
        ∧ Memory.lookup [(0, 0x61#8), (1, 0x62#8)] (1#8).toNat = some 0x62#8) :=
  ⟨⟨by decide, by decide, .inl rfl⟩, by decide, by decide, by decide, by decide, by decide, by decide,
    by decide⟩

theorem blockW2_histogram : blockW2.HistogramOk := by
  refine ⟨fun i h => ?_, by decide⟩
  have h : i < 6 := h
  have : ∀ i, i < 6 → (Memory.lookup blockW2.bwtBlock i).isSome = true := by decide
  exact Option.isSome_iff_exists.mp (this i h)

/-- W2, and W7: an empty block. -/
theorem witness_BwtInvert :
    (AtElement .invert (atSlot .invert []) ∧ (atSlot .invert []).bwtLen ≤ (atSlot .invert []).origPtr.toNat)
      ∧ (AtElement .invert blockW2 ∧ blockW2.HistogramOk ∧ blockW2.bwtLen ≤ 900000
        ∧ blockW2.origPtr.toNat < blockW2.bwtLen) :=
  ⟨⟨witness_AtElement _ _, by decide⟩, ⟨rfl, rfl, rfl⟩, blockW2_histogram, by decide, by decide⟩

set_option maxRecDepth 10000 in
theorem witness_PointersPermute : ∃ t, step blockW2 = .next t := ⟨_, rfl⟩

/-- The walk of one byte at its start, and at its end. -/
theorem witness_WalkStep :
    ((walkA []).bwtDone ≠ (walkA []).bwtLen ∧ (walkA []).bwtLen ≤ 900000
        ∧ ((walkA []).cursor >>> 8).toNat < (walkA []).bwtLen
        ∧ Memory.lookup (walkA []).mp ((walkA []).cursor >>> 8).toNat = some 0x61#32)
      ∧ ({ walkA [] with bwtDone := 1 } : State).bwtDone = ({ walkA [] with bwtDone := 1 } : State).bwtLen :=
  ⟨⟨by decide, by decide, by decide, rfl⟩, rfl⟩

set_option maxRecDepth 10000 in
/-- A flagged block at a counter of 2, which flips, and at a reload from the last table entry. -/
theorem witness_Derandomise :
    State.reset.randFlag = false
      ∧ (({ State.reset with randFlag := true, rNToGo := 2 } : State).rNToGo = 1 + 1)
      ∧ Config.rnums[(511 : Fin 512).val]? = some (637 + 1) :=
  ⟨rfl, rfl, rfl⟩

/-- A literal, a repeat at 2, a run at 3; and the next walk byte. -/
theorem witness_StreamingLoop :
    (AtElement .rle (walkA (b8 0x61)) ∧ (walkA (b8 0x61)).latch = natToBits 8 (0x61#8).toNat)
      ∧ (none ≠ some 0x61#8 ∧ (2 : Nat) < 3 ∧ (3 : Nat) ≤ 3)
      ∧ ((walkA []).latch = [] ∧ (walkA []).rlePending = 0 ∧ ∃ t, nextBWT (walkA []) = .ok (some 0x61#8, t))
      ∧ (AtElement .rle (walkA []) ∧ ({ walkA [] with bwtDone := 1 } : State).bwtDone = (walkA []).bwtLen) :=
  ⟨⟨⟨rfl, rfl, rfl⟩, rfl⟩, by decide, ⟨rfl, rfl, _, rfl⟩, ⟨rfl, rfl, rfl⟩, rfl⟩

/-- A run of 'x' with `n` copies pending, before a sink of room `room`. -/
def copying (n : Nat) (room : Option Nat) : State :=
  { atSlot .rle [] with rleLast := some 0x78#8, rleAcc := 0, rlePending := n, snkRoom := room }

/-- A pending copy before a full sink and one with room, and none in the sound states without a last byte. -/
theorem witness_StreamingLoop_copy :
    (∀ n room, AtElement .rle (copying n room) ∧ (copying n room).latch = []
        ∧ (copying n room).rleLast = some 0x78#8)
      ∧ 0 < (copying 1 none).rlePending ∧ (copying 1 (some 0)).snkRoom = some 0
      ∧ (copying 1 (some 1)).snkRoom ≠ some 0
      ∧ ({ copying 1 none with rleLast := none } : State).rleLast = none :=
  ⟨fun _ _ => ⟨⟨rfl, rfl, rfl⟩, rfl, rfl⟩, by decide, rfl, by decide, rfl⟩

/-- R327: the first of three copies goes to a sink with room for one, and the next waits at a full one. -/
theorem test_copy_room :
    after (step (copying 3 (some 1))) (fun t => (t.rlePending, t.snkRoom, t.sunk, t.waitSnk))
        = some (2, some 0, [0x78#8], false)
      ∧ after (step (copying 2 (some 0))) (fun t => (t.rlePending, t.sunk, t.waitSnk)) = some (2, [], true) := by
  decide

theorem witness_LiteralAndRepeat :
    walkFull.snkRoom = some 0 ∧ (walkA []).snkRoom ≠ some 0 ∧ (some 1 : Option Nat) ≠ some 0 := by decide

theorem witness_RunAndCount :
    (∃ t, nextBWT (walkA (b8 0x61)) = .ok (some 0x61#8, t))
      ∧ ({ walkA [] with bwtDone := 1 } : State).bwtDone = ({ walkA [] with bwtDone := 1 } : State).bwtLen
      ∧ (AtElement .rleCount (atSlot .rleCount (b8 255))
        ∧ (atSlot .rleCount (b8 255)).latch = natToBits 8 (255#8).toNat) :=
  ⟨⟨_, rfl⟩, rfl, witness_AtElement _ _, rfl⟩

theorem witness_PendingCopies :
    (∀ n room, AtElement .rle (copying n room) ∧ (copying n room).latch = []
        ∧ (copying n room).rleLast = some 0x78#8)
      ∧ 256 ≤ (copying 256 none).rlePending ∧ (copying 256 none).snkRoom = none
      ∧ (∃ n, (copying 256 (some 256)).snkRoom = some n ∧ 256 ≤ n)
      ∧ ((copying 256 (some 255)).snkRoom = some 255 ∧ 255 < (copying 256 (some 255)).rlePending) :=
  ⟨fun _ _ => ⟨⟨rfl, rfl, rfl⟩, rfl, rfl⟩, by decide, rfl, ⟨256, rfl, by decide⟩, rfl, by decide⟩

/-- K2: an empty CRC that matches and one that does not. -/
theorem witness_BlockEnd :
    AtElement .rle (atSlot .rle []) ∧ (atSlot .rle []).latch = [] ∧ (atSlot .rle []).rlePending = 0
      ∧ (atSlot .rle []).bwtDone = (atSlot .rle []).bwtLen
      ∧ (atSlot .rle []).blockCRC ^^^ 0xFFFFFFFF#32 = (atSlot .rle []).storedBlockCRC
      ∧ (atSlot .rle []).blockCRC ^^^ 0xFFFFFFFF#32
          ≠ ({ atSlot .rle [] with storedBlockCRC := 1#32 } : State).storedBlockCRC :=
  ⟨witness_AtElement _ _, rfl, rfl, rfl, by decide, by decide⟩

/-- A state in each quiescent phase; and an event of the host in ERROR. -/
theorem witness_ErrorEntry :
    (({ State.reset with phase := .error } : State).env = [] ∧ ({ State.reset with phase := .done } : State).env = []
        ∧ State.reset.phase = .idle)
      ∧ ∃ t, step { State.reset with phase := .error, env := [.srcByte 1#8] } = .next t :=
  ⟨⟨rfl, rfl, rfl⟩, _, rfl⟩

/-- A state that raises MAGIC. -/
theorem witness_ErrorLatchWriters :
    (started [.byte 0x42#8]).Coherent ∧ (started [.byte 0x42#8]).env = []
      ∧ after (step (atSlot .hdrMagic (natToBits 16 0x4259))) (·.phase) = some .error :=
  ⟨(started_inv _).coherent, rfl, by decide⟩

theorem witness_PhaseTransitions :
    (started [.byte 0x42#8]).Coherent ∧ (started [.byte 0x42#8]).env.head? ≠ some .reset
      ∧ ({ State.reset with env := [.write Config.csrBase 4 1#32] } : State).env.head?
          = some (.write Config.csrBase 4 1#32) ∧ (1#32).getLsbD 0 = true :=
  ⟨(started_inv _).coherent, by decide, rfl, by decide⟩

/-- A wait for the source, and one for the sink. -/
theorem witness_HoldsChangeNothing :
    ((started []).Inv ∧ (started []).env = [] ∧ after (step (started [])) (·.waitSrc) = some true)
      ∧ (walkFull.Inv ∧ walkFull.env = [] ∧ after (step walkFull) (·.waitSnk) = some true) :=
  ⟨⟨started_inv _, rfl, by decide⟩, walkFull_inv, rfl, by decide⟩

/-- A stream cut off after its first byte. -/
theorem witness_RunsTerminate :
    (started [.byte 0x42#8, .eof]).Inv ∧ (started [.byte 0x42#8, .eof]).env = []
      ∧ (started [.byte 0x42#8, .eof]).phase.active = true ∧ SourceEnds (started [.byte 0x42#8, .eof])
      ∧ (started [.byte 0x42#8, .eof]).snkRoom = none :=
  ⟨started_inv _, rfl, rfl, .inr (by decide), rfl⟩

/-! ## Pseudo-instructions (spec/30_encoding.md R129) -/

/-- The maps of program P2's symbols 'a', 'b', 'c': the examples of spec/44_block_header.md R244, R245. -/
theorem test_expandMap :
    expandMap [0x61, 0x62, 0x63] = [.mapUsed 0x0200#16, .mapPresent 0x7000#16] := by decide

/-- The runs of spec/45_symbol_decode.md R281, R282's examples: 3, 5 and 14. -/
theorem test_expandRun :
    expandRun 3 = [.runa, .runa] ∧ expandRun 5 = [.runa, .runb] ∧ expandRun 14 = [.runb, .runb, .runb] := by
  decide

/-- Hand expansion of R129's CLEN: up by one, then down by two. -/
theorem test_expandClen :
    expandClen [2, 3, 1] = [.clStart 2#5, .clDone, .clInc, .clDone, .clDec, .clDec, .clDone] := by decide

end Sys2Proof.Tests
end

section
/-! The statements of spec/00_scope.md: dispatch of the step (R12, R111) and its exchange with the source and
the sink (R13, R98). -/

namespace Sys2Proof.Machine

/-! ## Dispatch -/

/-- Outside the walk's bytes, more bits come from the BitCursor (spec/30_encoding.md R110). -/
theorem fetchMore_eq_readStep {s : State} (n : Nat) (hr : s.slot ≠ .rle) (hc : s.slot ≠ .rleCount) :
    fetchMore n s = readStep n s := by
  unfold fetchMore
  split
  · contradiction
  · contradiction
  · rfl

/-- The step when an event of the schedule waits. -/
theorem step_envStep {s : State} {e : EnvEvent} {rest : List EnvEvent} (h : s.env = e :: rest) :
    step s = envStep e coreStep { s with env := rest } := by
  simp only [step, h]

/-- Settles O7: the step is `elementStep` in the next element's context, by the decoder's three answers. -/
theorem stepRunsElement : Obligations.StepRunsElement := by
  intro s c he ha hc
  have hstep : step s = elementStep c s := step_elementStep ⟨he, ha, rfl⟩ hc
  rw [hstep, elementStep]
  refine ⟨fun i hd => ?_, fun n hd hr hrc => ?_, fun hd => ?_, fun hd => ?_, fun rest => rfl⟩
  · rw [hd]
  · rw [hd]
    exact fetchMore_eq_readStep n hr hrc
  · rw [hd]
    rfl
  · rw [hd]
    rfl

/-! ## The core's ports -/

/-- What the core shares with the host, the source and the sink: the environment's fields and the counters
and the CRC that follow the transfers. -/
structure Ports where
  env : List EnvEvent
  hostData : List Word
  srcQ : List SrcAnswer
  inCount : Word
  sunk : List Byte
  outCount : Word
  snkRoom : Option Nat
  blockCRC : Word

/-- The ports of a state. -/
def State.ports (s : State) : Ports :=
  { env := s.env, hostData := s.hostData, srcQ := s.srcQ, inCount := s.inCount, sunk := s.sunk
    outCount := s.outCount, snkRoom := s.snkRoom, blockCRC := s.blockCRC }

/-- What a core step from `s` to `t` does at the ports: nothing, block init's new CRC, one answer taken from
the source, or one byte given to the sink (R13, R98). -/
inductive Transfer (s t : State) : Prop
  | none (h : t.ports = s.ports)
  | newBlock (h : t.ports = { s.ports with blockCRC := Config.crcInit })
      (hc : t.blockCount = s.blockCount + 1#32)
  | takeByte (b : Byte) (q : List SrcAnswer) (hq : s.srcQ = .byte b :: q)
      (h : t.ports = { s.ports with srcQ := q, inCount := s.inCount + 1#32 })
  | takeEof (q : List SrcAnswer) (hq : s.srcQ = .eof :: q) (hc : t.srcClosed = true)
      (h : t.ports = { s.ports with srcQ := q })
  | give (b : Byte) (hr : s.snkRoom ≠ some 0) (h : t.ports = (accepted b s).ports)

theorem flushRun_ports {s t : State} (h : flushRun s = .ok t) : t.ports = s.ports := by
  rw [flushRun_frame h]
  rfl

theorem nextBWT_ports {s t : State} {b? : Option Byte} (h : nextBWT s = .ok (b?, t)) :
    t.ports = s.ports := by
  rw [nextBWT_frame h]
  rfl

/-- A fill is the one place where an answer of the source is taken (spec/40_bitcursor.md R165). -/
theorem fill_transfer (s : State) : Transfer s (fill s) := by
  unfold fill
  split
  · exact .none rfl
  · split
    · exact .none rfl
    · next q hq => exact .takeEof q hq rfl rfl
    · next b q hq => exact .takeByte b q hq rfl

/-- An element gives a byte in RLE4_LIT and RLE4_REP, and MARK_BLOCK starts a block; every other leaves the
ports alone. -/
theorem ElementMove.transfer {s t : State} (h : ElementMove s t) : Transfer s t := by
  cases h with
  | markBlock _ => exact .newBlock rfl rfl
  | rleLit b _ hs _ => exact .give b hs rfl
  | rleRep b _ hs _ _ => exact .give b hs rfl
  | literalFull u _ hf => exact .none (flushRun_ports hf :)
  | literal u _ _ _ _ _ _ _ _ _ hf _ _ _ _ _ => exact .none (flushRun_ports hf :)
  | eob u _ hf => exact .none (flushRun_ports hf :)
  | rleRun _ _ u _ _ _ _ hn => exact .none (nextBWT_ports hn :)
  | _ => exact .none rfl

/-- The walk gives a byte as a pending copy; every other of its moves leaves the ports alone. -/
theorem WalkMove.transfer {s t : State} (h : WalkMove s t) : Transfer s t := by
  cases h with
  | copy b _ _ hs => exact .give b hs rfl
  | byte _ u _ hn => exact .none (nextBWT_ports hn :)
  | _ => exact .none rfl

theorem CoreMove.transfer {s t : State} (h : CoreMove s t) : Transfer s t := by
  cases h with
  | quiet _ => exact .none rfl
  | fill _ _ _ _ _ _ => exact fill_transfer s
  | take _ _ _ _ _ _ _ _ _ => exact .none rfl
  | walk _ _ _ _ hx => exact (walkStep_move hx).transfer
  | count _ _ _ hx =>
    obtain ⟨-, rfl⟩ | ⟨_, u, hn, rfl⟩ := fetchCount_move hx
    · exact .none rfl
    · exact .none (nextBWT_ports hn :)
  | select _ _ _ hx =>
    obtain ⟨-, rfl⟩ | ⟨_, -, -, -, rfl⟩ | ⟨-, rfl⟩ := selectStep_move hx <;> exact .none rfl
  | invert _ _ _ hx =>
    obtain ⟨-, rfl⟩ | ⟨_, _, -, -, -, rfl⟩ := invertStep_move hx <;> exact .none rfl
  | reject _ _ _ _ _ _ _ => exact .none rfl
  | run _ _ _ hr _ _ hx => exact (exec_move hr hx).transfer

/-- An EOF that a read takes is a truncated stream (spec/60_exceptions.md R374). -/
theorem readStep_of_eof {n : Nat} {s : State} {q : List SrcAnswer} (hc : s.srcClosed = false)
    (hq : s.srcQ = .eof :: q) (hb : s.bitCnt < n) (hn : n ≤ Config.maxRead) :
    readStep n s = .next (raise .truncatedInput Config.detailNone
      { s with srcQ := q, srcClosed := true, waitSrc := false }) := by
  rw [readStep, if_neg (Nat.not_lt.mpr hn), if_pos hb]
  simp [fill, hc, hq]

/-- Settles O53: a core step's move is one of `Transfer`'s, and an event's step is `envStep` of it. -/
theorem oneTransferPerStep : Obligations.OneTransferPerStep := by
  refine ⟨fun s t he hx => ?_, fun s rest => ⟨fun b h => ?_, fun h => ?_, fun h => ?_, fun n h => ?_⟩⟩
  · have hcore : coreStep s = .next t := by simpa only [step, he] using hx
    cases (coreStep_move hcore).transfer with
    | none h =>
      injection h with henv hdata hq hin hsunk hout hroom hcrc
      exact ⟨henv, hdata, .inl ⟨hq, hin, hsunk, hout, hroom, hcrc⟩⟩
    | newBlock h hc =>
      injection h with henv hdata hq hin hsunk hout hroom hcrc
      exact ⟨henv, hdata, .inr (.inl ⟨hq, hin, hsunk, hout, hroom, hcrc, hc⟩)⟩
    | takeByte b q hs h =>
      injection h with henv hdata hq hin hsunk hout hroom hcrc
      exact ⟨henv, hdata, .inr (.inr (.inl ⟨b, hq ▸ hs, hin, hsunk, hout, hroom, hcrc⟩))⟩
    | takeEof q hs hc h =>
      injection h with henv hdata hq hin hsunk hout hroom hcrc
      exact ⟨henv, hdata, .inr (.inr (.inr (.inl ⟨hq ▸ hs, hc, hin, hsunk, hout, hroom, hcrc⟩)))⟩
    | give b hr h =>
      injection h with henv hdata hq hin hsunk hout _ hcrc
      exact ⟨henv, hdata, .inr (.inr (.inr (.inr ⟨b, hsunk, hr, hout, hcrc, hq, hin⟩)))⟩
  · exact step_envStep h
  · exact step_envStep h
  · exact ⟨_, step_envStep h, rfl, fun n hc hb hn => readStep_of_eof hc rfl hb hn⟩
  · exact step_envStep h

end Sys2Proof.Machine
end

section
/-! SUPPORT. What a promotion keeps of a FrontList (spec/42_frontlist.md R201, R204): it stays a permutation
of 0..255, and entries that are closed under their values stay so. -/

namespace Sys2Proof.Machine

/-- A promotion moves one entry to the front and drops none. -/
theorem promote_perm {fl : List Byte} {i : Nat} {v : Byte} (h : fl[i]? = some v) :
    (v :: (fl.take i ++ fl.drop (i + 1))).Perm fl := by
  obtain ⟨hi, rfl⟩ := List.getElem?_eq_some_iff.mp h
  rw [← List.eraseIdx_eq_take_drop_succ]
  exact List.getElem_cons_eraseIdx_perm hi

theorem promote_isFrontList {fl : List Byte} {i : Nat} {v : Byte} (hf : IsFrontList fl)
    (h : fl[i]? = some v) : IsFrontList (v :: (fl.take i ++ fl.drop (i + 1))) :=
  (promote_perm h).trans hf

/-- An entry of the list with entry `i` taken out is an entry of the list, at the same place or the next. -/
theorem getElem?_take_append_drop {fl : List Byte} {i j : Nat} {w : Byte}
    (h : (fl.take i ++ fl.drop (i + 1))[j]? = some w) :
    (j < i ∧ fl[j]? = some w) ∨ (i ≤ j ∧ fl[j + 1]? = some w) := by
  rw [← List.eraseIdx_eq_take_drop_succ, List.getElem?_eraseIdx] at h
  split at h
  · next hj => exact .inl ⟨hj, h⟩
  · next hj => exact .inr ⟨by omega, h⟩

theorem promote_prefixClosed {fl : List Byte} {n i : Nat} {v : Byte} (hf : PrefixClosed n fl) (hi : i < n)
    (h : fl[i]? = some v) : PrefixClosed n (v :: (fl.take i ++ fl.drop (i + 1))) := by
  intro j w hj hw
  cases j with
  | zero =>
    cases hw
    exact hf i v hi h
  | succ j =>
    rcases getElem?_take_append_drop hw with ⟨-, hw⟩ | ⟨-, hw⟩
    · exact hf j w (by omega) hw
    · exact hf (j + 1) w hj hw

theorem identityList_getElem? {i : Nat} (hi : i < 256) : identityList[i]? = some (BitVec.ofNat 8 i) := by
  simp [identityList, hi]

theorem identityList_isFrontList : IsFrontList identityList := List.Perm.refl _

theorem identityList_prefixClosed (n : Nat) : PrefixClosed n identityList := by
  intro i v hi hv
  have hlt : i < 256 := by simpa using (List.getElem?_eq_some_iff.mp hv).1
  rw [identityList_getElem? hlt] at hv
  cases hv
  simp only [BitVec.toNat_ofNat]
  omega

theorem IsFrontList.length {fl : List Byte} (h : IsFrontList fl) : fl.length = 256 := by
  rw [List.Perm.length_eq h, identityList_length]

/-- A FrontList has an entry at every index below 256. -/
theorem IsFrontList.getElem? {fl : List Byte} (h : IsFrontList fl) {i : Nat} (hi : i < 256) :
    ∃ v, fl[i]? = some v :=
  ⟨_, List.getElem?_eq_getElem (by rw [h.length]; exact hi)⟩

end Sys2Proof.Machine
end

section
/-! SUPPORT. What the decoder asks for at a sound position (spec/40_bitcursor.md R162, spec/43_huffman.md R216):
never more than 24 bits, and on a symbol's path never an element that the decode tables do not have. -/

namespace Sys2Proof.Machine

/-! ## The codes of a legal length set -/

/-- Every symbol has a rank (spec/43_huffman.md R214). -/
theorem perm_length (lens : List Nat) : (buildTable lens).perm.length = lens.length := by
  show (rankFrom lens _ _).length = _
  rw [rankFrom_length, List.countP_eq_length]
  intro l hl
  have h1 := lenMin_le hl
  have h2 := le_lenMax hl
  simp only [decide_eq_true_eq]
  omega

section
variable {eob : Nat} {lens : List Nat} (h : LensOk eob lens)
include h

theorem LensOk.min_bounds : 1 ≤ lenMin lens ∧ lenMin lens ≤ Config.maxCodeLen :=
  h.2 _ (lenMin_mem (ne_nil_of_lensOk h))

/-- The ranks of the codes of length `L` end inside the alphabet. -/
theorem LensOk.shorterCount_add_lenCount {L : Nat} (hL : 1 ≤ L) :
    shorterCount lens L + lenCount lens L ≤ lens.length := by
  obtain ⟨l, rfl⟩ : ∃ l, L = l + 1 := ⟨L - 1, by omega⟩
  calc shorterCount lens (l + 1) + lenCount lens (l + 1)
      = shorterCount lens (l + 2) := rfl
    _ = lens.countP (fun k => decide (k < l + 2)) := shorterCount_eq (fun k hk => (h.2 k hk).1) _
    _ ≤ lens.length := List.countP_le_length

theorem LensOk.limit_slot {L : Nat} (h1 : lenMin lens ≤ L) (h2 : L ≤ Config.maxCodeLen) :
    slotAt .limit (buildTable lens).limit L = .ok ((firstCode lens L : Int) + lenCount lens L - 1) := by
  have hm := h.min_bounds
  simp only [Config.maxCodeLen] at h2 hm
  refine slotAt_eq_ok.mpr ⟨show L < 24 by omega, ?_⟩
  rw [limit_lookup, if_pos (by omega)]

theorem LensOk.base_slot {L : Nat} (h1 : lenMin lens ≤ L) (h2 : L ≤ Config.maxCodeLen) :
    slotAt .base (buildTable lens).base L = .ok ((firstCode lens L : Int) - shorterCount lens L) := by
  have hm := h.min_bounds
  simp only [Config.maxCodeLen] at h2 hm
  refine slotAt_eq_ok.mpr ⟨show L < 24 by omega, ?_⟩
  rw [base_lookup, if_pos (by omega)]

/-- A code of length `L` has a rank, so `perm` answers. -/
theorem LensOk.permAt_code {L v : Nat} (h1 : lenMin lens ≤ L) (hlo : firstCode lens L ≤ v)
    (hhi : v < firstCode lens L + lenCount lens L) :
    ∃ sym, sym ∈ (buildTable lens).perm
      ∧ permAt (buildTable lens) ((v : Int) - ((firstCode lens L : Int) - shorterCount lens L)) = .ok sym := by
  have hrank := h.shorterCount_add_lenCount (L := L) (by have := h.min_bounds; omega)
  have hlt : ((v : Int) - ((firstCode lens L : Int) - shorterCount lens L)).toNat
      < (buildTable lens).perm.length := by
    rw [perm_length]; omega
  exact ⟨_, List.getElem_mem hlt, permAt_eq_ok.mpr ⟨by omega, List.getElem?_eq_getElem hlt⟩⟩

/-- One turn of decodeSymbol on an unfinished path (spec/43_huffman.md R216, R217): it asks for the shortest
codeword or for one more bit, answers a symbol of the table, or finds no codeword of 23 bits. -/
theorem decodeSymbol_onPath {bits : List Bool} (hp : OnPath lens bits) (e : Nat) :
    (bits = [] ∧ decodeSymbol (buildTable lens) e bits = .more (lenMin lens))
      ∨ (∃ sym, sym ∈ (buildTable lens).perm
          ∧ decodeSymbol (buildTable lens) e bits = .instr (symbolInstr e sym))
      ∨ decodeSymbol (buildTable lens) e bits = .reject .badCode
      ∨ (lenMin lens ≤ bits.length ∧ bits.length < Config.maxCodeLen
          ∧ firstCode lens bits.length + lenCount lens bits.length ≤ bitsToNat bits
          ∧ decodeSymbol (buildTable lens) e bits = .more 1) := by
  have hm := h.min_bounds
  rcases hp with rfl | ⟨h1, h2, h3⟩
  · refine .inl ⟨rfl, ?_⟩
    rw [decodeSymbol]
    exact if_pos hm.1
  · have hshort : ¬ bits.length < (buildTable lens).minLen := Nat.not_lt.mpr h1
    simp only [decodeSymbol, if_neg hshort, h.limit_slot h1 h2, h.base_slot h1 h2]
    by_cases hlim : (bitsToNat bits : Int) ≤ (firstCode lens bits.length : Int) + lenCount lens bits.length - 1
    · obtain ⟨sym, hsym, hperm⟩ := h.permAt_code h1 h3 (by omega)
      rw [if_pos hlim]
      simp only [hperm]
      exact .inr (.inl ⟨sym, hsym, rfl⟩)
    · rw [if_neg hlim]
      by_cases hmax : bits.length = Config.maxCodeLen
      · rw [if_pos hmax]
        exact .inr (.inr (.inl rfl))
      · rw [if_neg hmax]
        exact .inr (.inr (.inr ⟨h1, by omega, by omega, rfl⟩))

/-- The bits asked for keep the path (spec/43_huffman.md R216). -/
theorem onPath_more {bits more : List Bool} {e : Nat} (hp : OnPath lens bits)
    (hd : decodeSymbol (buildTable lens) e bits = .more more.length) : OnPath lens (bits ++ more) := by
  have hm := h.min_bounds
  rcases decodeSymbol_onPath h hp e with ⟨rfl, hx⟩ | ⟨sym, -, hx⟩ | hx | ⟨h1, h2, h3, hx⟩ <;>
    rw [hx] at hd
  · injection hd with hn
    refine .inr ⟨by simp [hn], by simpa [← hn] using hm.2, ?_⟩
    rw [List.nil_append, ← hn, firstCode_min]
    exact Nat.zero_le _
  · cases hd
  · cases hd
  · injection hd with hn
    refine .inr ⟨by simp; omega, by simp; omega, ?_⟩
    rw [List.length_append, bitsToNat_append, ← hn, firstCode_succ h1, pow_one]
    omega

end

/-! ## How many bits the decoder asks for -/

theorem fixed_eq_more {n chunk m : Nat} {k : Nat → Decoded} {bits : List Bool}
    (h : fixed n chunk k bits = .more m) (hk : ∀ v, k v ≠ .more m) : m ≤ chunk ∧ bits.length + m ≤ n := by
  unfold fixed at h
  split at h
  · injection h with h
    omega
  · exact absurd h (hk _)

theorem decodeUnary_eq_more {nt j m : Nat} {bits : List Bool} (h : decodeUnary nt j bits = .more m) :
    m = 1 ∧ (bits = [] ∨ j + bits.length < nt) := by
  induction bits generalizing j with
  | nil => cases h; exact ⟨rfl, .inl rfl⟩
  | cons b r ih =>
    cases b with
    | false => cases h
    | true =>
      unfold decodeUnary at h
      split at h
      · cases h
      · obtain ⟨hm, hr⟩ := ih h
        refine ⟨hm, .inr ?_⟩
        rcases hr with rfl | hr
        · simp; omega
        · simp only [List.length_cons]; omega

theorem decodeCld_eq_more {m : Nat} {bits : List Bool} (h : decodeCld bits = .more m) :
    m = 1 ∧ bits.length ≤ 1 := by
  unfold decodeCld at h
  split at h <;> cases h <;> exact ⟨rfl, by simp⟩

/-- Outside the payload a read is at most 24 bits wide, and an element at most 48. -/
theorem decodeBits_eq_more {c : Ctx} {bits : List Bool} {m : Nat} (hsym : ∀ ls t e, c ≠ .symbol ls t e)
    (hmtf : ∀ k, c = .selMtf k → k ≤ 7) (h : decodeBits c bits = .more m) :
    m ≤ 24 ∧ bits.length + m ≤ 48 := by
  cases c with
  | selMtf nt =>
    obtain ⟨hm, hb⟩ := decodeUnary_eq_more h
    have hnt := hmtf nt rfl
    rcases hb with rfl | hb
    · simp [hm]
    · omega
  | cld =>
    obtain ⟨hm, hb⟩ := decodeCld_eq_more h
    omega
  | symbol ls t e => exact absurd rfl (hsym ls t e)
  | hdrMagic =>
    simp only [decodeBits] at h
    have := fixed_eq_more h (fun v => by split <;> exact nofun)
    omega
  | hdrH =>
    simp only [decodeBits] at h
    have := fixed_eq_more h (fun v => by split <;> exact nofun)
    omega
  | marker =>
    simp only [decodeBits] at h
    have := fixed_eq_more h (fun v => by split <;> [exact nofun; (split <;> exact nofun)])
    omega
  | _ =>
    simp only [decodeBits] at h
    have := fixed_eq_more h (fun v => nofun)
    omega

/-- At a payload symbol the decoder runs the active table on an unfinished path. -/
theorem PathOk.decode {s : State} {c : Ctx} (hp : PathOk s) (hs : s.slot = .symbol)
    (hc : ctxOf s = .ok (some c)) :
    ∃ lens, LensOk s.eob lens ∧ Memory.lookup s.tables s.curTable = some (buildTable lens)
      ∧ OnPath lens s.latch
      ∧ decodeBits c s.latch = decodeSymbol (buildTable lens) s.eob s.latch := by
  obtain ⟨lens, hlens, htab, hpath⟩ := hp
  refine ⟨lens, hlens, htab, hpath, ?_⟩
  simp only [ctxOf, hs] at hc
  split at hc
  · cases hc
  · next tb ht =>
    cases hc
    obtain ⟨-, -, htb⟩ := memRead_eq_ok.mp ht
    rw [htab] at htb
    cases htb
    rfl

/-- The context is a payload symbol's at slot `symbol` alone, and a selector's names the table count. -/
theorem ctxOf_eq_ok {s : State} {c : Ctx} (hc : ctxOf s = .ok (some c)) :
    (∀ ls t e, c = .symbol ls t e → s.slot = .symbol) ∧ (∀ k, c = .selMtf k → k = s.numTables) := by
  unfold ctxOf at hc
  split at hc
  case h_16 hs =>
    split at hc <;> cases hc
    exact ⟨fun _ _ _ _ => hs, nofun⟩
  case h_13 =>
    cases hc
    refine ⟨nofun, fun k hk => ?_⟩
    cases hk
    rfl
  all_goals
    cases hc
    try exact ⟨nofun, nofun⟩

/-- A read at a sound position (spec/40_bitcursor.md R162): at most 24 bits wide, and the element it belongs to
at most 48. -/
theorem read_bounds {s : State} {c : Ctx} {n : Nat} (hp : s.slot = .symbol → PathOk s)
    (ht : s.numTables ≤ 7) (hc : ctxOf s = .ok (some c)) (hd : decodeBits c s.latch = .more n) :
    n ≤ 24 ∧ s.latch.length + n ≤ 48 := by
  obtain ⟨hsym, hmtf⟩ := ctxOf_eq_ok hc
  by_cases hs : s.slot = .symbol
  · obtain ⟨lens, hlens, -, hpath, he⟩ := (hp hs).decode hs hc
    have hm := hlens.min_bounds
    simp only [Config.maxCodeLen] at hm
    rw [he] at hd
    rcases decodeSymbol_onPath hlens hpath s.eob with ⟨hb, hx⟩ | ⟨sym, -, hx⟩ | hx | ⟨-, h2, -, hx⟩ <;>
      rw [hx] at hd
    · injection hd with hn
      simp only [hb, List.length_nil]
      omega
    · cases hd
    · cases hd
    · injection hd with hn
      simp only [Config.maxCodeLen] at h2
      omega
  · exact decodeBits_eq_more (fun ls t e h => hs (hsym ls t e h)) (fun k hk => by rw [hmtf k hk]; exact ht) hd

/-- No decode table lacks the element that a sound position asks for (spec/10_state.md R47). -/
theorem reject_not_noElement {s : State} {c : Ctx} {why : Reject} (hp : s.slot = .symbol → PathOk s)
    (hc : ctxOf s = .ok (some c)) (hd : decodeBits c s.latch = .reject why) : ¬ Reject.NoElement why := by
  rintro ⟨m, hm⟩
  rcases slot_of_reject hc hd with ⟨h, -⟩ | ⟨h, -⟩ | ⟨h, -⟩ | ⟨h, -⟩ | ⟨hs, -⟩
  case inr.inr.inr.inr =>
    obtain ⟨lens, hlens, -, hpath, he⟩ := (hp hs).decode hs hc
    rw [he] at hd
    rcases decodeSymbol_onPath hlens hpath s.eob with ⟨-, hx⟩ | ⟨sym, -, hx⟩ | hx | ⟨-, -, -, hx⟩ <;>
      rw [hx] at hd <;> cases hd
    rcases hm with hm | hm <;> cases hm
  all_goals
    subst h
    rcases hm with hm | hm <;> cases hm

end Sys2Proof.Machine
end

section
/-! SUPPORT. The inverse transform's counting sort (spec/46_bwt.md R302, R303): the bucket offsets count the
smaller bytes, every position of the block gets a place inside it, and every place is some position's. So the
merged-pointer build of a counted block never faults, and its pointers stay inside the block. -/

namespace Sys2Proof.Machine

/-! ## Places -/

/-- How many of the first `n` bytes of `m` are below `v`: `bkt[v]` of R302. -/
def smallerBytes (m : Memory Byte) (n v : Nat) : Nat :=
  (List.range n).countP (fun k => (Memory.lookup m k).any (fun u => decide (u.toNat < v)))

/-- The place of R303 is the bucket's start, then the equal bytes before. -/
theorem sortedIndex_eq (m : Memory Byte) (n i : Nat) (v : Byte) :
    sortedIndex m n i v = smallerBytes m n v.toNat + occurrences m i v := by
  unfold sortedIndex smallerBytes
  congr 2
  funext k
  cases Memory.lookup m k <;> rfl

theorem smallerBytes_zero (m : Memory Byte) (n : Nat) : smallerBytes m n 0 = 0 := by
  simp [smallerBytes]

theorem smallerBytes_succ (m : Memory Byte) (n : Nat) (v : Byte) :
    smallerBytes m n (v.toNat + 1) = smallerBytes m n v.toNat + occurrences m n v := by
  unfold smallerBytes occurrences
  induction List.range n with
  | nil => rfl
  | cons k r ih =>
    rw [List.countP_cons, List.countP_cons, List.countP_cons, ih]
    cases hk : Memory.lookup m k with
    | none => simp
    | some u =>
      simp only [Option.any_some, decide_eq_true_eq, Option.some.injEq, ← BitVec.toNat_inj]
      split <;> split <;> split <;> omega

theorem smallerBytes_mono (m : Memory Byte) (n : Nat) {v w : Nat} (h : v ≤ w) :
    smallerBytes m n v ≤ smallerBytes m n w := by
  refine List.countP_mono_left fun k _ hk => ?_
  simp only [Option.any_eq_true, decide_eq_true_eq] at hk ⊢
  obtain ⟨u, hu, hlt⟩ := hk
  exact ⟨u, hu, by omega⟩

theorem occurrences_mono (m : Memory Byte) {n k : Nat} (v : Byte) (h : n ≤ k) :
    occurrences m n v ≤ occurrences m k v := by
  induction k, h using Nat.le_induction with
  | base => exact le_refl _
  | succ k _ ih => rw [occurrences_succ]; omega

/-- Each of the occurrences of a byte stands somewhere. -/
theorem exists_occurrence {m : Memory Byte} {n c : Nat} {v : Byte} (h : c < occurrences m n v) :
    ∃ i, i < n ∧ Memory.lookup m i = some v ∧ occurrences m i v = c := by
  induction n with
  | zero => exact absurd h (Nat.not_lt_zero c)
  | succ n ih =>
    by_cases hc : c < occurrences m n v
    · obtain ⟨i, hi, hv, ho⟩ := ih hc
      exact ⟨i, by omega, hv, ho⟩
    · rw [occurrences_succ] at h
      split at h
      · next hv => exact ⟨n, by omega, hv, by omega⟩
      · omega

/-- The bucket that a place lies in. -/
theorem exists_bucket {m : Memory Byte} {n j v : Nat} (hv : v ≤ 256) (h : j < smallerBytes m n v) :
    ∃ u : Byte, smallerBytes m n u.toNat ≤ j ∧ j < smallerBytes m n (u.toNat + 1) := by
  induction v with
  | zero => rw [smallerBytes_zero] at h; exact absurd h (Nat.not_lt_zero j)
  | succ v ih =>
    by_cases hj : j < smallerBytes m n v
    · exact ih (by omega) hj
    · have hu : (BitVec.ofNat 8 v).toNat = v := by simp only [BitVec.toNat_ofNat]; omega
      exact ⟨BitVec.ofNat 8 v, by rw [hu]; exact Nat.le_of_not_lt hj, by rw [hu]; exact h⟩

section
variable {m : Memory Byte} {n : Nat} (hw : ∀ i, i < n → ∃ v, Memory.lookup m i = some v)
include hw

theorem smallerBytes_all : smallerBytes m n 256 = n := by
  have h : (List.range n).countP (fun k => (Memory.lookup m k).any (fun u => decide (u.toNat < 256)))
      = (List.range n).length := by
    rw [List.countP_eq_length]
    intro k hk
    obtain ⟨v, hv⟩ := hw k (List.mem_range.mp hk)
    simpa [hv] using v.isLt
  rw [List.length_range] at h
  exact h

/-- Every position's place is inside the block. -/
theorem sortedIndex_lt {i : Nat} {v : Byte} (hi : i < n) (hv : Memory.lookup m i = some v) :
    sortedIndex m n i v < n := by
  have hocc : occurrences m i v + 1 ≤ occurrences m n v := by
    have := occurrences_mono m v (show i + 1 ≤ n by omega)
    rwa [occurrences_succ, if_pos hv] at this
  calc sortedIndex m n i v = smallerBytes m n v.toNat + occurrences m i v := sortedIndex_eq m n i v
    _ < smallerBytes m n (v.toNat + 1) := by rw [smallerBytes_succ]; omega
    _ ≤ smallerBytes m n 256 := smallerBytes_mono m n (by have := v.isLt; omega)
    _ = n := smallerBytes_all hw

/-- Every place is some position's. -/
theorem exists_sortedIndex {j : Nat} (hj : j < n) :
    ∃ i v, i < n ∧ Memory.lookup m i = some v ∧ sortedIndex m n i v = j := by
  rw [← smallerBytes_all hw] at hj
  obtain ⟨v, hlo, hhi⟩ := exists_bucket (le_refl 256) hj
  rw [smallerBytes_succ] at hhi
  obtain ⟨i, hi, hv, hocc⟩ := exists_occurrence (m := m) (n := n) (v := v)
    (c := j - smallerBytes m n v.toNat) (by omega)
  exact ⟨i, v, hi, hv, by rw [sortedIndex_eq]; omega⟩

end

/-! ## The build -/

/-- Element `j` of the merged pointers leads into a block of `n` bytes. -/
def PointsInto (n : Nat) (m : Memory Word) (j : Nat) : Prop :=
  ∃ w, Memory.lookup m j = some w ∧ (w >>> 8).toNat < n

/-- The position in a merged pointer (R303). -/
theorem mergedPointer_position {i : Nat} (v : Byte) (hi : i < 2 ^ 24) :
    (mergedPointer i v >>> 8).toNat = i := by
  have hv := v.isLt
  rw [mergedPointer, shifted_in, BitVec.toNat_ushiftRight, BitVec.toNat_ofNat, BitVec.toNat_ofNat,
    Nat.shiftRight_eq_div_pow]
  omega

theorem pointsInto_insert {n i p j : Nat} {m : Memory Word} {v : Byte} (hi : i < n) (hn : n ≤ Config.maxBlock)
    (hj : j = p ∨ PointsInto n m j) : PointsInto n (Memory.insert m p (mergedPointer i v)) j := by
  simp only [Config.maxBlock] at hn
  by_cases hjp : j = p
  · refine ⟨mergedPointer i v, by rw [hjp, Memory.lookup_insert_self], ?_⟩
    rw [mergedPointer_position v (by omega)]
    exact hi
  · obtain ⟨w, hl, hlt⟩ := hj.resolve_left hjp
    exact ⟨w, by rw [Memory.lookup_insert_ne _ _ hjp]; exact hl, hlt⟩

/-- The build's loop from position `i` on, `bkt` holding each byte's next place: it never faults, pointers that
led into the block still do, and so do those at the places of the positions it visits (R303). -/
theorem buildMpFrom_ok {block : Memory Byte} {len : Nat}
    (hw : ∀ i, i < len → ∃ v, Memory.lookup block i = some v) (hlen : len ≤ Config.maxBlock) {n i : Nat}
    (hi : i + n = len) {bkt : List Nat} (hb : ∀ v : Byte, bkt[v.toNat]? = some (sortedIndex block len i v))
    (m : Memory Word) :
    ∃ m', buildMpFrom block len n i bkt m = .ok m'
      ∧ ∀ j, (PointsInto len m j ∨ ∃ k v, i ≤ k ∧ k < len ∧ Memory.lookup block k = some v
          ∧ sortedIndex block len k v = j) → PointsInto len m' j := by
  induction n generalizing i bkt m with
  | zero =>
    refine ⟨m, rfl, fun j hj => hj.resolve_right ?_⟩
    rintro ⟨k, v, h1, h2, -⟩
    omega
  | succ n ih =>
    obtain ⟨v, hv⟩ := hw i (by omega)
    have hplace := sortedIndex_lt hw (show i < len by omega) hv
    have hget : bkt.getD v.toNat 0 = sortedIndex block len i v := by
      rw [List.getD_eq_getElem?_getD, hb v]
      rfl
    have hread : memRead .bwtBlock block len i = .ok v :=
      memRead_eq_ok.mpr ⟨show i < Config.maxBlock by omega, by omega, hv⟩
    have hwrite : memWrite .mp m (sortedIndex block len i v) (mergedPointer i v)
        = .ok (Memory.insert m (sortedIndex block len i v) (mergedPointer i v)) :=
      memWrite_eq_ok.mpr ⟨show _ < Config.maxBlock by omega, rfl⟩
    have hnext : ∀ u : Byte, (bkt.set v.toNat (sortedIndex block len i v + 1))[u.toNat]?
        = some (sortedIndex block len (i + 1) u) := by
      intro u
      have hbound := (List.getElem?_eq_some_iff.mp (hb v)).1
      rw [sortedIndex_eq block len (i + 1), occurrences_succ, hv, List.getElem?_set, ← Nat.add_assoc,
        ← sortedIndex_eq]
      by_cases huv : v = u
      · subst huv
        simp [hbound]
      · rw [if_neg (by rwa [BitVec.toNat_inj]), if_neg (by simpa using huv), hb u, Nat.add_zero]
    obtain ⟨m', hm', hpts⟩ := ih (by omega) hnext
      (Memory.insert m (sortedIndex block len i v) (mergedPointer i v))
    refine ⟨m', ?_, fun j hj => hpts j ?_⟩
    · simp only [buildMpFrom, hread, hget, hwrite, hm']
    · rcases hj with hj | ⟨k, u, h1, h2, hu, hk⟩
      · exact .inl (pointsInto_insert (by omega) hlen (.inr hj))
      · by_cases hik : i = k
        · subst hik
          rw [hv] at hu
          cases hu
          exact .inl (pointsInto_insert h2 hlen (.inl hk.symm))
        · exact .inr ⟨k, u, by omega, h2, hu, hk⟩

/-- The histogram's running sums are the bucket starts (R302). -/
theorem State.HistogramOk.sum_eq_smallerBytes {s : State} (h : s.HistogramOk) {v : Nat} (hv : v ≤ 256) :
    ((List.range v).map (histAt s.hist)).sum = smallerBytes s.bwtBlock s.bwtLen v := by
  induction v with
  | zero => rw [smallerBytes_zero]; rfl
  | succ v ih =>
    have hb : (BitVec.ofNat 8 v).toNat = v := by simp only [BitVec.toNat_ofNat]; omega
    have hc := h.counts (BitVec.ofNat 8 v)
    have hs := smallerBytes_succ s.bwtBlock s.bwtLen (BitVec.ofNat 8 v)
    rw [hb] at hc hs
    rw [List.range_succ, List.map_append, List.sum_append, ih (by omega), hs, ← hc]
    simp

/-- The build of a counted block answers, and every one of its pointers leads into the block (R302, R303). -/
theorem buildMp_ok {s : State} (h : s.HistogramOk) (hlen : s.bwtLen ≤ Config.maxBlock) :
    ∃ m, buildMp s = .ok m ∧ ∀ j, j < s.bwtLen → PointsInto s.bwtLen m j := by
  obtain ⟨bkt, hbkt, -, hstart⟩ := bucketStarts_ok s.hist
  have hb : ∀ v : Byte, bkt[v.toNat]? = some (sortedIndex s.bwtBlock s.bwtLen 0 v) := by
    intro v
    have hv : v.toNat < 256 := v.isLt
    rw [hstart _ hv, h.sum_eq_smallerBytes hv.le, sortedIndex_eq]
    simp [occurrences]
  obtain ⟨m, hm, hpts⟩ := buildMpFrom_ok h.written hlen (Nat.zero_add _) hb s.mp
  refine ⟨m, by unfold buildMp; rw [hbkt]; exact hm, fun j hj => hpts j (.inr ?_)⟩
  obtain ⟨i, v, hi, hv, hij⟩ := exists_sortedIndex h.written hj
  exact ⟨i, v, Nat.zero_le i, hi, hv, hij⟩

end Sys2Proof.Machine
end

section
/-! SUPPORT. What every core step keeps of a sound state's position, error latch, BitCursor and histogram
(spec/48_stream.md R351, R352; spec/60_exceptions.md R371; spec/40_bitcursor.md R160;
spec/45_symbol_decode.md R287). -/

namespace Sys2Proof.Machine

/-! ## The fill -/

/-- What a fill does (spec/40_bitcursor.md R165): the stream has ended before, the source has no answer yet, it
answers EOF, or it answers a byte. -/
inductive FillMove (s : State) : State → Prop
  | closed (hc : s.srcClosed = true) : FillMove s (raise .truncatedInput Config.detailNone s)
  | hold (hc : s.srcClosed = false) (hq : s.srcQ = []) : FillMove s { s with waitSrc := true }
  | eof (q : List SrcAnswer) (hc : s.srcClosed = false) (hq : s.srcQ = .eof :: q) :
      FillMove s (raise .truncatedInput Config.detailNone
        { s with srcQ := q, srcClosed := true, waitSrc := false })
  | byte (b : Byte) (q : List SrcAnswer) (hc : s.srcClosed = false) (hq : s.srcQ = .byte b :: q) :
      FillMove s { s with
        srcQ := q, waitSrc := false, bitBuf := (s.bitBuf <<< 8) ||| BitVec.setWidth 32 b
        bitCnt := s.bitCnt + 8, inCount := s.inCount + 1#32 }

theorem fill_move (s : State) : FillMove s (fill s) := by
  unfold fill
  split
  · next hc => exact .closed hc
  · next hc =>
    have hopen : s.srcClosed = false := by simpa using hc
    split
    · next hq => exact .hold hopen hq
    · next q hq => exact .eof q hopen hq
    · next b q hq => exact .byte b q hopen hq

/-! ## Position -/

/-- Every slot's phase is a decoding one. -/
theorem slotPosition_active (sl : Slot) : (slotPosition sl).1.active = true := by
  cases sl <;> rfl

/-- A state that stands where its slot is read is coherent. -/
theorem coherent_at {t : State} {sl : Slot} (hs : t.slot = sl) (hp : t.phase = (slotPosition sl).1)
    (hb : t.bphase = (slotPosition sl).2) : t.Coherent := by
  have ha : t.phase.active = true := by rw [hp]; exact slotPosition_active sl
  refine ⟨fun _ => by rw [hs, hp, hb], fun h => ?_, fun h => ?_⟩ <;>
  · rw [h] at ha
    cases ha

theorem coherent_of_error {t : State} (h : t.phase = .error) : t.Coherent := by
  refine ⟨fun ha => ?_, fun hi => ?_, fun hd => ?_⟩
  · rw [h] at ha; cases ha
  · rw [h] at hi; cases hi
  · rw [h] at hd; cases hd

section
variable {s t : State} (hph : s.phase = (slotPosition s.slot).1) (hbp : s.bphase = (slotPosition s.slot).2)
include hph hbp

theorem ElementMove.coherent (hm : ElementMove s t) : t.Coherent := by
  cases hm with
  | badLevel _ | badStreamCrc _ _ | emptyMap _ _ | mapEmpty _ _ _ _ _ | badTables _ _ | badSelCount _ _
  | badCodeLen _ | escapeFull _ _ _ | literalFull _ _ _ | noCount _ _ _ _ _ _ => exact coherent_of_error rfl
  | streamCrc crc h _ =>
    rw [h] at hbp
    exact ⟨nofun, nofun, fun _ => hbp⟩
  | hdrLevel _ h _ | markEnd h =>
    rw [h] at hbp
    exact coherent_at rfl rfl hbp
  | markBlock h => exact coherent_at rfl rfl rfl
  | blkOrigPtr _ h | lastTable _ _ h _ _ _ _ _ _ =>
    rw [h] at hph
    exact coherent_at rfl hph rfl
  | eob u h hf =>
    rw [h] at hph
    rw [flushRun_frame hf]
    exact coherent_at rfl hph rfl
  | literal u _ _ _ _ h _ _ _ _ hf _ _ _ _ _ =>
    rw [h] at hph hbp
    rw [flushRun_frame hf]
    exact coherent_at rfl hph hbp
  | rleRun _ _ u h _ _ _ hn =>
    rw [h] at hph hbp
    rw [nextBWT_frame hn]
    exact coherent_at rfl hph hbp
  | rleHold _ h _ _ _ =>
    rw [h] at hph hbp
    exact coherent_at h hph hbp
  | hdrMagic h | hdrH h | blkCrc _ h | blkRand _ h | mapUsed _ _ h _ | mapPresent _ _ _ _ h _ _
  | mapDone _ _ _ h _ _ | nGroups _ h | nSelectors _ h _ _ | selMtf _ _ h _ _ _ _ | lastSelMtf _ _ h _ _ _ _
  | clStart _ h | clMove _ h | clDone _ h _ _ _ | table _ _ h _ _ _ _ _ _ | escape _ h _ _ | rleLit _ h _ _
  | rleRep _ h _ _ _ | rleCount _ h =>
    rw [h] at hph hbp
    exact coherent_at rfl hph hbp

theorem WalkMove.coherent (h : s.slot = .rle) (hm : WalkMove s t) : t.Coherent := by
  rw [h] at hph hbp
  cases hm with
  | copyHold _ _ _ _ | copy _ _ _ _ => exact coherent_at h hph hbp
  | byte _ u _ hn =>
    rw [nextBWT_frame hn]
    exact coherent_at rfl hph hbp
  | badCrc _ _ => exact coherent_of_error rfl
  | blockEnd _ _ _ => exact coherent_at rfl rfl rfl

theorem FillMove.coherent (hm : FillMove s t) : t.Coherent := by
  cases hm with
  | closed _ | eof _ _ _ => exact coherent_of_error rfl
  | hold _ _ | byte _ _ _ _ => exact coherent_at rfl hph hbp

end

theorem CoreMove.coherent {s t : State} (hs : s.Coherent) (hm : CoreMove s t) : t.Coherent := by
  have pos : s.phase.active = true →
      s.phase = (slotPosition s.slot).1 ∧ s.bphase = (slotPosition s.slot).2 := fun ha =>
    Prod.ext_iff.mp (hs.active ha)
  cases hm with
  | quiet _ => exact hs
  | fill _ ha _ _ _ _ => exact (fill_move s).coherent (pos ha).1 (pos ha).2
  | take _ _ ha _ _ _ _ _ _ => exact coherent_at rfl (pos ha).1 (pos ha).2
  | walk _ ha h _ hx => exact (walkStep_move hx).coherent (pos ha).1 (pos ha).2 h
  | count _ ha h hx =>
    obtain ⟨hph, hbp⟩ := pos ha
    rw [h] at hph hbp
    obtain ⟨-, rfl⟩ | ⟨_, u, hn, rfl⟩ := fetchCount_move hx
    · exact coherent_of_error rfl
    · rw [nextBWT_frame hn]
      exact coherent_at rfl hph hbp
  | select _ ha h hx =>
    obtain ⟨hph, hbp⟩ := pos ha
    rw [h] at hph hbp
    obtain ⟨-, rfl⟩ | ⟨_, -, -, -, rfl⟩ | ⟨-, rfl⟩ := selectStep_move hx
    · exact coherent_of_error rfl
    · exact coherent_at rfl hph hbp
    · exact coherent_at rfl hph hbp
  | invert _ ha h hx =>
    obtain ⟨hph, -⟩ := pos ha
    rw [h] at hph
    obtain ⟨-, rfl⟩ | ⟨_, _, -, -, -, rfl⟩ := invertStep_move hx
    · exact coherent_of_error rfl
    · exact coherent_at rfl hph rfl
  | reject _ _ _ _ _ _ _ => exact coherent_of_error rfl
  | run _ _ ha hr _ _ hx => exact (exec_move hr hx).coherent (pos ha).1 (pos ha).2

/-! ## The error latch -/

/-- What a core step does to the error latch (spec/60_exceptions.md R371): nothing, or it enters ERROR with a
code of the tables. -/
inductive LatchMove (s t : State) : Prop
  | kept (hp : t.phase ≠ .error) (hk : t.errKind = s.errKind) (hd : t.errDetail = s.errDetail)
  | latched (hp : t.phase = .error) (hk : t.errKind ≠ .none)
      (hc : errorCodeLegal t.errKind t.errDetail = true)

theorem LatchMove.errorOk {s t : State} (hs : s.ErrorOk) (ha : s.phase.active = true) (hm : LatchMove s t) :
    t.ErrorOk := by
  cases hm with
  | kept hp hk hd =>
    have hnone : s.errKind = .none := by
      by_contra hne
      rw [hs.latched.mpr hne] at ha
      cases ha
    refine ⟨⟨fun h => absurd h hp, fun h => absurd (hk.trans hnone) h⟩, ?_⟩
    rw [hk, hd]
    exact hs.code
  | latched hp hk hc => exact ⟨⟨fun _ => hk, fun _ => hp⟩, hc⟩

theorem ElementMove.latchMove {s t : State} (hp : s.phase ≠ .error) (hm : ElementMove s t) :
    LatchMove s t := by
  cases hm with
  | badLevel _ | badStreamCrc _ _ | emptyMap _ _ | mapEmpty _ _ _ _ _ | badTables _ _ | badSelCount _ _
  | badCodeLen _ | escapeFull _ _ _ | literalFull _ _ _ | noCount _ _ _ _ _ _ =>
    exact .latched rfl nofun rfl
  | hdrLevel _ _ _ | markBlock _ | markEnd _ | streamCrc _ _ _ => exact .kept nofun rfl rfl
  | literal u _ _ _ _ _ _ _ _ _ hf _ _ _ _ _ | eob u _ hf =>
    rw [flushRun_frame hf]
    exact .kept hp rfl rfl
  | rleRun _ _ u _ _ _ _ hn =>
    rw [nextBWT_frame hn]
    exact .kept hp rfl rfl
  | _ => exact .kept hp rfl rfl

theorem WalkMove.latchMove {s t : State} (hp : s.phase ≠ .error) (hm : WalkMove s t) : LatchMove s t := by
  cases hm with
  | badCrc _ _ => exact .latched rfl nofun rfl
  | blockEnd _ _ _ => exact .kept nofun rfl rfl
  | byte _ u _ hn =>
    rw [nextBWT_frame hn]
    exact .kept hp rfl rfl
  | _ => exact .kept hp rfl rfl

theorem FillMove.latchMove {s t : State} (hp : s.phase ≠ .error) (hm : FillMove s t) : LatchMove s t := by
  cases hm with
  | closed _ | eof _ _ _ => exact .latched rfl nofun rfl
  | hold _ _ | byte _ _ _ _ => exact .kept hp rfl rfl

theorem ne_error_of_active {s : State} (ha : s.phase.active = true) : s.phase ≠ .error := by
  intro h
  rw [h] at ha
  cases ha

theorem CoreMove.latchMove {s t : State} (ha : s.phase.active = true) (hm : CoreMove s t) :
    LatchMove s t := by
  have hp := ne_error_of_active ha
  cases hm with
  | quiet _ => exact .kept hp rfl rfl
  | fill _ _ _ _ _ _ => exact (fill_move s).latchMove hp
  | take _ _ _ _ _ _ _ _ _ => exact .kept hp rfl rfl
  | walk _ _ _ _ hx => exact (walkStep_move hx).latchMove hp
  | count _ _ _ hx =>
    obtain ⟨-, rfl⟩ | ⟨_, u, hn, rfl⟩ := fetchCount_move hx
    · exact .latched rfl nofun rfl
    · rw [nextBWT_frame hn]
      exact .kept hp rfl rfl
  | select _ _ _ hx =>
    obtain ⟨-, rfl⟩ | ⟨_, -, -, -, rfl⟩ | ⟨-, rfl⟩ := selectStep_move hx
    · exact .latched rfl nofun rfl
    · exact .kept hp rfl rfl
    · exact .kept hp rfl rfl
  | invert _ _ _ hx =>
    obtain ⟨-, rfl⟩ | ⟨_, _, -, -, -, rfl⟩ := invertStep_move hx
    · exact .latched rfl nofun rfl
    · exact .kept hp rfl rfl
  | reject k d _ hk hd _ _ => exact .latched rfl hk hd
  | run _ _ _ hr _ _ hx => exact (exec_move hr hx).latchMove hp

theorem CoreMove.errorOk {s t : State} (hs : s.ErrorOk) (hm : CoreMove s t) : t.ErrorOk := by
  by_cases ha : s.phase.active = true
  · exact (hm.latchMove ha).errorOk hs ha
  · cases hm with
    | quiet _ => exact hs
    | _ => contradiction

/-! ## The histogram -/

theorem histAt_histAdd_byte (h : Memory Nat) (v u : Byte) (n : Nat) :
    histAt (histAdd h v.toNat n) u.toNat = histAt h u.toNat + if v = u then n else 0 := by
  by_cases hvu : v = u
  · subst hvu
    rw [histAt_histAdd_self, if_pos rfl]
  · rw [histAt_histAdd_ne _ _ (fun h => hvu (BitVec.eq_of_toNat_eq h.symm)), if_neg hvu, Nat.add_zero]

/-- `k` copies of `v` written behind the block and counted (spec/45_symbol_decode.md R283, R284). -/
theorem State.HistogramOk.append {s t : State} {v : Byte} {k : Nat} (hs : s.HistogramOk)
    (hblock : ∀ i, Memory.lookup t.bwtBlock i =
      if s.bwtLen ≤ i ∧ i < s.bwtLen + k then some v else Memory.lookup s.bwtBlock i)
    (hlen : t.bwtLen = s.bwtLen + k) (hhist : t.hist = histAdd s.hist v.toNat k) : t.HistogramOk := by
  refine ⟨fun i hi => ?_, fun u => ?_⟩
  · rw [hblock]
    split
    · exact ⟨v, rfl⟩
    · exact hs.written i (by omega)
  · rw [hhist, histAt_histAdd_byte, hs.counts, hlen, occurrences_run hblock]

theorem flushRun_histogramOk {s t : State} (hs : s.HistogramOk) (hf : flushRun s = .ok t) :
    t.HistogramOk := by
  obtain ⟨-, rfl⟩ | ⟨v, m, -, -, -, hw, rfl⟩ := flushRun_eq_ok hf
  · exact hs
  · exact hs.append (writeRun_eq_ok hw).2.1 rfl rfl

theorem ElementMove.histogramOk {s t : State} (hs : s.HistogramOk) (hm : ElementMove s t) :
    t.HistogramOk := by
  have hcount : (countSymbol s).HistogramOk := ⟨hs.written, hs.counts⟩
  cases hm with
  | markBlock _ => exact ⟨fun i hi => absurd hi (Nat.not_lt_zero i), fun v => rfl⟩
  | literalFull u _ hf | eob u _ hf =>
    have hu := flushRun_histogramOk hcount hf
    exact ⟨hu.written, hu.counts⟩
  | literal u _ _ r v _ _ _ _ _ hf _ _ _ _ _ =>
    refine (flushRun_histogramOk hcount hf).append (k := 1) (v := v) (fun i => ?_) rfl rfl
    show Memory.lookup (Memory.insert u.bwtBlock u.bwtLen v) i = _
    rw [Memory.lookup_insert]
    exact if_congr (by omega) rfl rfl
  | rleRun _ _ u _ _ _ _ hn =>
    rw [nextBWT_frame hn]
    exact ⟨hs.written, hs.counts⟩
  | _ => exact ⟨hs.written, hs.counts⟩

theorem WalkMove.histogramOk {s t : State} (hs : s.HistogramOk) (hm : WalkMove s t) : t.HistogramOk := by
  cases hm with
  | byte _ u _ hn =>
    rw [nextBWT_frame hn]
    exact ⟨hs.written, hs.counts⟩
  | _ => exact ⟨hs.written, hs.counts⟩

theorem FillMove.histogramOk {s t : State} (hs : s.HistogramOk) (hm : FillMove s t) : t.HistogramOk := by
  cases hm <;> exact ⟨hs.written, hs.counts⟩

theorem CoreMove.histogramOk {s t : State} (hs : s.HistogramOk) (hm : CoreMove s t) : t.HistogramOk := by
  cases hm with
  | quiet _ => exact hs
  | fill _ _ _ _ _ _ => exact (fill_move s).histogramOk hs
  | walk _ _ _ _ hx => exact (walkStep_move hx).histogramOk hs
  | count _ _ _ hx =>
    obtain ⟨-, rfl⟩ | ⟨_, u, hn, rfl⟩ := fetchCount_move hx
    · exact ⟨hs.written, hs.counts⟩
    · rw [nextBWT_frame hn]
      exact ⟨hs.written, hs.counts⟩
  | select _ _ _ hx =>
    obtain ⟨-, rfl⟩ | ⟨_, -, -, -, rfl⟩ | ⟨-, rfl⟩ := selectStep_move hx <;> exact ⟨hs.written, hs.counts⟩
  | invert _ _ _ hx =>
    obtain ⟨-, rfl⟩ | ⟨_, _, -, -, -, rfl⟩ := invertStep_move hx <;> exact ⟨hs.written, hs.counts⟩
  | run _ _ _ hr _ _ hx => exact (exec_move hr hx).histogramOk hs
  | take _ _ _ _ _ _ _ _ _ | reject _ _ _ _ _ _ _ => exact ⟨hs.written, hs.counts⟩

end Sys2Proof.Machine
end

section
/-! SUPPORT. Every step of the core keeps the canonical form of the internal memories (spec/20_memory.md R80,
R83), and the BitCursor's bounds (spec/40_bitcursor.md R160). -/

namespace Sys2Proof.Machine

/-! ## Memories -/

theorem selFL_promoted {s : State} (hs : s.MemoriesWf) {j : Nat} {v : Byte} (hv : s.selFL[j]? = some v) :
    (v :: (s.selFL.take j ++ s.selFL.drop (j + 1))).length = Config.memSize .selFL := by
  rw [promote_length hv]
  refine hs.selFL.resolve_left fun h => ?_
  rw [h] at hv
  cases hv

theorem mtfFL_promoted {s : State} (hs : s.MemoriesWf) {j : Nat} {v : Byte} (hv : s.mtfFL[j]? = some v) :
    (v :: (s.mtfFL.take j ++ s.mtfFL.drop (j + 1))).length = Config.memSize .mtfFL := by
  rw [promote_length hv]
  refine hs.mtfFL.resolve_left fun h => ?_
  rw [h] at hv
  cases hv

/-- A write keeps the form of a sparse memory. -/
theorem form_insert {α : Type} {m : Memory α} {n i : Nat} (v : α) (hi : i < n)
    (hm : Memory.wf m = true ∧ Memory.within n m = true) :
    Memory.wf (Memory.insert m i v) = true ∧ Memory.within n (Memory.insert m i v) = true :=
  ⟨Memory.wf_insert i v hm.1, Memory.within_insert v hi hm.2⟩

/-- A code length recorded inside its table. -/
theorem codeLen_form {s : State} (hs : s.MemoriesWf) {t k l : Nat}
    (hx : t < Config.maxTables ∧ k < Config.maxSymbols) :
    Memory.wf (Memory.insert s.codeLen (codeLenKey t k) l) = true
      ∧ Memory.within (Config.memSize .codeLen) (Memory.insert s.codeLen (codeLenKey t k) l) = true :=
  form_insert l (codeLenKey_lt hx.1 hx.2) hs.codeLen

/-- A table built from recorded lengths. -/
theorem tables_form {s : State} (hs : s.MemoriesWf) {m : Memory Nat} {t n : Nat} {lens : List Nat}
    (ht : t < Config.maxTables) (hc : codeLensFrom m t (n + 1) 0 = .ok lens) :
    (Memory.wf (Memory.insert s.tables t (buildTable lens)) = true
        ∧ Memory.within (Config.memSize .tables) (Memory.insert s.tables t (buildTable lens)) = true)
      ∧ (Memory.insert s.tables t (buildTable lens)).all (fun p => tableWf p.2) = true :=
  ⟨form_insert _ ht hs.tables,
    Memory.all_insert hs.slots (buildTable_wf (codeLensFrom_length_le hc))⟩

/-- The values of a used range joined to the symbol map. -/
theorem symMap_form {s : State} (hs : s.MemoriesWf) {vs : List Byte} {n : Nat} {m : Memory Byte}
    (ha : appendSymbols vs s.numInUse s.symMap = .ok (n, m)) :
    Memory.wf m = true ∧ Memory.within (Config.memSize .symMap) m = true := by
  obtain ⟨-, -, -, hwf, hwithin⟩ := appendSymbols_eq_ok ha
  exact ⟨hwf hs.symMap.1, hwithin hs.symMap.2⟩

theorem ElementMove.memoriesWf {s t : State} (hs : s.MemoriesWf) (hm : ElementMove s t) : t.MemoriesWf := by
  cases hm with
  | markBlock _ =>
    exact { hs with
      hist := ⟨rfl, rfl⟩, histNoZero := rfl
      selFL := .inr identityList_length, mtfFL := .inr identityList_length }
  | mapPresent _ _ _ _ _ ha _ | mapEmpty _ _ _ _ ha | mapDone _ _ _ _ ha _ =>
    exact { hs with symMap := symMap_form hs ha }
  | selMtf _ _ _ _ hv hx _ | lastSelMtf _ _ _ _ hv hx _ =>
    exact { hs with
      selectors := form_insert _ hx hs.selectors, selFL := .inr (selFL_promoted hs hv) }
  | clDone _ _ _ hx _ => exact { hs with codeLen := codeLen_form hs hx }
  | table _ _ _ _ hx _ hc ht _ | lastTable _ _ _ _ hx _ hc ht _ =>
    exact { hs with
      codeLen := codeLen_form hs hx, tables := (tables_form hs ht hc).1, slots := (tables_form hs ht hc).2 }
  | literalFull u _ hf | eob u _ hf => exact { flushRun_memoriesWf hs hf with }
  | literal u _ _ _ v _ _ _ _ _ hf _ hr _ _ hb =>
    have hu := flushRun_memoriesWf hs hf
    exact { hu with
      bwtBlock := form_insert v hb hu.bwtBlock
      hist := ⟨histAdd_wf v.toNat 1 hu.hist.1, histAdd_within 1 v.isLt hu.hist.2⟩
      histNoZero := histAdd_noZero v.toNat 1 hu.histNoZero
      mtfFL := .inr (mtfFL_promoted hu hr) }
  | rleRun _ _ u _ _ _ _ hn => exact { nextBWT_memoriesWf hs hn with }
  | _ => exact { hs with }

theorem WalkMove.memoriesWf {s t : State} (hs : s.MemoriesWf) (hm : WalkMove s t) : t.MemoriesWf := by
  cases hm with
  | byte _ u _ hn => exact { nextBWT_memoriesWf hs hn with }
  | _ => exact { hs with }

theorem FillMove.memoriesWf {s t : State} (hs : s.MemoriesWf) (hm : FillMove s t) : t.MemoriesWf := by
  cases hm <;> exact { hs with }

theorem CoreMove.memoriesWf {s t : State} (hs : s.MemoriesWf) (hm : CoreMove s t) : t.MemoriesWf := by
  cases hm with
  | quiet _ => exact hs
  | fill _ _ _ _ _ _ => exact (fill_move s).memoriesWf hs
  | walk _ _ _ _ hx => exact (walkStep_move hx).memoriesWf hs
  | count _ _ _ hx =>
    obtain ⟨-, rfl⟩ | ⟨_, u, hn, rfl⟩ := fetchCount_move hx
    · exact { hs with }
    · exact { nextBWT_memoriesWf hs hn with }
  | select _ _ _ hx =>
    obtain ⟨-, rfl⟩ | ⟨_, -, -, -, rfl⟩ | ⟨-, rfl⟩ := selectStep_move hx <;> exact { hs with }
  | invert _ _ _ hx =>
    obtain ⟨-, rfl⟩ | ⟨_, _, -, hb, -, rfl⟩ := invertStep_move hx
    · exact { hs with }
    · exact { hs with mp := buildMp_wf hb hs.mp }
  | run _ _ _ hr _ _ hx => exact (exec_move hr hx).memoriesWf hs
  | take _ _ _ _ _ _ _ _ _ | reject _ _ _ _ _ _ _ => exact { hs with }

/-! ## The BitCursor -/

/-- An element's own step reads nothing (spec/40_bitcursor.md R162). -/
theorem ElementMove.bitCnt {s t : State} (hm : ElementMove s t) : t.bitCnt = s.bitCnt := by
  cases hm with
  | literalFull u _ hf | eob u _ hf | literal u _ _ _ _ _ _ _ _ _ hf _ _ _ _ _ => rw [flushRun_frame hf]; rfl
  | rleRun _ _ u _ _ _ _ hn => rw [nextBWT_frame hn]; rfl
  | _ => rfl

theorem WalkMove.bitCnt {s t : State} (hm : WalkMove s t) : t.bitCnt = s.bitCnt := by
  cases hm with
  | byte _ u _ hn => rw [nextBWT_frame hn]; rfl
  | _ => rfl

/-- A step that reads nothing, from a position without a read in progress. -/
theorem State.CursorOk.unread {s t : State} (hs : s.CursorOk) (hp : pendingRead s = 0) (he : s.phase ≠ .error)
    (ht : t.bitCnt = s.bitCnt) : t.CursorOk := by
  have := hs.rest he
  exact ⟨by omega, fun _ => by omega⟩

theorem pendingRead_of_rle {s : State} (h : s.slot = .rle ∨ s.slot = .rleCount) : pendingRead s = 0 := by
  rcases h with h | h <;> simp only [pendingRead, h]

theorem pendingRead_of_stage {s : State} (h : s.slot = .select ∨ s.slot = .invert) : pendingRead s = 0 := by
  rcases h with h | h <;> simp only [pendingRead, ctxOf, h]

theorem FillMove.cursorOk {s t : State} {n : Nat} (hs : s.CursorOk) (hn : n ≤ 24) (hp : pendingRead s = n)
    (hc : s.bitCnt < n) (he : s.phase ≠ .error) (hm : FillMove s t) : t.CursorOk := by
  have hrest := hs.rest he
  cases hm with
  | closed _ | eof _ _ _ => exact ⟨hs.total, fun h => absurd rfl h⟩
  | hold _ _ => exact ⟨hs.total, fun _ => hrest⟩
  | byte _ _ _ _ =>
    refine ⟨show s.bitCnt + 8 ≤ 31 by omega, fun _ => ?_⟩
    show s.bitCnt + 8 ≤ pendingRead s + 7
    omega

theorem takeBits_cursorOk {s : State} {n : Nat} (hs : s.CursorOk) (hp : pendingRead s = n)
    (he : s.phase ≠ .error) : (takeBits n s).CursorOk := by
  have hrest := hs.rest he
  have htotal := hs.total
  have hb : (takeBits n s).bitCnt = s.bitCnt - n := rfl
  exact ⟨by omega, fun _ => by omega⟩

theorem CoreMove.cursorOk {s t : State} (hs : s.CursorOk) (hm : CoreMove s t) : t.CursorOk := by
  cases hm with
  | quiet _ => exact hs
  | fill _ ha _ hp hn hc => exact (fill_move s).cursorOk hs hn hp hc (ne_error_of_active ha)
  | take _ _ ha _ hp _ _ _ _ => exact takeBits_cursorOk hs hp (ne_error_of_active ha)
  | walk _ ha h _ hx =>
    exact hs.unread (pendingRead_of_rle (.inl h)) (ne_error_of_active ha) (walkStep_move hx).bitCnt
  | count _ ha h hx =>
    refine hs.unread (pendingRead_of_rle (.inr h)) (ne_error_of_active ha) ?_
    obtain ⟨-, rfl⟩ | ⟨_, u, hn, rfl⟩ := fetchCount_move hx
    · rfl
    · rw [nextBWT_frame hn]; rfl
  | select _ ha h hx =>
    refine hs.unread (pendingRead_of_stage (.inl h)) (ne_error_of_active ha) ?_
    obtain ⟨-, rfl⟩ | ⟨_, -, -, -, rfl⟩ | ⟨-, rfl⟩ := selectStep_move hx <;> rfl
  | invert _ ha h hx =>
    refine hs.unread (pendingRead_of_stage (.inr h)) (ne_error_of_active ha) ?_
    obtain ⟨-, rfl⟩ | ⟨_, _, -, -, -, rfl⟩ := invertStep_move hx <;> rfl
  | reject _ _ ha _ _ hp _ => exact hs.unread hp (ne_error_of_active ha) rfl
  | run _ _ ha hr hp _ hx => exact hs.unread hp (ne_error_of_active ha) (exec_move hr hx).bitCnt

end Sys2Proof.Machine
end

section
/-! SUPPORT. What a core step does to the wait flags (spec/10_state.md R31; spec/60_exceptions.md R390). -/

namespace Sys2Proof.Machine

/-- What a core step from `s` to `t` does to the wait flags: it holds for the source, or for the sink, and
changes nothing else, or it leaves both flags clear. -/
inductive WaitMove (s t : State) : Prop
  | source (ht : t = { s with waitSrc := true }) (hsnk : s.waitSnk = false) (ha : s.phase.active = true)
      (hclosed : s.srcClosed = false) (hc : s.bitCnt < pendingRead s)
  | sink (ht : t = { s with waitSnk := true }) (hsrc : s.waitSrc = false) (ha : s.phase.active = true)
      (ho : offersByte s = true)
  | clear (hsrc : t.waitSrc = false) (hsnk : t.waitSnk = false)

theorem WaitMove.waitOk {s t : State} (hm : WaitMove s t) : t.WaitOk := by
  cases hm with
  | source ht hsnk ha hclosed hc =>
    subst ht
    refine ⟨fun _ => ⟨ha, hclosed, hc⟩, fun h => ?_⟩
    rw [show s.waitSnk = true from h] at hsnk
    cases hsnk
  | sink ht hsrc ha ho =>
    subst ht
    refine ⟨fun h => ?_, fun _ => ⟨ha, ho⟩⟩
    rw [show s.waitSrc = true from h] at hsrc
    cases hsrc
  | clear hsrc hsnk =>
    refine ⟨fun h => ?_, fun h => ?_⟩
    · rw [hsrc] at h; cases h
    · rw [hsnk] at h; cases h

section
variable {s t : State} (hs : s.WaitOk)
include hs

/-- Without a read that lacks bits there is no wait for the source. -/
theorem State.WaitOk.no_source (h : pendingRead s ≤ s.bitCnt) : s.waitSrc = false := by
  by_contra hw
  have := (hs.source (by simpa using hw)).2.2
  omega

/-- Without a byte on offer there is no wait for the sink. -/
theorem State.WaitOk.no_sink (h : offersByte s = false) : s.waitSnk = false := by
  by_contra hw
  have := (hs.sink (by simpa using hw)).2
  rw [h] at this
  cases this

/-- Only the streaming loop offers bytes. -/
theorem State.WaitOk.no_sink_of_slot (h : s.slot ≠ .rle) : s.waitSnk = false :=
  hs.no_sink (by simp [offersByte, h])

/-- Where nothing is read and no byte is offered both flags are clear. -/
theorem State.WaitOk.both_clear (hp : pendingRead s = 0) (h : s.slot ≠ .rle) :
    s.waitSrc = false ∧ s.waitSnk = false :=
  ⟨hs.no_source (by omega), hs.no_sink_of_slot h⟩

theorem ElementMove.waitMove (ha : s.phase.active = true) (hp : pendingRead s = 0)
    (hl : s.slot = .rle → 8 ≤ s.latch.length) (hm : ElementMove s t) : WaitMove s t := by
  have hsrc : s.waitSrc = false := hs.no_source (by omega)
  have full : s.slot = .rle → ¬ s.latch.length < 8 := fun h => Nat.not_lt.mpr (hl h)
  cases hm with
  | rleHold b h hv _ ho =>
    subst hv
    refine .sink rfl hsrc ha ?_
    simpa [offersByte, h, full h] using ho
  | rleLit _ _ _ _ | rleRep _ _ _ _ _ => exact .clear hsrc rfl
  | rleRun b _ u h hv hb hacc hn =>
    subst hv
    have hsnk : s.waitSnk = false := hs.no_sink (by simp [offersByte, h, full h, hb, hacc])
    rw [nextBWT_frame hn]
    exact .clear hsrc hsnk
  | noCount b h hv hb hacc _ =>
    subst hv
    exact .clear hsrc (hs.no_sink (by simp [offersByte, h, full h, hb, hacc]))
  | literalFull u h hf | eob u h hf | literal u _ _ _ _ h _ _ _ _ hf _ _ _ _ _ =>
    rw [flushRun_frame hf]
    exact .clear hsrc (hs.no_sink_of_slot (by rw [h]; exact nofun))
  | _ => exact .clear hsrc (hs.no_sink_of_slot (by rw [‹s.slot = _›]; exact nofun))

theorem WalkMove.waitMove (ha : s.phase.active = true) (h : s.slot = .rle) (hl : s.latch.length < 8)
    (hm : WalkMove s t) : WaitMove s t := by
  have hsrc : s.waitSrc = false := hs.no_source (by rw [pendingRead_of_rle (.inl h)]; omega)
  have quiet : s.rlePending = 0 → s.waitSnk = false := fun hp => hs.no_sink (by simp [offersByte, h, hl, hp])
  cases hm with
  | copyHold _ hp _ _ => exact .sink rfl hsrc ha (by simp [offersByte, h, hl, hp])
  | copy _ _ _ _ => exact .clear hsrc rfl
  | byte _ u hp hn =>
    rw [nextBWT_frame hn]
    exact .clear hsrc (quiet hp)
  | badCrc hp _ => exact .clear hsrc (quiet hp)
  | blockEnd hp _ _ => exact .clear hsrc (quiet hp)

theorem FillMove.waitMove (ha : s.phase.active = true) (hsnk : s.waitSnk = false)
    (hc : s.bitCnt < pendingRead s) (hm : FillMove s t) : WaitMove s t := by
  cases hm with
  | closed hclosed =>
    refine .clear ?_ hsnk
    by_contra hw
    rw [(hs.source (by simpa using hw)).2.1] at hclosed
    cases hclosed
  | hold hopen _ => exact .source rfl hsnk ha hopen hc
  | eof _ _ _ | byte _ _ _ _ => exact .clear rfl hsnk

theorem CoreMove.waitMove (hm : CoreMove s t) : WaitMove s t := by
  cases hm with
  | quiet ha =>
    refine .clear ?_ ?_ <;> by_contra hw
    · rw [(hs.source (by simpa using hw)).1] at ha
      cases ha
    · rw [(hs.sink (by simpa using hw)).1] at ha
      cases ha
  | fill _ ha hr hp _ hc => exact (fill_move s).waitMove hs ha (hs.no_sink_of_slot hr.1) (by omega)
  | take _ _ _ hr hp _ hc _ _ => exact .clear (hs.no_source (by omega)) (hs.no_sink_of_slot hr.1)
  | walk _ ha h hl hx => exact (walkStep_move hx).waitMove hs ha h hl
  | count _ _ h hx =>
    obtain ⟨hsrc, hsnk⟩ := hs.both_clear (pendingRead_of_rle (.inr h)) (by rw [h]; exact nofun)
    obtain ⟨-, rfl⟩ | ⟨_, u, hn, rfl⟩ := fetchCount_move hx
    · exact .clear hsrc hsnk
    · rw [nextBWT_frame hn]
      exact .clear hsrc hsnk
  | select _ _ h hx =>
    obtain ⟨hsrc, hsnk⟩ := hs.both_clear (pendingRead_of_stage (.inl h)) (by rw [h]; exact nofun)
    obtain ⟨-, rfl⟩ | ⟨_, -, -, -, rfl⟩ | ⟨-, rfl⟩ := selectStep_move hx <;> exact .clear hsrc hsnk
  | invert _ _ h hx =>
    obtain ⟨hsrc, hsnk⟩ := hs.both_clear (pendingRead_of_stage (.inr h)) (by rw [h]; exact nofun)
    obtain ⟨-, rfl⟩ | ⟨_, _, -, -, -, rfl⟩ := invertStep_move hx <;> exact .clear hsrc hsnk
  | reject _ _ _ _ _ hp hr =>
    obtain ⟨hsrc, hsnk⟩ := hs.both_clear hp (fun h => by simp [RejectsAt, h] at hr)
    exact .clear hsrc hsnk
  | run _ _ ha hr hp hl hx => exact (exec_move hr hx).waitMove hs ha hp hl

end

end Sys2Proof.Machine
end

section
/-! SUPPORT. Every core step from a sound stage keeps the registers inside their widths (spec/10_state.md R21 to
R44; spec/45_symbol_decode.md R286). -/

namespace Sys2Proof.Machine

/-! ## The bounds of the payload's registers -/

/-- The block's capacity (spec/10_state.md R25). -/
theorem MultReady.blockSize_le {s : State} (h : MultReady s) : blockSize s ≤ Config.maxBlock := by
  have := h.2
  simp only [blockSize, Config.maxMult, Config.blockUnit, Config.maxBlock] at *
  omega

/-- The block with its pending run fits, and the increment is below 2^20 (R286). -/
theorem PayloadOk.bounds {s : State} (h : PayloadOk s) (hm : MultReady s) :
    s.bwtLen + s.runLen ≤ Config.maxBlock ∧ s.runInc ≤ 2 ^ 19 := by
  obtain ⟨-, -, -, hfit, k, hk, hrun⟩ := h
  have hcap := hm.blockSize_le
  refine ⟨by omega, ?_⟩
  simp only [Config.maxBlock] at hcap
  have hlt : (2 : Nat) ^ k < 2 ^ 20 := by omega
  have hk19 : k ≤ 19 := Nat.le_of_lt_succ ((Nat.pow_lt_pow_iff_right (by omega)).mp hlt)
  rw [hk]
  exact Nat.pow_le_pow_right (by omega) hk19

/-- One more digit of a run stays inside its registers (R281, R282). -/
theorem PayloadOk.escape_bounds {s : State} {w : Nat} (h : PayloadOk s) (hm : MultReady s) (hw : w ≤ 2) :
    s.runLen + w * s.runInc < 2 ^ 21 ∧ s.runInc * 2 ≤ 2 ^ 20 := by
  obtain ⟨hfit, hinc⟩ := h.bounds hm
  have hmul : w * s.runInc ≤ 2 * s.runInc := Nat.mul_le_mul_right _ hw
  simp only [Config.maxBlock] at hfit
  omega

theorem flushRun_widthsOk {s t : State} (hs : s.WidthsOk) (hfit : s.bwtLen + s.runLen ≤ Config.maxBlock)
    (hf : flushRun s = .ok t) : t.WidthsOk := by
  obtain ⟨-, rfl⟩ | ⟨v, m, -, -, -, -, rfl⟩ := flushRun_eq_ok hf
  · exact hs
  · exact { hs with bwtLen := hfit, runLen := Nat.two_pow_pos 21, runInc := Nat.one_le_two_pow }

/-! ## The walk's registers -/

theorem rnums_le : ∀ r ∈ Config.rnums, r ≤ 999 := by
  have h : Config.rnums.all (fun r => decide (r ≤ 999)) = true := by
    simp only [Config.rnums, List.all_append, Bool.and_eq_true]
    refine ⟨⟨⟨⟨⟨⟨⟨?_, ?_⟩, ?_⟩, ?_⟩, ?_⟩, ?_⟩, ?_⟩, ?_⟩ <;> decide
  exact fun r hr => of_decide_eq_true (List.all_eq_true.mp h r hr)

theorem period_le (i : Nat) : Config.rnums.getD i 0 ≤ 999 := by
  rw [List.getD_eq_getElem?_getD]
  cases h : Config.rnums[i]? with
  | none => exact Nat.zero_le _
  | some r => exact rnums_le r (List.mem_of_getElem? h)

/-- The period counter never passes the largest period (spec/46_bwt.md R306, R307). -/
theorem derandomise_rNToGo_le {b : Byte} {s : State} (h : s.rNToGo ≤ 999) :
    (derandomise b s).2.rNToGo ≤ 999 := by
  have hreload : (reloadPeriod Config.rnums s).rNToGo ≤ 999 := by
    unfold reloadPeriod
    split
    · exact period_le _
    · exact h
  unfold derandomise derandomiseWith
  split
  · exact le_trans (Nat.sub_le _ _) hreload
  · exact h

theorem nextBWT_widthsOk {s t : State} {b? : Option Byte} (hs : s.WidthsOk) (hw : WalkOk s)
    (hn : nextBWT s = .ok (b?, t)) : t.WidthsOk := by
  obtain ⟨-, -, rfl⟩ | ⟨c, hne, -, -, -, rfl⟩ := nextBWT_eq_ok hn
  · exact hs
  · have hr := derandomise_rNToGo_le (b := BitVec.setWidth 8 s.cursor)
      (s := { s with cursor := c, bwtDone := s.bwtDone + 1 }) hs.rNToGo
    have hdone : s.bwtDone + 1 ≤ Config.maxBlock := by
      have := hw.1
      have := hs.bwtLen
      omega
    rw [derandomise_frame]
    exact { hs with bwtDone := hdone, rNToGo := hr }

/-! ## The elements -/

/-- The values of a range that fit the symbol map. -/
theorem appendSymbols_le {s : State} (hs : s.WidthsOk) {vs : List Byte} {n : Nat} {m : Memory Byte}
    (ha : appendSymbols vs s.numInUse s.symMap = .ok (n, m)) : n ≤ 256 := by
  obtain ⟨hn, hvs | hle, -⟩ := appendSymbols_eq_ok ha
  · rw [hn, hvs]
    exact hs.numInUse
  · exact hle

/-- A selector names one of the block's tables (spec/44_block_header.md R250). -/
theorem selector_lt {s : State} {j : Nat} {v : Byte} (hc : CountsReady s)
    (hp : PrefixClosed s.numTables s.selFL) (hj : j = 0 ∨ j < s.numTables) (hv : s.selFL[j]? = some v) :
    v.toNat < s.numTables := by
  obtain ⟨hmin, -⟩ := hc
  simp only [Config.minTables] at hmin
  exact hp j v (by omega) hv

theorem selectors_insert {s : State} (hs : s.WidthsOk) {v : Byte} (hc : CountsReady s)
    (hv : v.toNat < s.numTables) :
    (Memory.insert s.selectors s.selIdx v.toNat).all (fun p => decide (p.2 < Config.maxTables)) = true :=
  Memory.all_insert hs.selectors (decide_eq_true (lt_of_lt_of_le hv hc.2.1))

theorem codeLen_insert {s : State} (hs : s.WidthsOk) {k l : Nat} (hl : 1 ≤ l ∧ l ≤ Config.maxCodeLen) :
    (Memory.insert s.codeLen k l).all
      (fun p => decide (1 ≤ p.2) && decide (p.2 ≤ Config.maxCodeLen)) = true :=
  Memory.all_insert hs.codeLen (by simp [hl])

/-- A selector is left for the symbol being read (spec/43_huffman.md R218). -/
theorem symCount_succ_le {s : State} (hc : CountsReady s)
    (hcount : s.symCount < s.numSelectors * Config.groupSize) :
    s.symCount + 1 ≤ Config.maxSelectors * Config.groupSize := by
  obtain ⟨-, -, -, hmax⟩ := hc
  exact le_trans hcount (Nat.mul_le_mul_right _ hmax)

/-- The flush before a literal or the block's last symbol (spec/45_symbol_decode.md R283). -/
theorem symbol_flush_widthsOk {s t : State} (hs : s.WidthsOk) (hst : StageOk s) (h : s.slot = .symbol)
    (hf : flushRun (countSymbol s) = .ok t) : t.WidthsOk := by
  rw [StageOk, h] at hst
  obtain ⟨hmult, -, hc, -, -, hpay, hcount, -⟩ := hst
  have hw : (countSymbol s).WidthsOk := { hs with symCount := symCount_succ_le hc hcount }
  exact flushRun_widthsOk hw (hpay.bounds hmult).1 hf

theorem ElementMove.widthsOk {s t : State} (hs : s.WidthsOk) (hst : StageOk s) (hm : ElementMove s t) :
    t.WidthsOk := by
  have empty : ([] : List Bool).length ≤ 48 := Nat.zero_le _
  cases hm with
  | badLevel _ | badStreamCrc _ _ | badCodeLen _ | noCount _ _ _ _ _ _ | rleHold _ _ _ _ _ => exact { hs with }
  | markBlock _ =>
    exact { hs with
      latch := empty, bwtLen := Nat.zero_le _, symCount := Nat.zero_le _, runLen := Nat.two_pow_pos 21
      runInc := Nat.one_le_two_pow, bwtDone := Nat.zero_le _, rNToGo := Nat.zero_le _
      rleAcc := Nat.zero_le _, rlePending := Nat.zero_le _, pendingByte := fun h => absurd h (lt_irrefl 0) }
  | mapUsed _ k _ hk =>
    exact { hs with latch := empty, numInUse := Nat.zero_le _, rangeIdx := hk }
  | emptyMap _ _ => exact { hs with numInUse := Nat.zero_le _ }
  | mapPresent _ n _ k _ ha hk =>
    exact { hs with latch := empty, numInUse := appendSymbols_le hs ha, rangeIdx := hk.2 }
  | mapEmpty _ n _ _ ha => exact { hs with numInUse := appendSymbols_le hs ha }
  | mapDone _ n _ _ ha _ =>
    exact { hs with
      latch := empty, numInUse := appendSymbols_le hs ha, eob := Nat.succ_le_succ (appendSymbols_le hs ha) }
  | nGroups n _ => exact { hs with latch := empty, numTables := Nat.le_of_lt_succ n.isLt }
  | badTables k _ | badSelCount k _ => exact { hs with numSelectors := Nat.le_of_lt_succ k.isLt }
  | nSelectors k _ _ _ =>
    exact { hs with latch := empty, numSelectors := Nat.le_of_lt_succ k.isLt, selIdx := Nat.zero_le _ }
  | selMtf j v h hj hv hx _ =>
    rw [StageOk, h] at hst
    obtain ⟨-, -, -, hc, -, hp, -, -⟩ := hst
    exact { hs with latch := empty, selIdx := hx, selectors := selectors_insert hs hc (selector_lt hc hp hj hv) }
  | lastSelMtf j v h hj hv hx _ =>
    rw [StageOk, h] at hst
    obtain ⟨-, -, -, hc, -, hp, -, -⟩ := hst
    exact { hs with
      latch := empty, selIdx := hx, tableIdx := Nat.zero_le _
      selectors := selectors_insert hs hc (selector_lt hc hp hj hv) }
  | clStart _ _ => exact { hs with latch := empty, symIdx := Nat.zero_le _ }
  | clDone l _ hl _ hsym =>
    exact { hs with
      latch := empty, symIdx := le_trans (Nat.succ_le_of_lt hsym) hs.eob, codeLen := codeLen_insert hs hl }
  | table l _ _ hl _ _ _ ht _ | lastTable l _ _ hl _ _ _ ht _ =>
    exact { hs with latch := empty, tableIdx := ht, codeLen := codeLen_insert hs hl }
  | escape w h hw _ =>
    rw [StageOk, h] at hst
    obtain ⟨hmult, -, hc, -, -, hpay, hcount, -⟩ := hst
    obtain ⟨hlen, hinc⟩ := hpay.escape_bounds hmult hw.2
    have hsym := symCount_succ_le hc hcount
    exact { hs with latch := empty, symCount := hsym, runLen := hlen, runInc := hinc }
  | escapeFull w h hw =>
    rw [StageOk, h] at hst
    obtain ⟨hmult, -, hc, -, -, hpay, hcount, -⟩ := hst
    obtain ⟨hlen, hinc⟩ := hpay.escape_bounds hmult hw.2
    have hsym := symCount_succ_le hc hcount
    exact { hs with symCount := hsym, runLen := hlen, runInc := hinc }
  | literalFull u h hf =>
    exact { symbol_flush_widthsOk hs hst h hf with }
  | literal u _ _ _ _ h _ _ _ _ hf _ _ _ _ hb =>
    exact { symbol_flush_widthsOk hs hst h hf with latch := empty, bwtLen := hb }
  | eob u h hf => exact { symbol_flush_widthsOk hs hst h hf with latch := empty }
  | rleLit b _ _ _ => exact { hs with latch := empty, rleAcc := (by decide : 1 ≤ 3), pendingByte := fun _ => nofun }
  | rleRep b _ _ _ ha => exact { hs with latch := empty, rleAcc := ha }
  | rleRun b c u h _ _ _ hn =>
    rw [StageOk, h] at hst
    exact { nextBWT_widthsOk hs hst.2 hn with latch := by simp [byteBits] }
  | rleCount c h =>
    rw [StageOk, h] at hst
    obtain ⟨-, -, hlast, -⟩ := hst
    exact { hs with
      latch := empty, rleAcc := Nat.zero_le _, rlePending := c.isLt, pendingByte := fun _ => hlast }
  | _ => exact { hs with latch := empty }

/-! ## The walk, the reads and the whole core step -/

theorem WalkMove.widthsOk {s t : State} (hs : s.WidthsOk) (hw : WalkOk s) (hm : WalkMove s t) : t.WidthsOk := by
  cases hm with
  | copyHold _ _ _ _ | badCrc _ _ => exact { hs with }
  | copy b _ hb _ =>
    refine { hs with rlePending := le_trans (Nat.sub_le _ 1) hs.rlePending, pendingByte := fun _ h => ?_ }
    rw [show s.rleLast = none from h] at hb
    cases hb
  | byte b u _ hn => exact { nextBWT_widthsOk hs hw hn with latch := by simp [byteBits] }
  | blockEnd _ _ _ => exact { hs with latch := Nat.zero_le _ }

theorem FillMove.widthsOk {s t : State} (hs : s.WidthsOk) (hm : FillMove s t) : t.WidthsOk := by
  cases hm <;> exact { hs with }

theorem path_of_stage {s : State} (hst : StageOk s) (h : s.slot = .symbol) : PathOk s := by
  rw [StageOk, h] at hst
  obtain ⟨-, -, -, -, -, -, -, -, hpath⟩ := hst
  exact hpath

theorem walk_of_stage {s : State} (hst : StageOk s) (h : s.slot = .rle ∨ s.slot = .rleCount) : WalkOk s := by
  rcases h with h | h <;> rw [StageOk, h] at hst
  · exact hst.2
  · exact hst.2.1

theorem CoreMove.widthsOk {s t : State} (hs : s.WidthsOk) (hst : s.phase.active = true → StageOk s)
    (hm : CoreMove s t) : t.WidthsOk := by
  cases hm with
  | quiet _ => exact hs
  | fill _ _ _ _ _ _ => exact (fill_move s).widthsOk hs
  | take n c ha _ _ _ _ hc hd =>
    have hn := (read_bounds (path_of_stage (hst ha)) hs.numTables hc hd).2
    exact { hs with latch := by simpa using hn }
  | walk _ ha h _ hx => exact (walkStep_move hx).widthsOk hs (walk_of_stage (hst ha) (.inl h))
  | count _ ha h hx =>
    obtain ⟨-, rfl⟩ | ⟨_, u, hn, rfl⟩ := fetchCount_move hx
    · exact { hs with }
    · exact { nextBWT_widthsOk hs (walk_of_stage (hst ha) (.inr h)) hn with latch := by simp [byteBits] }
  | select _ ha h hx =>
    have hstage := hst ha
    rw [StageOk, h] at hstage
    obtain ⟨-, -, hc, hsel, -⟩ := hstage
    obtain ⟨-, rfl⟩ | ⟨n, -, hg, hn, rfl⟩ | ⟨-, rfl⟩ := selectStep_move hx
    · exact { hs with }
    · obtain ⟨t, ht, hlt⟩ := hsel _ hg
      rw [hn] at ht
      cases ht
      exact { hs with latch := Nat.zero_le _, curTable := lt_of_lt_of_le hlt hc.2.1 }
    · exact { hs with latch := Nat.zero_le _ }
  | invert _ _ _ hx =>
    obtain ⟨-, rfl⟩ | ⟨_, _, -, -, -, rfl⟩ := invertStep_move hx
    · exact { hs with }
    · exact { hs with latch := Nat.zero_le _, bwtDone := Nat.zero_le _ }
  | reject _ _ _ _ _ _ _ => exact { hs with }
  | run _ _ ha hr _ _ hx => exact (exec_move hr hx).widthsOk hs (hst ha)

end Sys2Proof.Machine
end

section
/-! SUPPORT. Every core step from a sound stage makes the next stage ready (`StageOk`): the level, the symbol map,
the counts and selectors, the code lengths and tables, the payload and the walk. -/

namespace Sys2Proof.Machine

/-! ## Header and block header -/

/-- An accepted level is 1 to 9 (spec/48_stream.md R343). -/
theorem levelMult_bounds {d : Byte} (hd : 0x31 ≤ d.toNat ∧ d.toNat ≤ 0x39) :
    1 ≤ (levelMult d).toNat ∧ (levelMult d).toNat ≤ Config.maxMult := by
  simp only [levelMult, BitVec.toNat_ofNat, Config.maxMult]
  omega

/-- A range has at most 16 values (spec/44_block_header.md R245). -/
theorem presentValues_length_le (i : Nat) (p : BitVec 16) : (presentValues i p).length ≤ 16 := by
  rw [presentValues, List.length_map]
  exact le_trans (List.length_filter_le _ _) (by simp)

/-- The symbol map after a range: at most 16 symbols for each range so far, all of them written (R245). -/
theorem appendSymbols_ready {s : State} {p : BitVec 16} {n : Nat} {m : Memory Byte}
    (hle : s.numInUse ≤ 16 * s.rangeIdx) (hmap : SymMapTo s.numInUse s)
    (ha : appendSymbols (presentValues s.rangeIdx p) s.numInUse s.symMap = .ok (n, m)) :
    n ≤ 16 * (s.rangeIdx + 1) ∧ ∀ k, k < n → ∃ v, Memory.lookup m k = some v := by
  obtain ⟨hn, -, hlook, -⟩ := appendSymbols_eq_ok ha
  have hlen := presentValues_length_le s.rangeIdx p
  refine ⟨by omega, fun k hk => ?_⟩
  rw [hlook]
  split
  · exact ⟨_, List.getElem?_eq_getElem (by omega)⟩
  · exact hmap k (by omega)

/-! ## Selectors, code lengths, tables -/

/-- The next selector is written, the others kept (spec/44_block_header.md R250). -/
theorem selectorsTo_insert {s : State} {g v : Nat} (h : SelectorsTo g s) (hv : v < s.numTables) :
    ∀ k, k < g + 1 → ∃ t, Memory.lookup (Memory.insert s.selectors g v) k = some t ∧ t < s.numTables := by
  intro k hk
  rw [Memory.lookup_insert]
  split
  · exact ⟨v, rfl, hv⟩
  · exact h k (by omega)

/-- The next code length is recorded, those of the table before it kept (R255). -/
theorem lensTo_insert {s : State} {l : Nat} (h : LensTo s.symIdx s) (hl : 1 ≤ l ∧ l ≤ Config.maxCodeLen) :
    ∀ k, k < s.symIdx + 1 → ∃ l',
      Memory.lookup (Memory.insert s.codeLen (codeLenKey s.tableIdx s.symIdx) l) (codeLenKey s.tableIdx k)
        = some l' ∧ 1 ≤ l' ∧ l' ≤ Config.maxCodeLen := by
  intro k hk
  rw [Memory.lookup_insert]
  split
  · exact ⟨l, rfl, hl⟩
  · next hne => exact h k (by simp only [codeLenKey] at hne; omega)

/-- Recorded lengths of the whole alphabet are a legal length set (spec/43_huffman.md R210). -/
theorem lensOk_of_codeLens {m : Memory Nat} {t eob : Nat} {lens : List Nat}
    (h : ∀ k, k < eob + 1 →
      ∃ l, Memory.lookup m (codeLenKey t k) = some l ∧ 1 ≤ l ∧ l ≤ Config.maxCodeLen)
    (hc : codeLensFrom m t (eob + 1) 0 = .ok lens) : LensOk eob lens := by
  obtain ⟨hlen, hget⟩ := codeLensFrom_eq_ok hc
  refine ⟨hlen, fun l hl => ?_⟩
  obtain ⟨k, hk, rfl⟩ := List.getElem_of_mem hl
  obtain ⟨l', hl', hlook⟩ := hget k (by omega)
  rw [List.getElem?_eq_getElem hk] at hl'
  cases hl'
  obtain ⟨l', hlook', hbounds⟩ := h k (by omega)
  rw [Nat.zero_add, hlook'] at hlook
  cases hlook
  exact hbounds

/-- So are those read back once the alphabet's last length is recorded (spec/44_block_header.md R255, R256). -/
theorem lensOk_of_lastLen {s : State} {l : Nat} {lens : List Nat} (h : LensTo s.symIdx s)
    (hl : 1 ≤ l ∧ l ≤ Config.maxCodeLen) (hlast : s.symIdx = s.eob)
    (hc : codeLensFrom (Memory.insert s.codeLen (codeLenKey s.tableIdx s.symIdx) l) s.tableIdx (s.eob + 1) 0
      = .ok lens) : LensOk s.eob lens := by
  have hall := lensTo_insert h hl
  rw [hlast] at hall hc
  exact lensOk_of_codeLens hall hc

/-- The table of legal lengths joins the tables built so far (R256). -/
theorem tablesReady_insert {s : State} {lens : List Nat} (h : ∀ t, t < s.tableIdx → TableReady s t)
    (hl : LensOk s.eob lens) :
    ∀ t, t < s.tableIdx + 1 → ∃ ls, LensOk s.eob ls
      ∧ Memory.lookup (Memory.insert s.tables s.tableIdx (buildTable lens)) t = some (buildTable ls) := by
  intro t ht
  rw [Memory.lookup_insert]
  split
  · exact ⟨lens, hl, rfl⟩
  · exact h t (by omega)

/-! ## The payload -/

/-- Before the first symbol (spec/45_symbol_decode.md R286). -/
theorem payloadOk_of_fresh {s : State} (h : PayloadFresh s) (hm : MapReady s) : PayloadOk s := by
  obtain ⟨hfl, hlen, -, hrun, hinc, hlast⟩ := h
  refine ⟨hfl ▸ identityList_isFrontList, hfl ▸ identityList_prefixClosed _, ?_, ?_, 0, hinc, by simp⟩
  · rw [hlast]
    exact hm.1
  · rw [hlen, hrun]
    exact Nat.zero_le _

/-- One more digit of the run (R281, R282). -/
theorem PayloadOk.escape {s : State} {w : Nat} (h : PayloadOk s) (hw : 1 ≤ w)
    (hc : s.bwtLen + (s.runLen + w * s.runInc) ≤ blockSize s) :
    PayloadOk { s with
      symCount := s.symCount + 1, runLen := s.runLen + w * s.runInc, runInc := s.runInc * 2 } := by
  obtain ⟨hfl, hpre, hlast, -, k, hk, hrun⟩ := h
  have hmul : 1 * s.runInc ≤ w * s.runInc := Nat.mul_le_mul_right _ hw
  refine ⟨hfl, hpre, hlast, hc, k + 1, ?_, ?_⟩
  · show s.runInc * 2 = 2 ^ (k + 1)
    rw [hk, pow_succ]
  · show 2 ^ (k + 1) ≤ s.runLen + w * s.runInc + 1
    rw [pow_succ, ← hk]
    omega

/-- The flush in one form for both of its cases: no run is left, and the increment fits that (R283). -/
theorem flushRun_form {s t : State} (h : flushRun s = .ok t) :
    ∃ m n hst i, t = { s with bwtBlock := m, bwtLen := n, hist := hst, runLen := 0, runInc := i }
      ∧ n = s.bwtLen + s.runLen ∧ ((s.runLen = 0 ∧ i = s.runInc) ∨ i = 1) := by
  obtain ⟨hr, rfl⟩ | ⟨v, m, -, -, -, -, rfl⟩ := flushRun_eq_ok h
  · refine ⟨t.bwtBlock, t.bwtLen, t.hist, t.runInc, ?_, by rw [hr]; rfl, .inl ⟨hr, rfl⟩⟩
    conv_rhs => rw [← hr]
  · exact ⟨m, _, _, 1, rfl, rfl, .inr rfl⟩

/-- After a flush the increment is the first one again (R283). -/
theorem runInc_flushed {s : State} {i : Nat} (h : PayloadOk s) (hi : (s.runLen = 0 ∧ i = s.runInc) ∨ i = 1) :
    ∃ k, i = 2 ^ k ∧ 2 ^ k ≤ 0 + 1 := by
  obtain ⟨-, -, -, -, k, hk, hrun⟩ := h
  rcases hi with ⟨hr, rfl⟩ | rfl
  · rw [hr] at hrun
    exact ⟨k, hk, hrun⟩
  · exact ⟨0, rfl, le_refl 1⟩

/-- A literal's rank is that of a byte in use (spec/44_block_header.md R246). -/
theorem literal_rank_lt {s : State} {tb : HuffTable} {k : Nat} (hmap : MapReady s)
    (htables : ∀ t, t < s.numTables → TableReady s t) (hcur : s.curTable < s.numTables)
    (ht : tableAt s s.curTable = .ok tb) (hk : k + 1 ∈ tb.perm) (hke : k + 1 ≠ s.eob) : k < s.numInUse := by
  obtain ⟨lens, hlens, hlook⟩ := htables _ hcur
  obtain ⟨-, -, htb⟩ := memRead_eq_ok.mp ht
  rw [hlook] at htb
  cases htb
  have hle := perm_le_eob hlens hk
  obtain ⟨-, -, heob, -⟩ := hmap
  omega

/-- The stage of a symbol whose selector is found (spec/43_huffman.md R218). -/
theorem selectors_left {n count : Nat} (h : count ≤ n * Config.groupSize) (hne : count % Config.groupSize ≠ 0) :
    count < n * Config.groupSize := by
  simp only [Config.groupSize] at *
  omega

theorem selectors_left_of_div {n count : Nat} (h : count / Config.groupSize < n) :
    count < n * Config.groupSize := by
  simp only [Config.groupSize] at *
  omega

/-! ## The walk -/

theorem nextBWT_walkOk {s t : State} {b? : Option Byte} (hw : WalkOk s) (hn : nextBWT s = .ok (b?, t)) :
    WalkOk t := by
  obtain ⟨-, -, rfl⟩ | ⟨c, hne, hcur, hc, -, rfl⟩ := nextBWT_eq_ok hn
  · exact hw
  · obtain ⟨hdone, hmp, -⟩ := hw
    obtain ⟨w, hlook, hlt⟩ := hmp _ hcur
    rw [hc] at hlook
    cases hlook
    rw [derandomise_frame]
    exact ⟨show s.bwtDone + 1 ≤ s.bwtLen by omega, hmp, hlt⟩

/-! ## The stages -/

theorem ElementMove.stageOk {s t : State} (hst : StageOk s) (hw : s.WidthsOk) (hm : ElementMove s t)
    (ha : t.phase.active = true) : StageOk t := by
  cases hm with
  | badLevel _ | badStreamCrc _ _ | emptyMap _ _ | mapEmpty _ _ _ _ _ | badTables _ _ | badSelCount _ _
  | badCodeLen _ | escapeFull _ _ _ | literalFull _ _ _ | noCount _ _ _ _ _ _ | streamCrc _ _ _ => cases ha
  | hdrMagic _ | hdrH _ => trivial
  | hdrLevel d _ hd => exact levelMult_bounds hd
  | markBlock h =>
    rw [StageOk, h] at hst
    exact ⟨hst, ⟨rfl, rfl, rfl, rfl, rfl, rfl⟩, rfl⟩
  | markEnd h | blkCrc _ h | blkRand _ h | blkOrigPtr _ h =>
    rw [StageOk, h] at hst
    exact hst
  | mapUsed _ k h hk =>
    rw [StageOk, h] at hst
    obtain ⟨hmult, hfresh, hfl⟩ := hst
    exact ⟨hmult, hfresh, hfl, Nat.zero_le _, fun k hk => absurd hk (Nat.not_lt_zero k)⟩
  | mapPresent p n m k h hap hk =>
    rw [StageOk, h] at hst
    obtain ⟨hmult, hfresh, hfl, hle, hmap⟩ := hst
    obtain ⟨hn, hmap'⟩ := appendSymbols_ready hle hmap hap
    exact ⟨hmult, hfresh, hfl, le_trans hn (Nat.mul_le_mul_left 16 hk.1), hmap'⟩
  | mapDone p n m h hap hn0 =>
    rw [StageOk, h] at hst
    obtain ⟨hmult, hfresh, hfl, hle, hmap⟩ := hst
    obtain ⟨hn, hmap'⟩ := appendSymbols_ready hle hmap hap
    have hrange := hw.rangeIdx
    exact ⟨hmult, hfresh, hfl, Nat.pos_of_ne_zero hn0, show n ≤ 256 by omega, rfl, hmap'⟩
  | nGroups _ h =>
    rw [StageOk, h] at hst
    exact hst
  | nSelectors k h ht hk =>
    rw [StageOk, h] at hst
    obtain ⟨hmult, hfresh, hfl, hmap⟩ := hst
    exact ⟨hmult, hfresh, hmap, ⟨ht.1, ht.2, hk.1, hk.2⟩, hfl ▸ identityList_isFrontList,
      hfl ▸ identityList_prefixClosed _, hk.1, fun g hg => absurd hg (Nat.not_lt_zero g)⟩
  | selMtf j v h hj hv _ hn =>
    rw [StageOk, h] at hst
    obtain ⟨hmult, hfresh, hmap, hcounts, hfl, hpre, -, hsel⟩ := hst
    have hlt := selector_lt hcounts hpre hj hv
    have hj' : j < s.numTables := hj.elim (fun h0 => by omega) id
    exact ⟨hmult, hfresh, hmap, hcounts, promote_isFrontList hfl hv, promote_prefixClosed hpre hj' hv, hn,
      selectorsTo_insert hsel hlt⟩
  | lastSelMtf j v h hj hv _ hn =>
    rw [StageOk, h] at hst
    obtain ⟨hmult, hfresh, hmap, hcounts, -, hpre, hidx, hsel⟩ := hst
    have hlt := selector_lt hcounts hpre hj hv
    have hall := selectorsTo_insert hsel hlt
    exact ⟨hmult, hfresh, hmap, hcounts, fun g hg => hall g (lt_of_lt_of_le hg hn),
      show 0 < s.numTables by omega, fun t ht => absurd ht (Nat.not_lt_zero t)⟩
  | clStart _ h =>
    rw [StageOk, h] at hst
    obtain ⟨hmult, hfresh, hmap, hcounts, hsel, htab, hready⟩ := hst
    exact ⟨hmult, hfresh, hmap, hcounts, hsel, htab, hready, Nat.zero_le _,
      fun k hk => absurd hk (Nat.not_lt_zero k)⟩
  | clMove _ h =>
    rw [StageOk, h] at hst
    exact hst
  | clDone l h hl _ hsym =>
    rw [StageOk, h] at hst
    obtain ⟨hmult, hfresh, hmap, hcounts, hsel, htab, hready, -, hlens⟩ := hst
    exact ⟨hmult, hfresh, hmap, hcounts, hsel, htab, hready, hsym, lensTo_insert hlens hl⟩
  | table l lens h hl _ hsym hc _ hn =>
    rw [StageOk, h] at hst
    obtain ⟨hmult, hfresh, hmap, hcounts, hsel, -, hready, hle, hlens⟩ := hst
    have hready' := tablesReady_insert hready (lensOk_of_lastLen hlens hl (le_antisymm hle hsym) hc)
    exact ⟨hmult, hfresh, hmap, hcounts, hsel, hn, hready'⟩
  | lastTable l lens h hl _ hsym hc _ hn =>
    rw [StageOk, h] at hst
    obtain ⟨hmult, hfresh, hmap, hcounts, hsel, -, hready, hle, hlens⟩ := hst
    have hready' := tablesReady_insert hready (lensOk_of_lastLen hlens hl (le_antisymm hle hsym) hc)
    obtain ⟨-, -, hcount, -⟩ := id hfresh
    have hmod : s.symCount % Config.groupSize = 0 := by rw [hcount]; rfl
    exact ⟨hmult, hmap, hcounts, hsel, fun t ht => hready' t (lt_of_lt_of_le ht hn),
      payloadOk_of_fresh hfresh hmap, hcount ▸ Nat.zero_le _, fun h0 => absurd hmod h0⟩
  | escape w h hwt hc =>
    rw [StageOk, h] at hst
    obtain ⟨hmult, hmap, hcounts, hsel, hready, hpay, hcount, hcur, -⟩ := hst
    exact ⟨hmult, hmap, hcounts, hsel, hready, hpay.escape hwt.1 hc, hcount, fun _ => hcur⟩
  | literal u tb k r v h ht hk hk1 hke hf hc hr hn hv _ =>
    rw [StageOk, h] at hst
    obtain ⟨hmult, hmap, hcounts, hsel, hready, hpay, hcount, hcur, -⟩ := hst
    have hrank := literal_rank_lt hmap hready hcur ht hk hke
    obtain ⟨hfl, hpre, -⟩ := id hpay
    obtain ⟨m, n, hh, i, rfl, -, hi⟩ := flushRun_form hf
    exact ⟨hmult, hmap, hcounts, hsel, hready,
      ⟨promote_isFrontList hfl hr, promote_prefixClosed hpre hrank hr, hn, hc, runInc_flushed hpay hi⟩,
      hcount, fun _ => hcur⟩
  | eob u h hf =>
    rw [StageOk, h] at hst
    obtain ⟨m, n, hh, i, rfl, -, -⟩ := flushRun_form hf
    exact hst.1
  | rleHold _ _ _ _ _ => exact hst
  | rleLit _ h _ _ | rleRep _ h _ _ _ =>
    rw [StageOk, h] at hst
    exact hst
  | rleRun b c u h _ hb _ hn =>
    rw [StageOk, h] at hst
    obtain ⟨hmult, hwalk⟩ := hst
    have hwalk' := nextBWT_walkOk hwalk hn
    rw [nextBWT_frame hn] at hwalk' ⊢
    have hlast : s.rleLast ≠ none := by rw [hb]; exact nofun
    exact ⟨hmult, hwalk', hlast, natToBits_length 8 _⟩
  | rleCount _ h =>
    rw [StageOk, h] at hst
    exact ⟨hst.1, hst.2.1⟩

theorem WalkMove.stageOk {s t : State} (h : s.slot = .rle) (hst : StageOk s) (hm : WalkMove s t)
    (ha : t.phase.active = true) : StageOk t := by
  cases hm with
  | copyHold _ _ _ _ | copy _ _ _ _ => exact hst
  | byte _ u _ hn =>
    rw [StageOk, h] at hst
    have hwalk' := nextBWT_walkOk hst.2 hn
    rw [nextBWT_frame hn] at hwalk' ⊢
    exact ⟨hst.1, hwalk'⟩
  | badCrc _ _ => cases ha
  | blockEnd _ _ _ =>
    rw [StageOk, h] at hst
    exact hst.1

theorem FillMove.stageOk {s t : State} (hst : StageOk s) (hm : FillMove s t)
    (ha : t.phase.active = true) : StageOk t := by
  cases hm with
  | closed _ | eof _ _ _ => cases ha
  | hold _ _ | byte _ _ _ _ => exact hst

/-- Outside the payload the stages do not speak of the bits read, and in it the path is kept. -/
theorem takeBits_stageOk {s : State} {n : Nat} {c : Ctx} (hst : StageOk s) (hr : s.slot ≠ .rleCount)
    (hc : ctxOf s = .ok (some c)) (hd : decodeBits c s.latch = .more n) : StageOk (takeBits n s) := by
  by_cases h : s.slot = .symbol
  · obtain ⟨lens, hlens, htab, hpath, he⟩ := (path_of_stage hst h).decode h hc
    rw [he] at hd
    have hpath' : OnPath lens (s.latch ++ natToBits n (fieldValue n s)) :=
      onPath_more hlens hpath (by rw [natToBits_length]; exact hd)
    rw [StageOk, h] at hst
    obtain ⟨hmult, hmap, hcounts, hsel, hready, hpay, hcount, hcur, -⟩ := hst
    rw [StageOk, takeBits_slot, h]
    exact ⟨hmult, hmap, hcounts, hsel, hready, hpay, hcount, hcur, lens, hlens, htab, hpath'⟩
  · unfold StageOk at hst ⊢
    rw [takeBits_slot]
    cases hs : s.slot
    case symbol => exact absurd hs h
    case rleCount => exact absurd hs hr
    all_goals
      rw [hs] at hst
      exact hst

/-- The inverse transform of a counted block makes the walk ready (spec/46_bwt.md R303, R304). -/
theorem invert_walkOk {s : State} (hh : s.HistogramOk) (hlen : s.bwtLen ≤ Config.maxBlock) {m : Memory Word}
    {c : Word} (ho : s.origPtr.toNat < s.bwtLen) (hb : buildMp s = .ok m)
    (hc : Memory.lookup m s.origPtr.toNat = some c) :
    WalkOk (advance .rle { s with mp := m, cursor := c, bwtDone := 0, bphase := .streaming }) := by
  obtain ⟨m', hm', hpts⟩ := buildMp_ok hh hlen
  rw [hb] at hm'
  cases hm'
  obtain ⟨w, hw, hlt⟩ := hpts _ ho
  rw [hc] at hw
  cases hw
  exact ⟨Nat.zero_le _, hpts, hlt⟩

theorem selected_stageOk {s : State} (h : s.slot = .select) (hst : StageOk s) {n : Nat}
    (hn : n < s.numTables) (hcount : s.symCount < s.numSelectors * Config.groupSize) :
    StageOk (advance .symbol { s with curTable := n }) := by
  rw [StageOk, h] at hst
  obtain ⟨hmult, hmap, hcounts, hsel, hready, hpay, -, -⟩ := hst
  obtain ⟨lens, hlens, htab⟩ := hready n hn
  exact ⟨hmult, hmap, hcounts, hsel, hready, hpay, hcount, hn, lens, hlens, htab, .inl rfl⟩

theorem CoreMove.stageOk {s t : State} (hs : s.Inv) (hm : CoreMove s t) (ha' : t.phase.active = true) :
    StageOk t := by
  cases hm with
  | quiet ha => rw [ha] at ha'; cases ha'
  | fill _ ha _ _ _ _ => exact (fill_move s).stageOk (hs.stage ha) ha'
  | take _ _ ha hr _ _ _ hc hd => exact takeBits_stageOk (hs.stage ha) hr.2 hc hd
  | walk _ ha h _ hx => exact (walkStep_move hx).stageOk h (hs.stage ha) ha'
  | count _ ha h hx =>
    have hst := hs.stage ha
    rw [StageOk, h] at hst
    obtain ⟨hmult, hwalk, hlast, -⟩ := hst
    obtain ⟨-, rfl⟩ | ⟨_, u, hn, rfl⟩ := fetchCount_move hx
    · cases ha'
    · have hwalk' := nextBWT_walkOk hwalk hn
      rw [nextBWT_frame hn] at hwalk' ⊢
      exact ⟨hmult, hwalk', hlast, natToBits_length 8 _⟩
  | select _ ha h hx =>
    have hst := hs.stage ha
    have hst' := hst
    rw [StageOk, h] at hst
    obtain ⟨-, -, -, hsel, -, -, hcount, hcur⟩ := hst
    obtain ⟨-, rfl⟩ | ⟨n, -, hg, hn, rfl⟩ | ⟨hmod, rfl⟩ := selectStep_move hx
    · cases ha'
    · obtain ⟨t, ht, hlt⟩ := hsel _ hg
      rw [hn] at ht
      cases ht
      exact selected_stageOk h hst' hlt (selectors_left_of_div hg)
    · exact selected_stageOk h hst' (hcur hmod) (selectors_left hcount hmod)
  | invert _ ha h hx =>
    have hst := hs.stage ha
    rw [StageOk, h] at hst
    obtain ⟨-, rfl⟩ | ⟨m, c, ho, hb, hc, rfl⟩ := invertStep_move hx
    · cases ha'
    · exact ⟨hst, invert_walkOk hs.histogram hs.widths.bwtLen ho hb hc⟩
  | reject _ _ _ _ _ _ _ => cases ha'
  | run _ _ ha hr _ _ hx => exact (exec_move hr hx).stageOk (hs.stage ha) hs.widths ha'

end Sys2Proof.Machine
end

section
/-! Every step keeps the whole invariant of the machine, and a step that leaves a wait flag set has changed nothing
else (spec/10_state.md R31, R47; spec/60_exceptions.md R390). -/

namespace Sys2Proof.Machine

/-! ## The invariant over the core's moves and the events -/

theorem CoreMove.inv {s t : State} (hs : s.Inv) (hm : CoreMove s t) : t.Inv where
  coherent := hm.coherent hs.coherent
  memories := hm.memoriesWf hs.memories
  cursor := hm.cursorOk hs.cursor
  errorLatch := hm.errorOk hs.errorLatch
  histogram := hm.histogramOk hs.histogram
  widths := hm.widthsOk hs.widths hs.stage
  waits := (hm.waitMove hs.waits).waitOk
  stage := hm.stageOk hs

/-- Reset leaves nothing but the environment's fields as they were (spec/70_reset_and_hazards.md R410, R411). -/
theorem resetCore_inv (s : State) : (resetCore s).Inv where
  coherent := ⟨nofun, fun _ => ⟨rfl, rfl, rfl⟩, nofun⟩
  memories := { reset_memoriesWf with }
  cursor := ⟨Nat.zero_le _, fun _ => Nat.zero_le _⟩
  errorLatch := ⟨⟨nofun, fun h => absurd rfl h⟩, rfl⟩
  histogram := ⟨fun i hi => absurd hi (Nat.not_lt_zero i), fun _ => rfl⟩
  widths := by constructor <;> simp [resetCore, State.reset, Config.maxTables]
  waits := ⟨nofun, nofun⟩
  stage := nofun

/-- The invariant does not speak of the environment's fields (log 3). -/
theorem State.Inv.environment {s : State} (hs : s.Inv) (e : List EnvEvent) (q : List SrcAnswer)
    (r : Option Nat) (d : List Word) : { s with env := e, srcQ := q, snkRoom := r, hostData := d }.Inv where
  coherent := { hs.coherent with }
  memories := { hs.memories with }
  cursor := { hs.cursor with }
  errorLatch := { hs.errorLatch with }
  histogram := { hs.histogram with }
  widths := { hs.widths with }
  waits := { hs.waits with }
  stage := hs.stage

/-- START leaves IDLE at the header's first element (spec/48_stream.md R340). -/
theorem State.Inv.start {s : State} (hs : s.Inv) (e : List EnvEvent) (hp : s.phase = .idle) :
    { s with env := e, streamCRC := 0#32, phase := .header }.Inv := by
  obtain ⟨hb, hslot, -⟩ := hs.coherent.idle hp
  have hne : s.phase ≠ .error := by rw [hp]; exact nofun
  have hsrc : s.waitSrc ≠ true := fun h => by
    have := (hs.waits.source h).1
    rw [hp] at this
    cases this
  have hsnk : s.waitSnk ≠ true := fun h => by
    have := (hs.waits.sink h).1
    rw [hp] at this
    cases this
  exact
    { coherent := coherent_at hslot rfl hb
      memories := { hs.memories with }
      cursor := ⟨hs.cursor.total, fun _ => hs.cursor.rest hne⟩
      errorLatch := ⟨⟨nofun, fun h => absurd (hs.errorLatch.latched.mpr h) hne⟩, hs.errorLatch.code⟩
      histogram := { hs.histogram with }
      widths := { hs.widths with }
      waits := ⟨fun h => absurd h hsrc, fun h => absurd h hsnk⟩
      stage := fun _ => by unfold StageOk; rw [show _ = Slot.hdrMagic from hslot]; trivial }

/-- Settles O56: the core's moves, reset, START and the other events each keep the invariant. -/
theorem stepKeepsInv : Obligations.StepKeepsInv := fun _ _ hs hx =>
  step_keeps (fun _ _ h hm => hm.inv h) resetCore_inv (fun _ e h hp => h.start e hp)
    (fun _ e q r d h => h.environment e q r d) hs hx

/-! ## Holds -/

/-- Settles O59: a core step holds for the source, or holds for the sink, or leaves both flags clear. -/
theorem holdsChangeNothing : Obligations.HoldsChangeNothing := by
  intro s t hs he hx
  have hcore : coreStep s = .next t := by simpa only [step, he] using hx
  cases (coreStep_move hcore).waitMove hs.waits with
  | source ht hsnk _ _ _ =>
    have hsnk' : t.waitSnk = false := by rw [ht]; exact hsnk
    exact ⟨fun _ => ht, by simp [hsnk'], by simp [hsnk']⟩
  | sink ht hsrc _ _ =>
    have hsrc' : t.waitSrc = false := by rw [ht]; exact hsrc
    exact ⟨by simp [hsrc'], fun _ => ht, by simp [hsrc']⟩
  | clear hsrc hsnk => exact ⟨by simp [hsrc], by simp [hsnk], by simp [hsrc]⟩

end Sys2Proof.Machine
end

section
/-! SUPPORT. From a sound state every element, walk step and stage answers a next state: no read meets an element
with no value and no index leaves its memory (spec/10_state.md R47; spec/20_memory.md R83). -/

namespace Sys2Proof.Machine

/-- The step has a next state: neither a model fault nor a refusal. -/
def Answers (r : Result) : Prop := ∃ t, r = .next t

theorem answers_next (t : State) : Answers (.next t) := ⟨t, rfl⟩

theorem answers_attempt {α : Type} {r : Except Fault α} {a : α} {k : α → Result} (hr : r = .ok a)
    (hk : Answers (k a)) : Answers (attempt r k) := by
  rw [hr]
  exact hk

theorem answers_ite {p : Prop} [Decidable p] {a b : Result} (ha : p → Answers a) (hb : ¬ p → Answers b) :
    Answers (if p then a else b) := by
  split
  · next h => exact ha h
  · next h => exact hb h

/-! ## Reads, the walk and the stages -/

theorem readStep_answers {n : Nat} (hn : n ≤ Config.maxRead) (s : State) : Answers (readStep n s) :=
  answers_ite (fun h => absurd h (Nat.not_lt.mpr hn)) fun _ =>
    answers_ite (fun _ => answers_next _) fun _ => answers_next _

/-- The walk never leaves the merged pointers (spec/46_bwt.md R305). -/
theorem nextBWT_ok {s : State} (hw : WalkOk s) (hlen : s.bwtLen ≤ Config.maxBlock) :
    ∃ r, nextBWT s = .ok r := by
  obtain ⟨-, hmp, hcur⟩ := hw
  obtain ⟨c, hc, -⟩ := hmp _ hcur
  have hread : mpAt s (s.cursor >>> 8).toNat = .ok c :=
    memRead_eq_ok.mpr ⟨lt_of_lt_of_le hcur hlen, hcur, hc⟩
  unfold nextBWT
  split
  · exact ⟨_, rfl⟩
  · rw [hread]
    exact ⟨_, rfl⟩

theorem fetchCount_answers {s : State} (hw : WalkOk s) (hlen : s.bwtLen ≤ Config.maxBlock) :
    Answers (fetchCount s) := by
  obtain ⟨⟨b?, u⟩, hr⟩ := nextBWT_ok hw hlen
  refine answers_attempt hr ?_
  cases b? <;> exact answers_next _

theorem walkStep_answers {s : State} (hs : s.WidthsOk) (hw : WalkOk s) : Answers (walkStep s) := by
  refine answers_ite (fun hp => ?_) fun _ => ?_
  · obtain ⟨b, hb⟩ := Option.ne_none_iff_exists'.mp (hs.pendingByte hp)
    unfold copyStep
    rw [hb]
    exact answers_next _
  · obtain ⟨⟨b?, u⟩, hr⟩ := nextBWT_ok hw hs.bwtLen
    refine answers_attempt hr ?_
    cases b? <;> exact answers_next _

theorem selectStep_answers {s : State} (hst : StageOk s) (h : s.slot = .select) : Answers (selectStep s) := by
  rw [StageOk, h] at hst
  obtain ⟨-, -, ⟨-, -, -, hmax⟩, hsel, -⟩ := hst
  refine answers_ite (fun _ => answers_ite (fun _ => answers_next _) fun hg => ?_) fun _ => answers_next _
  have hlt := Nat.lt_of_not_le hg
  obtain ⟨t, ht, -⟩ := hsel _ hlt
  exact answers_attempt (memRead_eq_ok.mpr ⟨lt_of_lt_of_le hlt hmax, hlt, ht⟩) (answers_next _)

theorem invertStep_answers {s : State} (hh : s.HistogramOk) (hlen : s.bwtLen ≤ Config.maxBlock) :
    Answers (invertStep s) := by
  refine answers_ite (fun _ => answers_next _) fun ho => ?_
  have hlt := Nat.lt_of_not_le ho
  obtain ⟨m, hm, hpts⟩ := buildMp_ok hh hlen
  obtain ⟨c, hc, -⟩ := hpts _ hlt
  exact answers_attempt hm
    (answers_attempt (memRead_eq_ok.mpr ⟨lt_of_lt_of_le hlt hlen, hlt, hc⟩) (answers_next _))

/-! ## The elements -/

theorem execMapPresent_answers {s : State} (p : BitVec 16) (hw : s.WidthsOk) (hst : StageOk s)
    (h : s.slot = .mapPresent) : Answers (execMapPresent p s) := by
  rw [StageOk, h] at hst
  obtain ⟨-, -, -, hle, -⟩ := hst
  have hlen := presentValues_length_le s.rangeIdx p
  have hrange := hw.rangeIdx
  obtain ⟨m, hm⟩ := appendSymbols_ok (vs := presentValues s.rangeIdx p) (n := s.numInUse) s.symMap (by omega)
  exact answers_attempt hm (answers_next _)

theorem execSelMtf_answers {s : State} {j : Nat} (hst : StageOk s) (h : s.slot = .selMtf)
    (hj : j = 0 ∨ j < s.numTables) : Answers (execSelMtf j s) := by
  rw [StageOk, h] at hst
  obtain ⟨-, -, -, ⟨-, hmax, -, hsel⟩, hfl, -, hidx, -⟩ := hst
  simp only [Config.maxTables] at hmax
  have hj' : j < 256 := by omega
  obtain ⟨v, hv⟩ := hfl.getElem? hj'
  refine answers_attempt (promoteByIndex_eq_ok.mpr ⟨hj', hv, rfl⟩) ?_
  refine answers_attempt (memWrite_eq_ok.mpr ⟨lt_of_lt_of_le hidx hsel, rfl⟩) ?_
  exact answers_ite (fun _ => answers_next _) fun _ => answers_next _

/-- Lengths recorded for the whole alphabet can be read back (spec/43_huffman.md R210). -/
theorem codeLensFrom_recorded {m : Memory Nat} {t n s : Nat} (ht : t < Config.maxTables)
    (hs : s + n ≤ Config.maxSymbols)
    (h : ∀ k, k < s + n → ∃ l, Memory.lookup m (codeLenKey t k) = some l) :
    ∃ ls, codeLensFrom m t n s = .ok ls := by
  induction n generalizing s with
  | zero => exact ⟨[], rfl⟩
  | succ n ih =>
    obtain ⟨l, hl⟩ := h s (by omega)
    obtain ⟨ls, hls⟩ := ih (s := s + 1) (by omega) (fun k hk => h k (by omega))
    have hread : codeLenRead m t s = .ok l := codeLenRead_eq_ok.mpr ⟨ht, by omega, hl⟩
    exact ⟨l :: ls, by simp only [codeLensFrom, hread, hls]⟩

/-- The table of recorded lengths can be built (spec/44_block_header.md R256). -/
theorem buildStep_ok {s : State} {t : Nat} (ht : t < Config.maxTables) (he : s.eob + 1 ≤ Config.maxSymbols)
    (h : ∀ k, k < s.eob + 1 → ∃ l, Memory.lookup s.codeLen (codeLenKey t k) = some l) :
    ∃ u, buildStep t s = .ok u := by
  obtain ⟨lens, hlens⟩ := codeLensFrom_recorded ht (n := s.eob + 1) (s := 0) (by omega) (fun k hk => h k (by omega))
  have hread : codeLens s t = .ok lens := hlens
  have hwrite : memWrite .tables s.tables t (buildTable lens) = .ok (Memory.insert s.tables t (buildTable lens)) :=
    memWrite_eq_ok.mpr ⟨ht, rfl⟩
  unfold buildStep
  simp only [hread, hwrite]
  exact ⟨_, rfl⟩

theorem execClDone_answers {s : State} (hw : s.WidthsOk) (hst : StageOk s) (h : s.slot = .cld) :
    Answers (execClDone s) := by
  rw [StageOk, h] at hst
  obtain ⟨-, -, -, ⟨-, hmax, -, -⟩, -, htab, -, hle, hlens⟩ := hst
  have ht : s.tableIdx < Config.maxTables := lt_of_lt_of_le htab hmax
  have heob := hw.eob
  have hsym : s.symIdx < Config.maxSymbols := by simp only [Config.maxSymbols]; omega
  refine answers_ite (fun _ => answers_next _) fun hc => ?_
  have hl : 1 ≤ s.curLen.toNat ∧ s.curLen.toNat ≤ Config.maxCodeLen := by
    have : ((Config.maxCodeLen : Nat) : Int) = 23 := rfl
    rw [this] at hc
    simp only [Config.maxCodeLen]
    omega
  refine answers_attempt (codeLenWrite_eq_ok.mpr ⟨ht, hsym, rfl⟩)
    (answers_ite (fun _ => answers_next _) fun hend => ?_)
  have hend' : s.eob ≤ s.symIdx := Nat.le_of_not_lt hend
  have hall : ∀ k, k < s.eob + 1 → ∃ l', Memory.lookup
      (Memory.insert s.codeLen (codeLenKey s.tableIdx s.symIdx) s.curLen.toNat) (codeLenKey s.tableIdx k)
        = some l' := by
    intro k hk
    obtain ⟨l', hl', -⟩ := lensTo_insert hlens hl k (by omega)
    exact ⟨l', hl'⟩
  obtain ⟨u, hu⟩ := buildStep_ok
    (s := { s with codeLen := Memory.insert s.codeLen (codeLenKey s.tableIdx s.symIdx) s.curLen.toNat }) ht
    (by simp only [Config.maxSymbols]; omega) hall
  exact answers_attempt hu (answers_ite (fun _ => answers_next _) fun _ => answers_next _)

/-- The run flush of a sound payload is written (spec/45_symbol_decode.md R283). -/
theorem flushRun_ok {s : State} (hmap : MapReady s) (hpay : PayloadOk s) (hcap : blockSize s ≤ Config.maxBlock) :
    ∃ t, flushRun s = .ok t := by
  obtain ⟨-, hin, -, hsym⟩ := hmap
  obtain ⟨-, -, hlast, hfit, -⟩ := hpay
  obtain ⟨v, hv⟩ := hsym _ hlast
  have hread : symMapAt s s.lastMtf.toNat = .ok v :=
    memRead_eq_ok.mpr ⟨lt_of_lt_of_le hlast hin, hlast, hv⟩
  obtain ⟨m, hm⟩ := writeRun_ok (v := v) (n := s.runLen) (i := s.bwtLen) s.bwtBlock (le_trans hfit hcap)
  unfold flushRun
  split
  · exact ⟨s, rfl⟩
  · simp only [hread, hm, histCount_byte]
    exact ⟨_, rfl⟩

/-- A literal of a sound payload is written (R284). -/
theorem literal_answers {s : State} {k : Nat} (hmap : MapReady s) (hfl : IsFrontList s.mtfFL)
    (hpre : PrefixClosed s.numInUse s.mtfFL) (hcap : blockSize s ≤ Config.maxBlock) (hk : k < s.numInUse) :
    Answers (literal k s) := by
  obtain ⟨-, hin, -, hsym⟩ := hmap
  have hk' : k < 256 := lt_of_lt_of_le hk hin
  obtain ⟨r, hr⟩ := hfl.getElem? hk'
  have hrn := hpre k r hk hr
  obtain ⟨v, hv⟩ := hsym _ hrn
  refine answers_ite (fun _ => answers_next _) fun hc => ?_
  refine answers_attempt (promoteByIndex_eq_ok.mpr ⟨hk', hr, rfl⟩) ?_
  refine answers_attempt (memRead_eq_ok.mpr ⟨lt_of_lt_of_le hrn hin, hrn, hv⟩) ?_
  refine answers_attempt (memWrite_eq_ok.mpr ⟨lt_of_lt_of_le (Nat.lt_of_not_le hc) hcap, rfl⟩) ?_
  exact answers_attempt (histCount_byte _ _ _) (answers_next _)

theorem symbol_answers {s : State} {tb : HuffTable} {sym : Nat} (hst : StageOk s) (h : s.slot = .symbol)
    (ht : tableAt s s.curTable = .ok tb) (hs : sym ∈ tb.perm) : Answers (exec (symbolInstr s.eob sym) s) := by
  rw [StageOk, h] at hst
  obtain ⟨hmult, hmap, -, -, hready, hpay, -, hcur, -⟩ := hst
  obtain ⟨hfl, hpre, -⟩ := id hpay
  obtain ⟨u, hu⟩ := flushRun_ok (s := countSymbol s) hmap hpay hmult.blockSize_le
  unfold symbolInstr
  split
  · exact answers_next _
  · next h0 =>
    split
    · exact answers_next _
    · split
      · exact answers_attempt hu (answers_next _)
      · next hne =>
        have hpred : sym - 1 + 1 = sym := by omega
        have hrank : sym - 1 < s.numInUse :=
          literal_rank_lt hmap hready hcur ht (by rw [hpred]; exact hs) (by rw [hpred]; exact hne)
        refine answers_attempt hu ?_
        obtain ⟨m, n, hh, i, rfl, -, -⟩ := flushRun_form hu
        exact literal_answers hmap hfl hpre hmult.blockSize_le hrank

/-- Every element that the decoder can hand to exec at a sound position answers. -/
theorem exec_answers {s : State} {i : Instr} (hs : s.Inv) (ha : s.phase.active = true) (hr : Runs s i) :
    Answers (exec i s) := by
  have hst := hs.stage ha
  cases hr with
  | mapPresent p h => exact execMapPresent_answers p hs.widths hst h
  | selMtf j h hj => exact execSelMtf_answers hst h hj
  | clDone h => exact execClDone_answers hs.widths hst h
  | symbol tb sym h ht hsym => exact symbol_answers hst h ht hsym
  | rle4Run b h _ _ _ => exact fetchCount_answers (walk_of_stage hst (.inl h)) hs.widths.bwtLen
  | hdrLevel _ _ | streamCrc _ _ => exact answers_ite (fun _ => answers_next _) fun _ => answers_next _
  | nSelectors _ _ =>
    exact answers_ite (fun _ => answers_next _) fun _ =>
      answers_ite (fun _ => answers_next _) fun _ => answers_next _
  | _ => exact answers_next _

/-! ## The core's step -/

/-- The context of a sound position is defined (spec/30_encoding.md R111). -/
theorem ctxOf_ok {s : State} (hst : StageOk s) : ∃ c?, ctxOf s = .ok c? := by
  by_cases h : s.slot = .symbol
  · rw [StageOk, h] at hst
    obtain ⟨-, -, ⟨-, hmax, -, -⟩, -, hready, -, -, hcur, -⟩ := hst
    obtain ⟨lens, -, hlook⟩ := hready _ hcur
    have hread : tableAt s s.curTable = .ok (buildTable lens) :=
      memRead_eq_ok.mpr ⟨lt_of_lt_of_le hcur hmax, hcur, hlook⟩
    simp only [ctxOf, h, hread]
    exact ⟨_, rfl⟩
  · unfold ctxOf
    split
    case h_16 hs => exact absurd hs h
    all_goals exact ⟨_, rfl⟩

theorem stageStep_answers {s : State} (hs : s.Inv) (hst : StageOk s) : Answers (stageStep s) := by
  unfold stageStep
  split
  · next h => exact selectStep_answers hst h
  · exact invertStep_answers hs.histogram hs.widths.bwtLen

theorem fetchMore_answers {s : State} {c : Ctx} {n : Nat} (hs : s.Inv) (hst : StageOk s)
    (hc : ctxOf s = .ok (some c)) (hd : decodeBits c s.latch = .more n) : Answers (fetchMore n s) := by
  unfold fetchMore
  split
  · next h => exact walkStep_answers hs.widths (walk_of_stage hst (.inl h))
  · next h => exact fetchCount_answers (walk_of_stage hst (.inr h)) hs.widths.bwtLen
  · exact readStep_answers (read_bounds (path_of_stage hst) hs.widths.numTables hc hd).1 s

theorem rejectElement_answers {s : State} {why : Reject} (h : ¬ Reject.NoElement why) :
    Answers (rejectElement why s) := by
  cases why with
  | noValue m => exact absurd ⟨m, .inl rfl⟩ h
  | outOfRange m => exact absurd ⟨m, .inr rfl⟩ h
  | _ => exact answers_next _

theorem coreStep_answers {s : State} (hs : s.Inv) : Answers (coreStep s) := by
  refine answers_ite (fun ha => ?_) fun _ => answers_next s
  have hst := hs.stage ha
  obtain ⟨c?, hc⟩ := ctxOf_ok hst
  refine answers_attempt hc ?_
  cases c? with
  | none => exact stageStep_answers hs hst
  | some c =>
    show Answers (elementStep c s)
    unfold elementStep
    split
    · next n hd => exact fetchMore_answers hs hst hc hd
    · next i hd => exact exec_answers hs ha (runs_of_decode hc hd)
    · next why hd => exact rejectElement_answers (reject_not_noElement (path_of_stage hst) hc hd)

end Sys2Proof.Machine
end

section
/-! A sound state's step is never a model fault, and refused only for a host access that the window does not take
(spec/10_state.md R47; spec/20_memory.md R90). -/

namespace Sys2Proof.Machine

theorem hostRead_of_window {addr width offset : Nat} (h : windowOffset addr width = some offset) (s : State) :
    hostRead addr width s = .next { s with hostData := s.hostData ++ [csrWord s offset] } := by
  simp only [hostRead, h]

theorem hostWrite_of_window {addr width offset : Nat} (h : windowOffset addr width = some offset)
    (value : Word) (s : State) : hostWrite addr width value s = .next (csrWrite offset value s) := by
  simp only [hostWrite, h]

theorem hostRead_outside {addr width : Nat} (h : windowOffset addr width = none) (s : State) :
    hostRead addr width s = .refused .hostAccess := by
  simp only [hostRead, h]

theorem hostWrite_outside {addr width : Nat} (h : windowOffset addr width = none) (value : Word) (s : State) :
    hostWrite addr width value s = .refused .hostAccess := by
  simp only [hostWrite, h]

/-- The event is a host access of width `width` at `addr`. -/
def EnvEvent.accesses (e : EnvEvent) (addr width : Nat) : Prop :=
  e = .read addr width ∨ ∃ value, e = .write addr width value

/-- An access that the window does not take is below it, of a wrong width or misaligned (R90, log 10). -/
theorem windowOffset_eq_none {addr width : Nat} (h : windowOffset addr width = none) :
    addr < Config.csrBase ∨ width ≠ 4 ∨ (addr - Config.csrBase) % 4 ≠ 0 := by
  unfold windowOffset at h
  split at h
  · cases h
  · omega

/-- An event has a next state when the core's turn has, unless it is a host access outside the window. -/
theorem envStep_answers {e : EnvEvent} {turn : State → Result} {s : State} (ht : Answers (turn s)) :
    Answers (envStep e turn s)
      ∨ (envStep e turn s = .refused .hostAccess
          ∧ ∃ addr width, e.accesses addr width ∧ windowOffset addr width = none) := by
  cases e with
  | core => exact .inl ht
  | read addr width =>
    cases h : windowOffset addr width with
    | none => exact .inr ⟨hostRead_outside h s, addr, width, .inl rfl, h⟩
    | some offset => exact .inl ⟨_, hostRead_of_window h s⟩
  | write addr width value =>
    cases h : windowOffset addr width with
    | none => exact .inr ⟨hostWrite_outside h value s, addr, width, .inr ⟨value, rfl⟩, h⟩
    | some offset => exact .inl ⟨_, hostWrite_of_window h value s⟩
  | _ => exact .inl (answers_next _)

/-- Every step of a sound state answers, unless a host access outside the window comes next. -/
theorem step_answers {s : State} (hs : s.Inv) :
    Answers (step s)
      ∨ (step s = .refused .hostAccess ∧ ∃ e rest addr width,
          s.env = e :: rest ∧ e.accesses addr width ∧ windowOffset addr width = none) := by
  cases he : s.env with
  | nil =>
    refine .inl ?_
    simp only [step, he]
    exact coreStep_answers hs
  | cons e rest =>
    rw [step_envStep he]
    have hturn := coreStep_answers (hs.environment rest s.srcQ s.snkRoom s.hostData)
    rcases envStep_answers (e := e) hturn with h | ⟨h, addr, width, hacc, hoff⟩
    · exact .inl h
    · exact .inr ⟨h, e, rest, addr, width, rfl, hacc, hoff⟩

/-- Settles O57: a sound state's step answers, or is refused for a host access outside the window. -/
theorem soundStepNeverFaults : Obligations.SoundStepNeverFaults := by
  intro s hs
  rcases step_answers hs with ⟨t, ht⟩ | ⟨hr, e, rest, addr, width, he, hacc, hoff⟩
  · rw [ht]
    exact ⟨nofun, nofun, fun _ => ⟨t, rfl⟩⟩
  · rw [hr]
    refine ⟨nofun, fun r h => ?_, fun h => by rw [h] at he; cases he⟩
    cases h
    refine ⟨rfl, rest, addr, width, ?_, hoff, windowOffset_eq_none hoff⟩
    rcases hacc with rfl | ⟨value, rfl⟩
    · exact .inl he
    · exact .inr ⟨value, he⟩

end Sys2Proof.Machine
end

section
/-! The host's registers (spec/10_state.md R50 to R64): what a read of each returns, bit by bit, and that a write of
any but CTRL changes nothing. -/

namespace Sys2Proof.Machine

/-! ## Accesses of the window -/

/-- An aligned offset of the window is accessed (spec/20_memory.md R90). -/
theorem windowOffset_base {offset : Nat} (h : offset % 4 = 0) :
    windowOffset (Config.csrBase + offset) 4 = some offset :=
  windowOffset_eq_some.mpr ⟨rfl, h, rfl⟩

/-- A host read returns the register's value and changes nothing else (R50). -/
theorem step_read {s : State} {offset : Nat} {rest : List EnvEvent} (ho : offset % 4 = 0)
    (he : s.env = .read (Config.csrBase + offset) 4 :: rest) :
    step s = .next { s with env := rest, hostData := s.hostData ++ [csrWord s offset] } := by
  rw [step_envStep he]
  exact hostRead_of_window (windowOffset_base ho) _

/-- A host write of a register other than CTRL changes nothing (R51, R63; spec/20_memory.md R93). -/
theorem step_write {s : State} {offset : Nat} {value : Word} {rest : List EnvEvent} (ho : offset % 4 = 0)
    (hne : offset ≠ 0) (he : s.env = .write (Config.csrBase + offset) 4 value :: rest) :
    step s = .next { s with env := rest } := by
  rw [step_envStep he]
  have hskip : ∀ t : State, csrWrite offset value t = t := fun t => if_neg fun h => hne h.1
  rw [envStep, hostWrite_of_window (windowOffset_base ho), hskip]

/-- CTRL and the offsets behind the registers read 0 (R51, R63). -/
theorem csrWord_reserved (s : State) {offset : Nat} (h : offset = 0 ∨ 0x2C < offset) : csrWord s offset = 0#32 := by
  unfold csrWord
  split
  case h_12 => rfl
  all_goals omega

/-- Settles O3: a write changes nothing but by `start`, and no register stands at these offsets. -/
theorem reservedOffsets : Obligations.ReservedOffsets := by
  intro s offset rest ho
  refine ⟨fun value hne he => step_write ho hne he, fun hres he => ?_⟩
  rw [step_read ho he, csrWord_reserved s hres]

/-! ## Bits of the registers -/

theorem getLsbD_of_toNat_lt {x : Word} {k i : Nat} (h : x.toNat < 2 ^ k) (hi : k ≤ i) : x.getLsbD i = false := by
  rw [← BitVec.testBit_toNat]
  exact Nat.testBit_lt_two_pow (lt_of_lt_of_le h (Nat.pow_le_pow_right (by omega) hi))

/-- The codes take three bits (R21, R22; spec/60_exceptions.md R372). -/
theorem Phase.code_getLsbD (p : Phase) {i : Nat} (hi : 3 ≤ i) : p.code.getLsbD i = false :=
  getLsbD_of_toNat_lt (k := 3) (by cases p <;> decide) hi

theorem BPhase.code_getLsbD (p : BPhase) {i : Nat} (hi : 3 ≤ i) : p.code.getLsbD i = false :=
  getLsbD_of_toNat_lt (k := 3) (by cases p <;> decide) hi

theorem ErrKind.code_getLsbD (k : ErrKind) {i : Nat} (hi : 3 ≤ i) : k.code.getLsbD i = false :=
  getLsbD_of_toNat_lt (k := 3) (by cases k <;> decide) hi

theorem flagBit_getLsbD (b : Bool) {n i : Nat} (hi : i < 32) :
    (flagBit b n).getLsbD i = (b && decide (n = i)) := by
  cases b with
  | false => simp [flagBit]
  | true =>
    have hbit : flagBit true n = BitVec.twoPow 32 n := (BitVec.twoPow_eq 32 n).symm
    rw [hbit, BitVec.getLsbD_twoPow, Bool.true_and, Bool.and_eq_right_iff_imp]
    simp only [decide_eq_true_eq]
    omega

/-- STATUS, bit by bit (R52). -/
theorem statusWord_getLsbD (s : State) {i : Nat} (hi : i < 32) :
    (statusWord s).getLsbD i =
      (s.phase.code.getLsbD i || (!decide (i < 4) && s.bphase.code.getLsbD (i - 4))
        || (busyFlag s && decide (8 = i)) || (doneFlag s && decide (9 = i))
        || (errorFlag s && decide (10 = i)) || (s.randFlag && decide (11 = i))
        || (s.waitSrc && decide (12 = i)) || (s.waitSnk && decide (13 = i))) := by
  simp only [statusWord, BitVec.getLsbD_or, flagBit_getLsbD _ hi, BitVec.getLsbD_shiftLeft, hi, decide_true,
    Bool.true_and]

/-- ERROR, bit by bit (R53). -/
theorem errorWord_getLsbD (s : State) {i : Nat} (hi : i < 32) :
    (errorWord s).getLsbD i =
      (s.errKind.code.getLsbD i || (!decide (i < 4) && s.errDetail.getLsbD (i - 4))) := by
  have hlow : i - 4 < 32 := by omega
  simp only [errorWord, BitVec.getLsbD_or, BitVec.getLsbD_shiftLeft, BitVec.getLsbD_setWidth, hi, hlow,
    decide_true, Bool.true_and]

theorem busyFlag_iff (s : State) :
    busyFlag s = true ↔ s.phase = .header ∨ s.phase = .awaitBlock ∨ s.phase = .inBlock ∨ s.phase = .trailer := by
  unfold busyFlag
  cases s.phase <;> simp [Phase.active]

/-- PHASE, bits 2:0. -/
theorem statusWord_phase (s : State) :
    (statusWord s).extractLsb' 0 3 = (Phase.code s.phase).extractLsb' 0 3 := by
  refine BitVec.eq_of_getLsbD_eq fun i hi => ?_
  rw [BitVec.getLsbD_extractLsb', BitVec.getLsbD_extractLsb', Nat.zero_add, statusWord_getLsbD s (by omega)]
  have h4 : i < 4 := by omega
  have hflag : ∀ n, 8 ≤ n → decide (n = i) = false := fun n hn => decide_eq_false (by omega)
  simp [h4, hflag]

/-- BPHASE, bits 6:4. -/
theorem statusWord_bphase (s : State) :
    (statusWord s).extractLsb' 4 3 = (BPhase.code s.bphase).extractLsb' 0 3 := by
  refine BitVec.eq_of_getLsbD_eq fun i hi => ?_
  rw [BitVec.getLsbD_extractLsb', BitVec.getLsbD_extractLsb', statusWord_getLsbD s (by omega),
    Phase.code_getLsbD _ (by omega)]
  have hflag : ∀ n, 8 ≤ n → decide (n = 4 + i) = false := fun n hn => decide_eq_false (by omega)
  simp [hflag]

/-- From bit 7 on STATUS holds flags alone. -/
theorem statusWord_high (s : State) {i : Nat} (h7 : 7 ≤ i) (hi : i < 32) :
    (statusWord s).getLsbD i =
      ((busyFlag s && decide (8 = i)) || (doneFlag s && decide (9 = i)) || (errorFlag s && decide (10 = i))
        || (s.randFlag && decide (11 = i)) || (s.waitSrc && decide (12 = i)) || (s.waitSnk && decide (13 = i))) := by
  rw [statusWord_getLsbD s hi, Phase.code_getLsbD _ (by omega), BPhase.code_getLsbD _ (by omega)]
  simp

/-- The flags, bits 8 to 13. -/
theorem statusWord_flags (s : State) :
    (statusWord s).getLsbD 8 = busyFlag s ∧ (statusWord s).getLsbD 9 = doneFlag s
      ∧ (statusWord s).getLsbD 10 = errorFlag s ∧ (statusWord s).getLsbD 11 = s.randFlag
      ∧ (statusWord s).getLsbD 12 = s.waitSrc ∧ (statusWord s).getLsbD 13 = s.waitSnk := by
  refine ⟨?_, ?_, ?_, ?_, ?_, ?_⟩ <;>
  · rw [statusWord_high s (by omega) (by omega)]
    simp

/-- The reserved bits 3, 7 and 31:14. -/
theorem statusWord_reserved (s : State) :
    (statusWord s).getLsbD 3 = false ∧ (statusWord s).getLsbD 7 = false
      ∧ (statusWord s).extractLsb' 14 18 = 0#18 := by
  refine ⟨?_, ?_, BitVec.eq_of_getLsbD_eq fun i hi => ?_⟩
  · rw [statusWord_getLsbD s (by omega), Phase.code_getLsbD _ (by omega)]
    simp
  · rw [statusWord_high s (by omega) (by omega)]
    simp
  · rw [BitVec.getLsbD_extractLsb', statusWord_high s (by omega) (by omega)]
    have hflag : ∀ n, n ≤ 13 → decide (n = 14 + i) = false := fun n hn => decide_eq_false (by omega)
    simp [hflag]

/-- Settles O4: STATUS bit by bit, and the window's rules for a read and a write. -/
theorem statusRead : Obligations.StatusRead := by
  refine ⟨⟨rfl, rfl, rfl, rfl, rfl, rfl, rfl⟩, ⟨rfl, rfl, rfl, rfl, rfl, rfl, rfl⟩, rfl, rfl, rfl,
    fun s value rest he => step_write rfl (by decide) he, fun s rest he => ?_⟩
  obtain ⟨hbusy, hdone, herror, hrand, hsrc, hsnk⟩ := statusWord_flags s
  obtain ⟨h3, h7, hhigh⟩ := statusWord_reserved s
  refine ⟨statusWord s, step_read rfl he, statusWord_phase s, statusWord_bphase s, h3, h7, ?_, ?_, ?_,
    hdone.symm, herror.symm, hrand, hsrc, hsnk, hhigh⟩
  · rw [hbusy, busyFlag_iff]
  · rw [hdone, doneFlag, decide_eq_true_eq]
  · rw [herror, errorFlag, decide_eq_true_eq]

/-! ## The other registers -/

/-- KIND, bits 2:0 of ERROR. -/
theorem errorWord_kind (s : State) :
    (errorWord s).extractLsb' 0 3 = (ErrKind.code s.errKind).extractLsb' 0 3 := by
  refine BitVec.eq_of_getLsbD_eq fun i hi => ?_
  rw [BitVec.getLsbD_extractLsb', BitVec.getLsbD_extractLsb', Nat.zero_add, errorWord_getLsbD s (by omega)]
  have h4 : i < 4 := by omega
  simp [h4]

/-- DETAIL, bits 7:4 of ERROR. -/
theorem errorWord_detail (s : State) : (errorWord s).extractLsb' 4 4 = s.errDetail := by
  refine BitVec.eq_of_getLsbD_eq fun i hi => ?_
  rw [BitVec.getLsbD_extractLsb', errorWord_getLsbD s (by omega), ErrKind.code_getLsbD _ (by omega)]
  simp [hi]

/-- The reserved bits 3 and 31:8 of ERROR. -/
theorem errorWord_reserved (s : State) :
    (errorWord s).getLsbD 3 = false ∧ (errorWord s).extractLsb' 8 24 = 0#24 := by
  refine ⟨?_, BitVec.eq_of_getLsbD_eq fun i hi => ?_⟩
  · rw [errorWord_getLsbD s (by omega), ErrKind.code_getLsbD _ (by omega)]
    simp
  · rw [BitVec.getLsbD_extractLsb', errorWord_getLsbD s (by omega), ErrKind.code_getLsbD _ (by omega),
      BitVec.getLsbD_of_ge s.errDetail _ (by omega)]
    simp

/-- A register narrower than its word: its value, and zeros above it (R55). -/
theorem setWidth_fields (x : BitVec 4) :
    (BitVec.setWidth 32 x).extractLsb' 0 4 = x ∧ (BitVec.setWidth 32 x).extractLsb' 4 28 = 0#28 := by
  constructor <;> apply BitVec.eq_of_getLsbD_eq <;> intro i hi <;>
    rw [BitVec.getLsbD_extractLsb', BitVec.getLsbD_setWidth]
  · have hi' : i < 32 := by omega
    simp [hi, hi']
  · rw [BitVec.getLsbD_of_ge x _ (by omega)]
    simp

/-- Every register reads 0 at reset. -/
theorem csrWord_reset (offset : Nat) : csrWord State.reset offset = 0#32 := by
  unfold csrWord
  split <;> rfl

/-- Settles O5: each register by its offset, and the window's rules for a read and a write. -/
theorem registerReads : Obligations.RegisterReads := by
  refine ⟨⟨rfl, rfl, rfl, rfl, rfl, rfl, rfl⟩, csrWord_reset,
    fun s value offset rest he hlo _ ho => step_write ho (by omega) he,
    fun s offset rest he _ _ ho => ⟨csrWord s offset, step_read ho he, ?_⟩⟩
  obtain ⟨h3, h8⟩ := errorWord_reserved s
  have hmult := setWidth_fields s.mult
  refine ⟨?_, ?_, ?_, ?_, ?_, ?_, ?_, ?_, ?_, ?_⟩ <;> rintro rfl
  · exact ⟨errorWord_kind s, errorWord_detail s, h3, h8⟩
  · rfl
  · rfl
  · exact hmult
  all_goals rfl

end Sys2Proof.Machine
end

section
/-! Reading an element is decoding the stream as one bit string (spec/20_memory.md R84, R85, R89, R95): a BitCursor
read moves its bits from the front of the stream into the latch, and the decoder's rounds follow the reads. -/

namespace Sys2Proof.Machine

/-! ## A position of reading -/

/-- The core is reading an element of context `c` from the stream, at a sound state, and its own step comes
next. -/
structure ReadsElement (c : Ctx) (s : State) : Prop where
  inv : s.Inv
  env : s.env = []
  active : s.phase.active = true
  isOpen : s.srcClosed = false
  notWalk : s.slot ≠ .rle
  notCount : s.slot ≠ .rleCount
  ctx : ctxOf s = .ok (some c)

/-- From `s` to `t` only the BitCursor, its counter, the source and the latch are touched. -/
def ReadFrame (s t : State) : Prop :=
  t = { s with
    bitBuf := t.bitBuf, bitCnt := t.bitCnt, inCount := t.inCount, srcQ := t.srcQ, waitSrc := t.waitSrc
    latch := t.latch }

theorem ReadFrame.trans {s t u : State} (h : ReadFrame s t) (h' : ReadFrame t u) : ReadFrame s u := by
  unfold ReadFrame at h h' ⊢
  rw [h] at h'
  exact h'

/-- A step that keeps the frame of a read leaves the core reading the same element. -/
theorem ReadsElement.of_step {c : Ctx} {s t : State} (hs : ReadsElement c s) (hx : step s = .next t)
    (hf : ReadFrame s t) : ReadsElement c t := by
  have hinv := stepKeepsInv s t hs.inv hx
  rw [hf] at hinv ⊢
  exact ⟨hinv, hs.env, hs.active, hs.isOpen, hs.notWalk, hs.notCount, hs.ctx⟩

theorem ReadsElement.step_readStep {c : Ctx} {s : State} {n : Nat} (hs : ReadsElement c s)
    (hd : decodeBits c s.latch = .more n) : step s = readStep n s :=
  (stepRunsElement s c hs.env hs.active hs.ctx).2.1 n hd hs.notWalk hs.notCount

theorem ReadsElement.step_exec {c : Ctx} {s : State} {i : Instr} (hs : ReadsElement c s)
    (hd : decodeBits c s.latch = .instr i) : step s = exec i s :=
  (stepRunsElement s c hs.env hs.active hs.ctx).1 i hd

/-- No read is wider than 24 bits (spec/40_bitcursor.md R162). -/
theorem ReadsElement.read_le {c : Ctx} {s : State} {n : Nat} (hs : ReadsElement c s)
    (hd : decodeBits c s.latch = .more n) : n ≤ Config.maxRead :=
  (read_bounds (path_of_stage (hs.inv.stage hs.active)) hs.inv.widths.numTables hs.ctx hd).1

/-! ## One BitCursor read -/

/-- Bits that the accumulator does not hold stand in the source's next byte (R84). -/
theorem srcQ_of_streamBits {s : State} (h : s.bitCnt < (streamBits s).length) :
    ∃ b q, s.srcQ = .byte b :: q := by
  unfold streamBits at h
  cases hq : s.srcQ with
  | nil => simp [hq, sourceBits] at h
  | cons a q =>
    cases a with
    | byte b => exact ⟨b, q, rfl⟩
    | eof => simp [hq, sourceBits] at h

theorem fill_of_byte {s : State} {b : Byte} {q : List SrcAnswer} (hc : s.srcClosed = false)
    (hq : s.srcQ = .byte b :: q) :
    ReadFrame s (fill s) ∧ (fill s).latch = s.latch ∧ (fill s).bitCnt = s.bitCnt + 8 := by
  have hm := fill_move s
  generalize fill s = t at hm ⊢
  cases hm with
  | closed hc' => rw [hc] at hc'; cases hc'
  | hold _ hq' | eof _ _ hq' => rw [hq] at hq'; cases hq'
  | byte _ _ _ _ => exact ⟨rfl, rfl, rfl⟩

/-- The step of a read that lacks bits takes a byte; the stream stays (spec/40_bitcursor.md R165). -/
theorem ReadsElement.fill_step {c : Ctx} {s : State} {n : Nat} (hs : ReadsElement c s)
    (hd : decodeBits c s.latch = .more n) (hb : s.bitCnt < n) (hlen : n ≤ (streamBits s).length) :
    ∃ t, step s = .next t ∧ ReadFrame s t ∧ t.latch = s.latch ∧ t.bitCnt = s.bitCnt + 8
      ∧ streamBits t = streamBits s := by
  have hn := hs.read_le hd
  obtain ⟨b, q, hq⟩ := srcQ_of_streamBits (lt_of_lt_of_le hb hlen)
  obtain ⟨hf, hl, hc⟩ := fill_of_byte hs.isOpen hq
  refine ⟨fill s, ?_, hf, hl, hc, fill_streamBits hs.isOpen hq (le_trans (le_of_lt hb) hn)⟩
  rw [hs.step_readStep hd, readStep, if_neg (Nat.not_lt.mpr hn), if_pos hb]

/-- The step of a read whose bits are there moves them from the stream into the latch (spec/40_bitcursor.md
R162). -/
theorem ReadsElement.take_step {c : Ctx} {s : State} {n : Nat} (hs : ReadsElement c s)
    (hd : decodeBits c s.latch = .more n) (hb : n ≤ s.bitCnt) :
    ∃ t, step s = .next t ∧ ReadFrame s t ∧ t.latch = s.latch ++ (streamBits s).take n
      ∧ streamBits t = (streamBits s).drop n := by
  have hn := hs.read_le hd
  have hstream : streamBits s = natToBits n (fieldValue n s) ++ streamBits (takeBits n s) := by
    have h := takeBits_streamBits s hn hb
    rw [takeBits_latch, List.append_assoc] at h
    exact (List.append_cancel_left h).symm
  refine ⟨takeBits n s, ?_, rfl, ?_, ?_⟩
  · rw [hs.step_readStep hd, readStep, if_neg (Nat.not_lt.mpr hn), if_neg (Nat.not_lt.mpr hb)]
  · rw [hstream, List.take_left' (natToBits_length _ _), takeBits_latch]
  · rw [hstream, List.drop_left' (natToBits_length _ _)]

/-! ## Runs -/

theorem runSteps_succ {s t : State} (h : step s = .next t) (k : Nat) : runSteps (k + 1) s = runSteps k t := by
  simp only [runSteps, h]

theorem runSteps_add {j k : Nat} {s t : State} (h : runSteps j s = .next t) :
    runSteps (j + k) s = runSteps k t := by
  induction j generalizing s with
  | zero =>
    cases h
    rw [Nat.zero_add]
  | succ j ih =>
    rw [runSteps] at h
    split at h
    · next u hu =>
      rw [Nat.add_right_comm, runSteps_succ hu]
      exact ih h
    · cases h
    · cases h

/-- A BitCursor read of `n` bits that the stream has: some steps, at most one byte each, move them from the
stream into the latch. -/
theorem ReadsElement.read {c : Ctx} {n : Nat} {s : State} (hs : ReadsElement c s)
    (hd : decodeBits c s.latch = .more n) (hlen : n ≤ (streamBits s).length) :
    ∃ k t, runSteps k s = .next t ∧ ReadsElement c t ∧ ReadFrame s t
      ∧ t.latch = s.latch ++ (streamBits s).take n ∧ streamBits t = (streamBits s).drop n := by
  by_cases hb : s.bitCnt < n
  · obtain ⟨u, hx, hf, hl, hc, hstream⟩ := hs.fill_step hd hb hlen
    obtain ⟨k, t, hrun, ht, hft, hlt, hst⟩ :=
      ReadsElement.read (hs.of_step hx hf) (by rw [hl]; exact hd) (by rw [hstream]; exact hlen)
    refine ⟨k + 1, t, (runSteps_succ hx k).trans hrun, ht, hf.trans hft, ?_, ?_⟩
    · rw [hlt, hl, hstream]
    · rw [hst, hstream]
  · obtain ⟨t, hx, hf, hl, hst⟩ := hs.take_step hd (Nat.le_of_not_lt hb)
    exact ⟨1, t, runSteps_succ hx 0, hs.of_step hx hf, hf, hl, hst⟩
termination_by n - s.bitCnt

/-- The core's reads follow the decoder's rounds: where the decoder finds an element behind the bits read so far,
the core comes to stand before running it. -/
theorem ReadsElement.follows {c : Ctx} {i : Instr} {rest : List Bool} (fuel : Nat) {s : State}
    (hs : ReadsElement c s) (hd : decodeFrom c fuel s.latch (streamBits s) = some (i, rest)) :
    ∃ k t, runSteps k s = .next t ∧ ReadsElement c t ∧ ReadFrame s t ∧ decodeBits c t.latch = .instr i
      ∧ streamBits t = rest := by
  induction fuel generalizing s with
  | zero => cases hd
  | succ fuel ih =>
    rw [decodeFrom] at hd
    split at hd
    · next i' hi =>
      cases hd
      exact ⟨0, s, rfl, hs, rfl, hi, rfl⟩
    · cases hd
    · next n hn =>
      split at hd
      · cases hd
      · next hlen =>
        obtain ⟨j, u, hrun, hu, hfu, hl, hst⟩ := hs.read hn (Nat.le_of_not_lt hlen)
        rw [← hl, ← hst] at hd
        obtain ⟨k, t, hrun', ht, hft, hi, hrest⟩ := ih hu hd
        exact ⟨j + k, t, (runSteps_add hrun).trans hrun', ht, hfu.trans hft, hi, hrest⟩

/-- Settles O11: `decode` is `decodeFrom` with an empty latch, so the core's reads follow it. -/
theorem fetchFollowsDecode : Obligations.FetchFollowsDecode := by
  intro s c i rest hinv he ha hopen hlatch hr hrc hctx hd
  have hs : ReadsElement c s := ⟨hinv, he, ha, hopen, hr, hrc, hctx⟩
  rw [decode, ← hlatch] at hd
  obtain ⟨k, t, hrun, ht, hf, hi, hrest⟩ := hs.follows _ hd
  exact ⟨k, t, hrun, ht.ctx, hi, hrest, ht.step_exec hi, hf⟩

end Sys2Proof.Machine
end

section
/-! The internal memories and the host window (spec/20_memory.md R80, R83, R90). -/

namespace Sys2Proof.Machine

/-! ## Memories -/

/-- Settles O55: the core's moves, reset, START and the other events each keep the memories' form. -/
theorem stepKeepsMemories : Obligations.StepKeepsMemories := fun _ _ hs hx =>
  step_keeps (fun _ _ h hm => hm.memoriesWf h) (fun s => (resetCore_inv s).memories)
    (fun _ _ h _ => { h with }) (fun _ _ _ _ _ h => { h with }) hs hx

/-! ## Refused accesses -/

/-- A width other than 32 bits, or an offset that is no multiple of 4, is none of the window's (R90). -/
theorem windowOffset_refused {offset width : Nat} (h : width ≠ 4 ∨ offset % 4 ≠ 0) :
    windowOffset (Config.csrBase + offset) width = none :=
  if_neg fun ⟨_, hwidth, halign⟩ => by
    rw [Nat.add_sub_cancel_left] at halign
    exact h.elim (fun hne => hne hwidth) (fun hne => hne halign)

/-- Settles O6: neither a read nor a write that the window does not take has a step. -/
theorem refusedAccess : Obligations.RefusedAccess := by
  intro s offset width value rest h he
  have hoff := windowOffset_refused h
  rcases he with he | he
  · rw [step_envStep he]
    exact hostRead_outside hoff _
  · rw [step_envStep he]
    exact hostWrite_outside hoff value _

end Sys2Proof.Machine
end

section
/-! Which stage may read the source, write the sink or change each stream register (spec/20_memory.md R96;
spec/41_crc.md R187; spec/48_stream.md R349; spec/60_exceptions.md R374). -/

namespace Sys2Proof.Machine

/-! ## The registers and the stages that change them -/

/-- The source, the sink and the stream registers that single stages change. -/
structure StageRegisters where
  srcQ : List SrcAnswer
  sunk : List Byte
  streamCRC : Word
  blockCount : Word
  mult : BitVec 4
  storedStreamCRC : Word
  storedBlockCRC : Word
  randFlag : Bool
  origPtr : BitVec 24

/-- Those of a state. -/
def State.stageRegisters (s : State) : StageRegisters :=
  { srcQ := s.srcQ, sunk := s.sunk, streamCRC := s.streamCRC, blockCount := s.blockCount, mult := s.mult
    storedStreamCRC := s.storedStreamCRC, storedBlockCRC := s.storedBlockCRC, randFlag := s.randFlag
    origPtr := s.origPtr }

/-- What a core step from `s` to `t` changes of them, by the slot it is at: nothing, the source at a slot that
reads the stream, or what one element or the block end writes. -/
inductive RegisterMove (s t : State) : Prop
  | none (h : t.stageRegisters = s.stageRegisters)
  | source (hs : s.slot ≠ .rle ∧ s.slot ≠ .rleCount ∧ s.slot ≠ .invert)
      (h : t.stageRegisters = { s.stageRegisters with srcQ := t.srcQ })
  | sink (hs : s.slot = .rle) (h : t.stageRegisters = { s.stageRegisters with sunk := t.sunk })
  | blockEnd (hs : s.slot = .rle) (hp : t.phase = .awaitBlock) (hc : t.calcBlockCRC = t.storedBlockCRC)
      (h : t.stageRegisters = { s.stageRegisters with streamCRC := rotl1 s.streamCRC ^^^ t.calcBlockCRC })
  | newBlock (hs : s.slot = .marker) (hp : t.phase = .inBlock)
      (h : t.stageRegisters = { s.stageRegisters with blockCount := s.blockCount + 1#32 })
  | level (hs : s.slot = .hdrLevel) (hp : t.phase = .awaitBlock)
      (hm : 1 ≤ t.mult.toNat ∧ t.mult.toNat ≤ Config.maxMult)
      (h : t.stageRegisters = { s.stageRegisters with mult := t.mult })
  | trailer (hs : s.slot = .streamCrc)
      (h : t.stageRegisters = { s.stageRegisters with storedStreamCRC := t.storedStreamCRC })
  | blockHeader (hs : s.slot = .blkCrc ∨ s.slot = .blkRand ∨ s.slot = .blkOrigPtr)
      (h : t.stageRegisters = { s.stageRegisters with
        storedBlockCRC := t.storedBlockCRC, randFlag := t.randFlag, origPtr := t.origPtr })

theorem flushRun_stageRegisters {s t : State} (h : flushRun s = .ok t) :
    t.stageRegisters = s.stageRegisters := by
  rw [flushRun_frame h]
  rfl

theorem nextBWT_stageRegisters {s t : State} {b? : Option Byte} (h : nextBWT s = .ok (b?, t)) :
    t.stageRegisters = s.stageRegisters := by
  rw [nextBWT_frame h]
  rfl

theorem FillMove.registerMove {s t : State} (hs : s.slot ≠ .rle ∧ s.slot ≠ .rleCount ∧ s.slot ≠ .invert)
    (hm : FillMove s t) : RegisterMove s t := by
  cases hm <;> exact .source hs rfl

theorem ElementMove.registerMove {s t : State} (hm : ElementMove s t) : RegisterMove s t := by
  cases hm with
  | hdrLevel _ h hd => exact .level h rfl (levelMult_bounds hd) rfl
  | markBlock h => exact .newBlock h rfl rfl
  | streamCrc _ h _ | badStreamCrc _ h => exact .trailer h rfl
  | blkCrc _ h => exact .blockHeader (.inl h) rfl
  | blkRand _ h => exact .blockHeader (.inr (.inl h)) rfl
  | blkOrigPtr _ h => exact .blockHeader (.inr (.inr h)) rfl
  | rleLit _ h _ _ | rleRep _ h _ _ _ => exact .sink h rfl
  | literalFull u _ hf | eob u _ hf | literal u _ _ _ _ _ _ _ _ _ hf _ _ _ _ _ =>
    exact .none (flushRun_stageRegisters hf :)
  | rleRun _ _ u _ _ _ _ hn => exact .none (nextBWT_stageRegisters hn :)
  | _ => exact .none rfl

theorem WalkMove.registerMove {s t : State} (hs : s.slot = .rle) (hm : WalkMove s t) : RegisterMove s t := by
  cases hm with
  | copy _ _ _ _ => exact .sink hs rfl
  | byte _ u _ hn => exact .none (nextBWT_stageRegisters hn :)
  | blockEnd _ _ hc => exact .blockEnd hs rfl hc rfl
  | copyHold _ _ _ _ | badCrc _ _ => exact .none rfl

theorem CoreMove.registerMove {s t : State} (hm : CoreMove s t) : RegisterMove s t := by
  cases hm with
  | fill n _ hr hp _ hc =>
    have hne : s.slot ≠ .invert := fun h => by
      rw [pendingRead_of_stage (.inr h)] at hp
      omega
    exact (fill_move s).registerMove ⟨hr.1, hr.2, hne⟩
  | walk _ _ h _ hx => exact (walkStep_move hx).registerMove h
  | count _ _ _ hx =>
    obtain ⟨-, rfl⟩ | ⟨_, u, hn, rfl⟩ := fetchCount_move hx
    · exact .none rfl
    · exact .none (nextBWT_stageRegisters hn :)
  | select _ _ _ hx =>
    obtain ⟨-, rfl⟩ | ⟨_, -, -, -, rfl⟩ | ⟨-, rfl⟩ := selectStep_move hx <;> exact .none rfl
  | invert _ _ _ hx =>
    obtain ⟨-, rfl⟩ | ⟨_, _, -, -, -, rfl⟩ := invertStep_move hx <;> exact .none rfl
  | run _ _ _ hr _ _ hx => exact (exec_move hr hx).registerMove
  | quiet _ | take _ _ _ _ _ _ _ _ _ | reject _ _ _ _ _ _ _ => exact .none rfl

/-! ## The stages by phase -/

/-- A slot that reads the stream stands outside the stages after the payload (spec/20_memory.md R96). -/
theorem slotPosition_reads {sl : Slot} (h : sl ≠ .rle ∧ sl ≠ .rleCount ∧ sl ≠ .invert) :
    (slotPosition sl).1 = .header ∨ (slotPosition sl).1 = .awaitBlock ∨ (slotPosition sl).1 = .trailer
      ∨ (slotPosition sl).2 = .bheader ∨ (slotPosition sl).2 = .tables ∨ (slotPosition sl).2 = .symbols := by
  cases sl <;> simp_all [slotPosition]

theorem slotPosition_blockHeader {sl : Slot} (h : sl = .blkCrc ∨ sl = .blkRand ∨ sl = .blkOrigPtr) :
    slotPosition sl = (.inBlock, .bheader) := by
  rcases h with rfl | rfl | rfl <;> rfl

theorem rotl1_eq_rotateLeft (x : Word) : rotl1 x = x.rotateLeft 1 := rfl

/-- A core step outside the decoding phases changes nothing. -/
theorem CoreMove.eq_of_inactive {s t : State} (hm : CoreMove s t) (h : ¬ s.phase.active = true) : t = s := by
  cases hm with
  | quiet _ => rfl
  | _ => contradiction

theorem absurd_blockHeader {s t : State} {P : Prop} (hblock : t.storedBlockCRC = s.storedBlockCRC)
    (hrand : t.randFlag = s.randFlag) (horig : t.origPtr = s.origPtr) :
    t.storedBlockCRC ≠ s.storedBlockCRC ∨ t.randFlag ≠ s.randFlag ∨ t.origPtr ≠ s.origPtr → P :=
  Or.rec (absurd hblock) (Or.rec (absurd hrand) (absurd horig))

/-- Settles O54: a core step's move is one of `RegisterMove`'s, and the slot it is at gives the phases. -/
theorem stagesOfTheRegisters : Obligations.StagesOfTheRegisters := by
  intro s t hcoh he hx
  have hm : CoreMove s t := coreStep_move (by simpa only [step, he] using hx)
  by_cases ha : s.phase.active = true
  case neg =>
    rw [hm.eq_of_inactive ha]
    simp
  have hpos : (s.phase, s.bphase) = slotPosition s.slot := hcoh.active ha
  cases hm.registerMove with
  | none h =>
    injection h with hq hsunk hcrc hcount hmult hstream hblock hrand horig
    exact ⟨absurd hq, absurd hsunk, absurd hcrc, absurd hcount, absurd hmult, absurd hstream,
      absurd_blockHeader hblock hrand horig⟩
  | source hs h =>
    injection h with _ hsunk hcrc hcount hmult hstream hblock hrand horig
    have hreads := slotPosition_reads hs
    rw [← hpos] at hreads
    exact ⟨fun _ => hreads, absurd hsunk, absurd hcrc, absurd hcount, absurd hmult, absurd hstream,
      absurd_blockHeader hblock hrand horig⟩
  | sink hs h =>
    injection h with hq _ hcrc hcount hmult hstream hblock hrand horig
    rw [hs] at hpos
    exact ⟨absurd hq, fun _ => Prod.ext_iff.mp hpos, absurd hcrc, absurd hcount, absurd hmult, absurd hstream,
      absurd_blockHeader hblock hrand horig⟩
  | blockEnd hs hp hc h =>
    injection h with hq hsunk hcrc hcount hmult hstream hblock hrand horig
    rw [hs] at hpos
    rw [rotl1_eq_rotateLeft] at hcrc
    obtain ⟨hph, hbp⟩ := Prod.ext_iff.mp hpos
    exact ⟨absurd hq, absurd hsunk, fun _ => ⟨hph, hbp, hp, hc, hcrc⟩, absurd hcount, absurd hmult,
      absurd hstream, absurd_blockHeader hblock hrand horig⟩
  | newBlock hs hp h =>
    injection h with hq hsunk hcrc hcount hmult hstream hblock hrand horig
    rw [hs] at hpos
    exact ⟨absurd hq, absurd hsunk, absurd hcrc, fun _ => ⟨congrArg Prod.fst hpos, hp, hcount⟩, absurd hmult,
      absurd hstream, absurd_blockHeader hblock hrand horig⟩
  | level hs hp hbounds h =>
    injection h with hq hsunk hcrc hcount _ hstream hblock hrand horig
    rw [hs] at hpos
    exact ⟨absurd hq, absurd hsunk, absurd hcrc, absurd hcount, fun _ => ⟨congrArg Prod.fst hpos, hp, hbounds⟩,
      absurd hstream, absurd_blockHeader hblock hrand horig⟩
  | trailer hs h =>
    injection h with hq hsunk hcrc hcount hmult _ hblock hrand horig
    rw [hs] at hpos
    exact ⟨absurd hq, absurd hsunk, absurd hcrc, absurd hcount, absurd hmult,
      fun _ => congrArg Prod.fst hpos, absurd_blockHeader hblock hrand horig⟩
  | blockHeader hs h =>
    injection h with hq hsunk hcrc hcount hmult hstream _ _ _
    rw [slotPosition_blockHeader hs] at hpos
    exact ⟨absurd hq, absurd hsunk, absurd hcrc, absurd hcount, absurd hmult, absurd hstream,
      fun _ => Prod.ext_iff.mp hpos⟩

end Sys2Proof.Machine
end

section
/-! The decoder and the encoder of the elements agree (spec/30_encoding.md R110 to R123). -/

namespace Sys2Proof.Machine

/-! ## Bit strings that spell an element -/

/-- In context `c` the bits `bits` are the element `i`, and on each shorter initial part the decoder asks for some
of the bits still missing and never for more (R111). -/
structure Spells (c : Ctx) (bits : List Bool) (i : Instr) : Prop where
  whole : decodeBits c bits = .instr i
  partway : ∀ got todo, got ++ todo = bits → todo ≠ [] →
    ∃ n, 0 < n ∧ n ≤ todo.length ∧ decodeBits c got = .more n

/-- The rounds of the decoder end exactly where the element's bits do, whatever follows them. -/
theorem Spells.decodeFrom_append {c : Ctx} {bits : List Bool} {i : Instr} (hb : Spells c bits i) (rest : List Bool)
    (fuel : Nat) {got todo : List Bool} (hsplit : got ++ todo = bits) (hfuel : todo.length < fuel) :
    decodeFrom c fuel got (todo ++ rest) = some (i, rest) := by
  induction fuel generalizing got todo with
  | zero => cases hfuel
  | succ fuel ih =>
    rw [decodeFrom]
    by_cases hempty : todo = []
    · subst hempty
      rw [List.append_nil] at hsplit
      rw [hsplit, hb.whole]
      rfl
    · obtain ⟨n, hpos, hle, hmore⟩ := hb.partway got todo hsplit hempty
      have hshort : ¬ (todo ++ rest).length < n := by rw [List.length_append]; omega
      simp only [hmore, if_neg hshort]
      rw [List.take_append_of_le_length hle, List.drop_append_of_le_length hle]
      refine ih ?_ (by rw [List.length_drop]; omega)
      rw [List.append_assoc, List.take_append_drop, hsplit]

theorem Spells.decode_append {c : Ctx} {bits : List Bool} {i : Instr} (hb : Spells c bits i) (rest : List Bool) :
    decode c (bits ++ rest) = some (i, rest) :=
  hb.decodeFrom_append rest _ (List.nil_append bits) (by rw [List.length_append]; omega)

/-! ## The formats FIX, UNARY and CLD of R110 -/

/-- FIX(n): every shorter initial part lacks bits of the field, and the field's value decides the element. -/
theorem spells_fixed {c : Ctx} {n chunk : Nat} {k : Nat → Decoded} {bits : List Bool} {i : Instr}
    (hc : ∀ b, decodeBits c b = fixed n chunk k b) (hchunk : 0 < chunk) (hlen : bits.length = n)
    (hk : k (bitsToNat bits) = .instr i) : Spells c bits i where
  whole := by rw [hc, fixed, if_neg (by omega), hk]
  partway := by
    intro got todo hsplit hne
    have hpos : 0 < todo.length := List.length_pos_iff.mpr hne
    have hsum : got.length + todo.length = n := by rw [← List.length_append, hsplit, hlen]
    exact ⟨min chunk (n - got.length), by omega, by omega, by rw [hc, fixed, if_pos (by omega)]⟩

/-- A field that is one operand word spells the element with that operand (R124). -/
theorem spells_operand {c : Ctx} {w chunk : Nat} {mk : BitVec w → Instr}
    (hc : ∀ b, decodeBits c b = fixed w chunk (fun v => .instr (mk (BitVec.ofNat w v))) b) (hchunk : 0 < chunk)
    (x : BitVec w) : Spells c (natToBits w x.toNat) (mk x) :=
  spells_fixed hc hchunk (natToBits_length _ _) (by
    rw [bitsToNat_natToBits x.isLt, BitVec.ofNat_toNat, BitVec.setWidth_eq])

/-- Fewer one-bits than there are tables, and no zero-bit yet: one bit more. -/
theorem decodeUnary_partway {numTables j : Nat} (seen : Nat) {got todo : List Bool}
    (hj : seen + j < numTables) (hsplit : got ++ todo = List.replicate j true ++ [false]) (hne : todo ≠ []) :
    decodeUnary numTables seen got = .more 1 := by
  induction j generalizing seen got with
  | zero =>
    cases got with
    | nil => rfl
    | cons b got =>
      obtain ⟨-, hnil⟩ := List.cons_eq_cons.mp hsplit
      exact absurd (List.append_eq_nil_iff.mp hnil).2 hne
  | succ j ih =>
    cases got with
    | nil => rfl
    | cons b got =>
      obtain ⟨rfl, htail⟩ := List.cons_eq_cons.mp hsplit
      rw [decodeUnary, if_neg (by omega)]
      exact ih (seen + 1) (by omega) htail

/-- The zero-bit ends the selector. -/
theorem decodeUnary_whole {numTables j : Nat} (seen : Nat) (hj : seen + j < numTables) :
    decodeUnary numTables seen (List.replicate j true ++ [false]) = .instr (.selMtf (seen + j)) := by
  induction j generalizing seen with
  | zero => rfl
  | succ j ih =>
    rw [List.replicate_succ, List.cons_append, decodeUnary, if_neg (by omega), ih (seen + 1) (by omega),
      Nat.succ_add_eq_add_succ]

/-- UNARY (R119). -/
theorem spells_selMtf {numTables j : Nat} (hj : j < numTables) :
    Spells (.selMtf numTables) (List.replicate j true ++ [false]) (.selMtf j) where
  whole := by rw [decodeBits, decodeUnary_whole 0 (by omega), Nat.zero_add]
  partway := fun _ _ hsplit hne =>
    ⟨1, Nat.one_pos, List.length_pos_iff.mpr hne, decodeUnary_partway 0 (by omega) hsplit hne⟩

/-- A CLD code of one bit: only the empty string is shorter (R120). -/
theorem spells_clDone : Spells .cld [false] .clDone where
  whole := rfl
  partway := by
    intro got todo hsplit hne
    cases got with
    | nil => exact ⟨1, Nat.one_pos, List.length_pos_iff.mpr hne, rfl⟩
    | cons b got =>
      obtain ⟨-, hnil⟩ := List.cons_eq_cons.mp hsplit
      exact absurd (List.append_eq_nil_iff.mp hnil).2 hne

/-- A CLD code of two bits: a first one-bit asks for the second (R120). -/
theorem spells_clIncDec {b : Bool} {i : Instr} (hi : decodeCld [true, b] = .instr i) :
    Spells .cld [true, b] i where
  whole := hi
  partway := by
    intro got todo hsplit hne
    refine ⟨1, Nat.one_pos, List.length_pos_iff.mpr hne, ?_⟩
    match got with
    | [] => rfl
    | [b₁] =>
      obtain ⟨rfl, -⟩ := List.cons_eq_cons.mp hsplit
      rfl
    | b₁ :: b₂ :: got =>
      obtain ⟨-, htail⟩ := List.cons_eq_cons.mp hsplit
      obtain ⟨-, hnil⟩ := List.cons_eq_cons.mp htail
      exact absurd (List.append_eq_nil_iff.mp hnil).2 hne

/-! ## BYTE: the RLE4 classes of R123 -/

/-- A walk byte spells its class. -/
theorem spells_rle {last : Option Byte} {acc : Nat} {b : Byte} {i : Instr} (hclass : rleClass last acc b = i) :
    Spells (.rle last acc) (natToBits 8 b.toNat) i :=
  hclass ▸ spells_operand (mk := rleClass last acc) (fun _ => rfl) (by decide) b

theorem rleClass_lit {last : Option Byte} (acc : Nat) {b : Byte} (hb : last ≠ some b) :
    rleClass last acc b = .rle4Lit b := if_pos hb

theorem rleClass_rep {acc : Nat} (b : Byte) (hacc : acc < 3) : rleClass (some b) acc b = .rle4Rep b := by
  rw [rleClass, if_neg (not_not_intro rfl), if_pos hacc]

theorem rleClass_run {acc : Nat} (b : Byte) (hacc : 3 ≤ acc) : rleClass (some b) acc b = .rle4Run b := by
  rw [rleClass, if_neg (not_not_intro rfl), if_neg (Nat.not_lt.mpr hacc)]

/-! ## Every admitted element -/

/-- The encoding of an admitted element spells it, format by format. -/
theorem spells_encode {c : Ctx} {i : Instr} (hsym : ∀ lens table eob, c ≠ .symbol lens table eob)
    (hadm : c.admits i = true) : Spells c (encode c i) i := by
  cases i with
  | runa | runb | mtfv | eob =>
    cases c with
    | symbol lens table eob => exact absurd rfl (hsym lens table eob)
    | _ => cases hadm
  | selMtf j =>
    cases c with
    | selMtf numTables => exact spells_selMtf (of_decide_eq_true hadm)
    | _ => cases hadm
  | rle4Lit b =>
    cases c with
    | rle last acc => exact spells_rle (rleClass_lit acc (of_decide_eq_true hadm))
    | _ => cases hadm
  | rle4Rep b =>
    cases c with
    | rle last acc =>
      obtain ⟨rfl, hacc⟩ := of_decide_eq_true hadm
      exact spells_rle (rleClass_rep b hacc)
    | _ => cases hadm
  | rle4Run b =>
    cases c with
    | rle last acc =>
      obtain ⟨rfl, hacc⟩ := of_decide_eq_true hadm
      exact spells_rle (rleClass_run b hacc)
    | _ => cases hadm
  | hdrMagic | hdrH | markBlock | markEnd =>
    obtain rfl := of_decide_eq_true hadm
    refine spells_fixed (fun b => by rw [decodeBits]) ?_ ?_ ?_ <;> decide
  | blkRand r =>
    obtain rfl := of_decide_eq_true hadm
    cases r <;> refine spells_fixed (fun b => by rw [decodeBits]) ?_ ?_ ?_ <;> decide
  | clDone =>
    obtain rfl := of_decide_eq_true hadm
    exact spells_clDone
  | clInc | clDec =>
    obtain rfl := of_decide_eq_true hadm
    exact spells_clIncDec rfl
  | hdrLevel | streamCrc | blkCrc | blkOrigPtr | mapUsed | mapPresent | nGroups | nSelectors | clStart
  | rle4Count =>
    obtain rfl := of_decide_eq_true hadm
    exact spells_operand (fun _ => rfl) (by decide) _

/-- Settles O9: the encoding spells the element, and the decoder stops where the element's bits end. -/
theorem decodeEncodeAgree : Obligations.DecodeEncodeAgree :=
  fun _ _ rest hsym hadm => (spells_encode hsym hadm).decode_append rest

/-- Settles O8: six of the words are encodings of admitted elements; the refused selector and the payload
symbol are decoded as they stand. -/
theorem specWordsDecode : Obligations.SpecWordsDecode :=
  ⟨decodeEncodeAgree .hdrMagic .hdrMagic [] nofun rfl,
    decodeEncodeAgree .hdrLevel (.hdrLevel 0x31#8) [true] nofun rfl,
    decodeEncodeAgree .mapUsed (.mapUsed 0x0200#16) [] nofun rfl,
    decodeEncodeAgree (.selMtf 3) (.selMtf 2) [true] nofun rfl,
    by decide,
    decodeEncodeAgree .cld .clDec [true, false] nofun rfl,
    by decide,
    decodeEncodeAgree (.rle (some 0x78#8) 3) (.rle4Run 0x78#8) [] nofun rfl⟩

end Sys2Proof.Machine
end

section
/-! SUPPORT. What a read does with the source's answer (spec/40_bitcursor.md R162, R165). -/

namespace Sys2Proof.Machine

theorem readStep_of_lt {n : Nat} {s : State} (hn : n ≤ Config.maxRead) (hb : s.bitCnt < n) :
    readStep n s = .next (fill s) := by
  rw [readStep, if_neg (Nat.not_lt.mpr hn), if_pos hb]

theorem readStep_of_le {n : Nat} {s : State} (hn : n ≤ Config.maxRead) (hb : n ≤ s.bitCnt) :
    readStep n s = .next (takeBits n s) := by
  rw [readStep, if_neg (Nat.not_lt.mpr hn), if_neg (Nat.not_lt.mpr hb)]

theorem fill_of_closed {s : State} (hc : s.srcClosed = true) :
    fill s = raise .truncatedInput Config.detailNone s := by
  rw [fill, if_pos hc]

theorem fill_of_unanswered {s : State} (hc : s.srcClosed = false) (hq : s.srcQ = []) :
    fill s = { s with waitSrc := true } := by
  simp only [fill, hc, hq, Bool.false_eq_true, if_false]

/-- A byte taken stands below the bits already there, modulo 2^32. -/
theorem fill_of_answered {s : State} {b : Byte} {q : List SrcAnswer} (hc : s.srcClosed = false)
    (hq : s.srcQ = .byte b :: q) :
    fill s = { s with
      srcQ := q, waitSrc := false, bitCnt := s.bitCnt + 8, inCount := s.inCount + 1#32
      bitBuf := BitVec.ofNat 32 (s.bitBuf.toNat * 256 + b.toNat) } := by
  simp only [fill, hc, hq, Bool.false_eq_true, if_false, shifted_in]

/-- The next stream bits are the next field's (R162). -/
theorem streamBits_split {n : Nat} (s : State) (hn : n ≤ 24) (h : n ≤ s.bitCnt) :
    streamBits s
      = natToBits n (fieldValue n s) ++ streamBits { s with bitCnt := s.bitCnt - n } := by
  rw [streamBits, take_split s hn h, List.append_assoc]
  rfl

theorem bitsToNat_fieldValue {n : Nat} (s : State) (hn : n ≤ 24) :
    bitsToNat (natToBits n (fieldValue n s)) = fieldValue n s :=
  bitsToNat_natToBits (by
    rw [fieldValue_eq s (by omega)]
    exact Nat.mod_lt _ (Nat.two_pow_pos n))

theorem sourceBits_length_le (q : List SrcAnswer) : (sourceBits q).length ≤ 8 * q.length := by
  induction q with
  | nil => exact Nat.le_refl 0
  | cons a q ih =>
    cases a with
    | eof => exact Nat.zero_le _
    | byte b =>
      rw [sourceBits, List.length_append, natToBits_length, List.length_cons]
      omega

/-- The stream is no longer than the accumulator and the source's answers. -/
theorem streamBits_length_le (s : State) : (streamBits s).length ≤ s.bitCnt + 8 * s.srcQ.length := by
  rw [streamBits, List.length_append, natToBits_length]
  exact Nat.add_le_add_left (sourceBits_length_le s.srcQ) _

end Sys2Proof.Machine
end

section
/-! The BitCursor's public operations, whole (spec/40_bitcursor.md R161 to R164): each is a chain of reads that
consume stream bits and touch nothing but the accumulator, its counter and the source. -/

namespace Sys2Proof.Machine

/-! ## Between and during two reads -/

/-- The source can be asked: no error, no exhausted source, no hold. -/
structure SourceReady (s : State) : Prop where
  noError : s.phase ≠ .error
  isOpen : s.srcClosed = false
  notHeld : s.waitSrc = false

/-- From `s` to `t` only the accumulator, the counters and the source's answers are touched. -/
def CursorFrame (s t : State) : Prop :=
  t = { s with bitBuf := t.bitBuf, bitCnt := t.bitCnt, inCount := t.inCount, srcQ := t.srcQ }

theorem CursorFrame.trans {s t u : State} (h : CursorFrame s t) (h' : CursorFrame t u) : CursorFrame s u := by
  unfold CursorFrame at h h' ⊢
  rw [h] at h'
  exact h'

theorem SourceReady.of_frame {s t : State} (hs : SourceReady s) (hf : CursorFrame s t) : SourceReady t := by
  rw [hf]
  exact ⟨hs.noError, hs.isOpen, hs.notHeld⟩

/-- The bits from `s` on have been read up to `t`: `n` of them are gone, and the cursor rests again (R160). -/
structure Consumes (n : Nat) (s t : State) : Prop where
  stream : streamBits t = (streamBits s).drop n
  rest : t.bitCnt ≤ 7
  frame : CursorFrame s t

theorem Consumes.trans {m n : Nat} {s t u : State} (h : Consumes m s t) (h' : Consumes n t u) :
    Consumes (m + n) s u where
  stream := by rw [h'.stream, h.stream, List.drop_drop]
  rest := h'.rest
  frame := h.frame.trans h'.frame

/-! ## readBits -/

/-- A fill during a read that the stream can serve (R165): the wait flag it clears is clear already. -/
theorem SourceReady.fill_byte {s : State} (hs : SourceReady s) (hlen : s.bitCnt < (streamBits s).length)
    (hc : s.bitCnt ≤ 24) :
    CursorFrame s (fill s) ∧ (fill s).bitCnt = s.bitCnt + 8 ∧ streamBits (fill s) = streamBits s := by
  obtain ⟨b, q, hq⟩ := srcQ_of_streamBits hlen
  refine ⟨?_, ?_, fill_streamBits hs.isOpen hq hc⟩ <;> rw [fill_of_answered hs.isOpen hq]
  unfold CursorFrame
  rw [← hs.notHeld]

/-- Fills bring `n` bits into the accumulator, and stop as soon as they are there. -/
theorem SourceReady.fillTo_got {n : Nat} (hn : n ≤ 24) (fuel : Nat) {s : State} (hs : SourceReady s)
    (hfuel : n ≤ s.bitCnt + 8 * fuel) (hc : s.bitCnt ≤ n + 7) (hlen : n ≤ (streamBits s).length) :
    ∃ t, fillTo n fuel s = .got () t ∧ CursorFrame s t ∧ streamBits t = streamBits s
      ∧ n ≤ t.bitCnt ∧ t.bitCnt ≤ n + 7 := by
  induction fuel generalizing s with
  | zero => exact ⟨s, if_neg (by omega), rfl, rfl, by omega, hc⟩
  | succ fuel ih =>
    by_cases hb : s.bitCnt < n
    · obtain ⟨hf, hcnt, hstream⟩ := hs.fill_byte (by omega) (by omega)
      have hready := hs.of_frame hf
      obtain ⟨t, ht, hft, hst, hbounds⟩ := ih hready (by omega) (by omega) (by rw [hstream]; exact hlen)
      refine ⟨t, ?_, hf.trans hft, hst.trans hstream, hbounds⟩
      simp only [fillTo, if_pos hb, if_neg hready.noError, hready.notHeld]
      exact ht
    · exact ⟨s, if_neg hb, rfl, rfl, by omega, hc⟩

/-- Once the fills have brought the bits, readBits takes them. -/
theorem readBits_of_fillTo {n : Nat} {s t : State} (hn : n ≤ Config.maxRead) (ht : fillTo n 4 s = .got () t) :
    readBits n s = .got (fieldValue n t) { t with bitCnt := t.bitCnt - n } := by
  rw [readBits, if_neg (Nat.not_lt.mpr hn), ht]

theorem readBits_zero (s : State) : readBits 0 s = .got 0 s := by
  have hfield : fieldValue 0 s = 0 := by rw [fieldValue_eq s (by decide), pow_zero, Nat.mod_one]
  rw [readBits_of_fillTo (Nat.zero_le _) (if_neg (Nat.not_lt_zero _)), hfield]
  rfl

/-- readBits answers the next `n` stream bits (R162). -/
theorem SourceReady.readBits_got {n : Nat} {s : State} (hs : SourceReady s) (hn : n ≤ 24) (hc : s.bitCnt ≤ 7)
    (hlen : n ≤ (streamBits s).length) :
    ∃ t, readBits n s = .got (bitsToNat ((streamBits s).take n)) t ∧ Consumes n s t := by
  obtain ⟨t, ht, hf, hstream, hle, hge⟩ := hs.fillTo_got hn 4 (by omega) (by omega) hlen
  have hsplit := hstream.symm.trans (streamBits_split t hn hle)
  refine ⟨{ t with bitCnt := t.bitCnt - n }, ?_, ?_, ?_, hf.trans rfl⟩
  · rw [hsplit, List.take_left' (natToBits_length _ _), bitsToNat_fieldValue t hn]
    exact readBits_of_fillTo hn ht
  · rw [hsplit, List.drop_left' (natToBits_length _ _)]
  · exact Nat.sub_le_iff_le_add'.mpr hge

/-! ## readInt32 -/

/-- Two 16-bit halves side by side are one 32-bit word. -/
theorem halves_join (hi : Nat) {lo : Nat} (h : lo < 2 ^ 16) :
    (BitVec.ofNat 32 hi <<< 16) ||| BitVec.ofNat 32 lo = BitVec.ofNat 32 (hi * 2 ^ 16 + lo) := by
  have hshift : BitVec.ofNat 32 hi <<< 16 = BitVec.ofNat 32 (hi <<< 16) := by
    apply BitVec.eq_of_toNat_eq
    simp only [BitVec.toNat_shiftLeft, BitVec.toNat_ofNat, Nat.shiftLeft_eq, Nat.mod_mul_mod]
  rw [hshift, ← BitVec.ofNat_or, ← Nat.shiftLeft_add_eq_or_of_lt h, Nat.shiftLeft_eq]

/-- readInt32 answers the next 32 stream bits (R164). -/
theorem SourceReady.readInt32_got {s : State} (hs : SourceReady s) (hc : s.bitCnt ≤ 7)
    (hlen : 32 ≤ (streamBits s).length) :
    ∃ t, readInt32 s = .got (BitVec.ofNat 32 (bitsToNat ((streamBits s).take 32))) t ∧ Consumes 32 s t := by
  obtain ⟨t, ht, hst⟩ := hs.readBits_got (n := 16) (by decide) hc (by omega)
  have hlen' : 16 ≤ (streamBits t).length := by rw [hst.stream, List.length_drop]; omega
  obtain ⟨u, hu, htu⟩ := (hs.of_frame hst.frame).readBits_got (n := 16) (by decide) hst.rest hlen'
  refine ⟨u, ?_, hst.trans htu⟩
  have hlo : ((streamBits t).take 16).length = 16 := List.length_take_of_le hlen'
  have hbits : (streamBits s).take 32 = (streamBits s).take 16 ++ (streamBits t).take 16 := by
    rw [hst.stream, ← List.take_add]
  have hlt := bitsToNat_lt ((streamBits t).take 16)
  rw [hlo] at hlt
  rw [hbits, bitsToNat_append, hlo, ← halves_join _ hlt]
  simp only [readInt32, ht, hu]

/-! ## readUnary -/

/-- readBit answers the next stream bit (R161). -/
theorem SourceReady.readBit_got {b : Bool} {rest : List Bool} {s : State} (hs : SourceReady s) (hc : s.bitCnt ≤ 7)
    (hstream : streamBits s = b :: rest) : ∃ t, readBit s = .got b t ∧ Consumes 1 s t := by
  obtain ⟨t, ht, hst⟩ := hs.readBits_got (n := 1) (by decide) hc (by rw [hstream]; simp)
  refine ⟨t, ?_, hst⟩
  rw [hstream] at ht
  simp only [readBit, ht]
  cases b <;> rfl

/-- readUnary counts on from the one-bits it has seen, and consumes the zero-bit too (R163). -/
theorem SourceReady.readUnaryFrom_got {j fuel : Nat} (seen : Nat) {rest : List Bool} {s : State}
    (hs : SourceReady s) (hc : s.bitCnt ≤ 7) (hfuel : j < fuel)
    (hstream : streamBits s = List.replicate j true ++ false :: rest) :
    ∃ t, readUnaryFrom fuel seen s = .got (seen + j) t ∧ Consumes (j + 1) s t := by
  induction j generalizing fuel seen s with
  | zero =>
    obtain ⟨fuel, rfl⟩ := Nat.exists_eq_add_one.mpr hfuel
    obtain ⟨t, ht, hst⟩ := hs.readBit_got hc hstream
    exact ⟨t, by simp only [readUnaryFrom, ht, Nat.add_zero], hst⟩
  | succ j ih =>
    obtain ⟨fuel, rfl⟩ := Nat.exists_eq_add_one.mpr (Nat.zero_lt_of_lt hfuel)
    obtain ⟨t, ht, hst⟩ := hs.readBit_got hc hstream
    have htail : streamBits t = List.replicate j true ++ false :: rest := by
      rw [hst.stream, hstream]
      rfl
    obtain ⟨u, hu, htu⟩ := ih (fuel := fuel) (seen + 1) (hs.of_frame hst.frame) hst.rest (by omega) htail
    refine ⟨u, ?_, Nat.add_comm 1 (j + 1) ▸ hst.trans htu⟩
    simp only [readUnaryFrom, ht, hu, Nat.succ_add_eq_add_succ]

/-! ## The statements -/

/-- Settles O12: the read's step is a fill or the take, and the fill follows the source's answer. -/
theorem fillAndTake : Obligations.FillAndTake := by
  intro s n hn
  refine ⟨fun hb => ⟨fun hc => ?_, fun hc hq => ?_, fun q hc hq => ?_, fun b q hc hq => ?_⟩, fun hb _ => ?_⟩
  · rw [readStep_of_lt hn hb, fill_of_closed hc]
    rfl
  · rw [readStep_of_lt hn hb, fill_of_unanswered hc hq]
  · exact readStep_of_eof hc hq hb hn
  · rw [readStep_of_lt hn hb, fill_of_answered hc hq]
  · exact ⟨natToBits n (fieldValue n s), natToBits_length _ _, readStep_of_le hn hb, take_split s hn hb⟩

/-- Settles O13: a wide read has no meaning, and every other moves the front of the stream. -/
theorem readBitsValue : Obligations.ReadBitsValue := by
  intro s n
  refine ⟨fun hn => if_pos hn, readBits_zero s, fun hn hp hc hw hb hlen => ?_, fun hp hc hw hb hlen => ?_⟩
  · obtain ⟨t, ht, hst⟩ := SourceReady.readBits_got ⟨hp, hc, hw⟩ hn hb hlen
    exact ⟨t, ht, hst.stream, hst.rest, hst.frame⟩
  · obtain ⟨t, ht, hst⟩ := SourceReady.readInt32_got ⟨hp, hc, hw⟩ hb hlen
    exact ⟨t, ht, hst.stream, hst.rest, hst.frame⟩

/-- Settles O14: the fuel is more than the stream's bits, so the count ends at the zero-bit. -/
theorem readUnaryValue : Obligations.ReadUnaryValue := by
  intro s j rest hp hc hw hb hstream
  have hlen : j < (streamBits s).length := by
    rw [hstream, List.length_append, List.length_replicate, List.length_cons]
    omega
  have hfuel : j < s.bitCnt + 8 * s.srcQ.length + 1 :=
    Nat.lt_succ_of_lt (lt_of_lt_of_le hlen (streamBits_length_le s))
  obtain ⟨t, ht, hst⟩ := SourceReady.readUnaryFrom_got 0 ⟨hp, hc, hw⟩ hb hfuel hstream
  refine ⟨t, Nat.zero_add j ▸ ht, ?_, hst.rest, hst.frame⟩
  rw [hst.stream, hstream, List.append_cons]
  exact List.drop_left' (by rw [List.length_append, List.length_replicate, List.length_singleton])

/-- Settles O15: the core's moves, reset, START and the other events each keep the cursor's bounds. -/
theorem stepKeepsCursor : Obligations.StepKeepsCursor := fun _ _ hs hx =>
  step_keeps (fun _ _ h hm => hm.cursorOk h) (fun s => (resetCore_inv s).cursor)
    (fun _ _ h hp => ⟨h.total, fun _ => h.rest (by rw [hp]; exact nofun)⟩)
    (fun _ _ _ _ _ h => { h with }) hs hx

end Sys2Proof.Machine
end

section
/-! The CRC as polynomial division (spec/41_crc.md R180 to R182). A step of the division is additive over
exclusive-or, so the top byte and the 24 bits below it divide apart: the ROM holds the top byte's eight steps, and
in those steps the lower bits only move up. -/

namespace Sys2Proof.Machine

/-! ## Steps of the division -/

/-- The polynomial is added when a one leaves at the top. -/
theorem crcShift_eq_xor (c : Word) :
    crcShift c = (c <<< 1) ^^^ (if c.getLsbD 31 then Config.crcPoly else 0#32) := by
  unfold crcShift
  split
  · rfl
  · exact BitVec.xor_zero.symm

theorem crcShift_xor (x y : Word) : crcShift (x ^^^ y) = crcShift x ^^^ crcShift y := by
  have hpoly (a b : Bool) : (if (a ^^ b) then Config.crcPoly else 0#32)
      = (if a then Config.crcPoly else 0#32) ^^^ (if b then Config.crcPoly else 0#32) := by
    cases a <;> cases b <;> decide
  simp only [crcShift_eq_xor, BitVec.shiftLeft_xor_distrib, BitVec.getLsbD_xor, hpoly]
  ac_rfl

theorem crcShifts_xor (n : Nat) (x y : Word) :
    crcShifts n (x ^^^ y) = crcShifts n x ^^^ crcShifts n y := by
  induction n generalizing x y with
  | zero => rfl
  | succ n ih => simp only [crcShifts, crcShift_xor, ih]

/-- While only zeros leave at the top, the polynomial is never added. -/
theorem crcShifts_of_high_clear {n : Nat} {c : Word} (h : ∀ i, 32 - n ≤ i → c.getLsbD i = false) :
    crcShifts n c = c <<< n := by
  induction n generalizing c with
  | zero => exact (BitVec.shiftLeft_zero c).symm
  | succ n ih =>
    have htop : crcShift c = c <<< 1 := if_neg (Bool.eq_false_iff.mp (h 31 (by omega)))
    have hnext : ∀ i, 32 - n ≤ i → (c <<< 1).getLsbD i = false := fun i hi => by
      simp [BitVec.getLsbD_shiftLeft, h (i - 1) (by omega)]
    rw [crcShifts, htop, ih hnext, ← BitVec.shiftLeft_add, Nat.add_comm]

/-! ## The top byte and the bits below it -/

/-- A byte entering at the top meets the top byte of the CRC only. -/
theorem xor_top_byte (c : Word) (b : Byte) :
    c ^^^ (BitVec.setWidth 32 b <<< 24)
      = BitVec.setWidth 32 (BitVec.setWidth 24 c)
        ^^^ (BitVec.setWidth 32 (BitVec.setWidth 8 (c >>> 24) ^^^ b) <<< 24) := by
  refine BitVec.eq_of_getLsbD_eq fun i hi => ?_
  simp only [BitVec.getLsbD_xor, BitVec.getLsbD_shiftLeft, BitVec.getLsbD_setWidth, BitVec.getLsbD_ushiftRight]
  by_cases hlow : i < 24
  · simp [hi, hlow]
  · have htop : 24 + (i - 24) = i := by omega
    have hbyte : i - 24 < 8 := by omega
    have hword : i - 24 < 32 := by omega
    simp [hi, hlow, htop, hbyte, hword]

theorem crcShifts_low_bits (c : Word) :
    crcShifts 8 (BitVec.setWidth 32 (BitVec.setWidth 24 c)) = c <<< 8 := by
  rw [crcShifts_of_high_clear fun i hi => by simp [Nat.not_lt.mpr hi]]
  refine BitVec.eq_of_getLsbD_eq fun i hi => ?_
  have hlow : i - 8 < 24 := by omega
  have hword : i - 8 < 32 := by omega
  simp only [BitVec.getLsbD_shiftLeft, BitVec.getLsbD_setWidth, hlow, hword, decide_true, Bool.true_and]

/-- R181 against R182: the byte's eight steps are the ROM's entry for the top byte and a shift of the rest. -/
theorem crcUpdate_eq_crcShifts (c : Word) (b : Byte) :
    crcUpdate c b = crcShifts 8 (c ^^^ (BitVec.setWidth 32 b <<< 24)) := by
  rw [xor_top_byte, crcShifts_xor, crcShifts_low_bits, crcUpdate, crct]

/-- Settles O16: eight steps take the top byte and the bits below it apart. -/
theorem crcIsPolynomialDivision : Obligations.CrcIsPolynomialDivision := fun c b =>
  ⟨crcUpdate_eq_crcShifts c b, crcShift_eq_xor c⟩

end Sys2Proof.Machine
end

section
/-! Promotion in a FrontList, by index and by value (spec/42_frontlist.md R200, R201, R202, R204). -/

namespace Sys2Proof.Machine

/-! ## The promoted list -/

/-- Behind the promoted entry the list goes on with entry `i` taken out. -/
theorem promote_getElem?_succ (fl : List Byte) (i k : Nat) (v : Byte) :
    (v :: (fl.take i ++ fl.drop (i + 1)))[k + 1]? = if k < i then fl[k]? else fl[k + 1]? := by
  rw [List.getElem?_cons_succ, ← List.eraseIdx_eq_take_drop_succ, List.getElem?_eraseIdx]

/-- Settles O17: behind the promoted entry come the entries before `i`, each one place on, and then those
after it, each in its place. -/
theorem promoteByIndex_spec : Obligations.PromoteByIndex := by
  intro nm fl i hnm hlen hi
  obtain ⟨v, hv⟩ : ∃ v, fl[i]? = some v := ⟨_, List.getElem?_eq_getElem (hlen.symm ▸ hi)⟩
  refine ⟨v, _, promoteByIndex_eq_ok.mpr ⟨hnm.symm ▸ hi, hv, rfl⟩, hv, (promote_length hv).trans hlen, rfl,
    ?_, ?_⟩
  · intro k hk hki
    obtain ⟨k, rfl⟩ := Nat.exists_eq_add_of_le' hk
    exact (promote_getElem?_succ ..).trans (if_pos hki)
  · intro k hik
    obtain ⟨k, rfl⟩ := Nat.exists_eq_add_of_le' (Nat.one_le_of_lt hik)
    exact (promote_getElem?_succ ..).trans (if_neg (Nat.not_lt.mpr (Nat.le_of_lt_succ hik)))

/-! ## Looking a value up -/

theorem identityList_nodup : identityList.Nodup := by
  refine List.Nodup.map_on (fun x hx y hy hxy => ?_) List.nodup_range
  have hval := congrArg BitVec.toNat hxy
  rwa [BitVec.toNat_ofNat, BitVec.toNat_ofNat, Nat.mod_eq_of_lt (List.mem_range.mp hx),
    Nat.mod_eq_of_lt (List.mem_range.mp hy)] at hval

theorem mem_identityList (v : Byte) : v ∈ identityList :=
  List.mem_map.mpr ⟨v.toNat, List.mem_range.mpr v.isLt, by simp⟩

theorem IsFrontList.nodup {fl : List Byte} (h : IsFrontList fl) : fl.Nodup :=
  (List.Perm.nodup_iff h).mpr identityList_nodup

theorem IsFrontList.mem {fl : List Byte} (h : IsFrontList fl) (v : Byte) : v ∈ fl :=
  (List.Perm.mem_iff h).mpr (mem_identityList v)

/-- Promoting a value is promoting the first index that holds it. -/
theorem promoteByValue_of_promoteByIndex {nm : MemName} {fl fl' : List Byte} {v w : Byte} {i : Nat}
    (hi : fl.idxOf? v = some i) (hp : promoteByIndex nm fl i = .ok (w, fl')) :
    promoteByValue nm fl v = .ok (i, fl') := by
  simp only [promoteByValue, hi, hp]

/-- Settles O18: a FrontList holds every value, and once, so the index found is the only one. -/
theorem promoteByValue_spec : Obligations.PromoteByValue := by
  intro nm fl v hnm hf
  obtain ⟨i, hfound⟩ := Option.isSome_iff_exists.mp (List.isSome_idxOf?.mpr (hf.mem v))
  obtain ⟨hi, hiv, -⟩ := List.idxOf?_eq_some_iff.mp hfound
  have hv : fl[i]? = some v := List.getElem?_eq_some_iff.mpr ⟨hi, hiv⟩
  have hp := promoteByIndex_eq_ok.mpr ⟨hnm.trans hf.length.symm ▸ hi, hv, rfl⟩
  exact ⟨i, _, hv, fun k hk => ((List.getElem?_inj hi hf.nodup).mp (hv.trans hk.symm)).symm,
    promoteByValue_of_promoteByIndex hfound hp, hp⟩

/-! ## What a promotion keeps -/

/-- Settles O19: the list's entries are only moved, and from inside the prefix to its front. -/
theorem promotionInvariants : Obligations.PromotionInvariants := by
  intro nm fl fl' i n v hp
  obtain ⟨-, hv, rfl⟩ := promoteByIndex_eq_ok.mp hp
  exact ⟨fun hf => promote_isFrontList hf hv,
    fun hclosed hi => ⟨hclosed i v hi hv, promote_prefixClosed hclosed hi hv⟩⟩

end Sys2Proof.Machine
end

section
/-! The Huffman decode tables as built (spec/43_huffman.md R211 to R214): their slots and the order of `perm`. -/

namespace Sys2Proof.Machine

/-! ## The slots -/

/-- Settles O20: the running code is the first canonical code of each length. -/
theorem tableRows_spec : Obligations.TableRows := by
  intro eob lens h
  obtain ⟨-, hmax⟩ : 1 ≤ lenMin lens ∧ lenMin lens ≤ 23 := h.min_bounds
  refine ⟨firstCode lens, firstCode_min lens, fun l hl => firstCode_succ hl, fun l hlo hhi => ?_, fun l hl => ?_⟩
  · have hslot : lenMin lens ≤ l ∧ l < lenMin lens + (24 - lenMin lens) := ⟨hlo, by omega⟩
    rw [base_lookup, if_pos hslot, limit_lookup, if_pos hslot, shorterCount_eq (fun k hk => (h.2 k hk).1)]
    exact ⟨rfl, rfl⟩
  · have hslot : ¬ (lenMin lens ≤ l ∧ l < lenMin lens + (24 - lenMin lens)) := by
      rintro ⟨h1, h2⟩
      rcases hl with hl | hl
      · exact Nat.not_lt.mpr h1 hl
      · omega
    rw [base_lookup, if_neg hslot, limit_lookup, if_neg hslot]
    exact ⟨rfl, rfl⟩

/-! ## The order of the ranks -/

/-- Symbol `a` is ranked before symbol `b`: it is shorter, or as long and smaller (R214). -/
def RankedBefore (lens : List Nat) (a b : Nat) : Prop :=
  lens.getD a 0 < lens.getD b 0 ∨ (lens.getD a 0 = lens.getD b 0 ∧ a < b)

theorem RankedBefore.ne {lens : List Nat} {a b : Nat} (h : RankedBefore lens a b) : a ≠ b := by
  rintro rfl
  rcases h with h | ⟨-, h⟩ <;> exact Nat.lt_irrefl _ h

theorem symbolsOfLen_rankedBefore (lens : List Nat) (l : Nat) :
    (symbolsOfLen l 0 lens).Pairwise (RankedBefore lens) := by
  refine (symbolsOfLen_pairwise l 0 lens).imp_of_mem fun {a b} ha hb hab => .inr ⟨?_, hab⟩
  have hlen : ∀ {x}, x ∈ symbolsOfLen l 0 lens → lens.getD x 0 = l := fun hx => by
    simpa [List.getD_eq_getElem?_getD] using congrArg (Option.getD · 0) (mem_symbolsOfLen.mp hx).2
  rw [hlen ha, hlen hb]

theorem rankFrom_rankedBefore (lens : List Nat) (n l : Nat) :
    (rankFrom lens n l).Pairwise (RankedBefore lens) := by
  induction n generalizing l with
  | zero => exact .nil
  | succ n ih =>
    refine List.pairwise_append.mpr ⟨symbolsOfLen_rankedBefore lens l, ih (l + 1), fun a ha b hb => .inl ?_⟩
    obtain ⟨-, hal⟩ := mem_symbolsOfLen.mp ha
    obtain ⟨k, hk, -, hbk⟩ := mem_rankFrom.mp hb
    rw [List.getD_eq_getElem?_getD, List.getD_eq_getElem?_getD, hbk]
    exact hal ▸ hk

theorem perm_rankedBefore (lens : List Nat) : (buildTable lens).perm.Pairwise (RankedBefore lens) :=
  rankFrom_rankedBefore lens _ _

theorem mem_perm {lens : List Nat} {x : Nat} : x ∈ (buildTable lens).perm ↔ x < lens.length := by
  refine mem_rankFrom.trans ⟨fun ⟨k, _, _, hk⟩ => (List.getElem?_eq_some_iff.mp hk).1, fun hx => ?_⟩
  have hmem := List.getElem_mem hx
  have hlo := lenMin_le hmem
  have hhi := le_lenMax hmem
  exact ⟨lens[x], hlo, by omega, List.getElem?_eq_getElem hx⟩

/-- Settles O21: a list in rank order repeats nothing, and `perm` holds every symbol. -/
theorem tableExtremaAndRanks : Obligations.TableExtremaAndRanks := by
  intro eob lens h
  have hne := ne_nil_of_lensOk h
  have hnodup : (buildTable lens).perm.Nodup := (perm_rankedBefore lens).imp RankedBefore.ne
  exact ⟨⟨lenMin_mem hne, lenMax_mem hne, fun l hl => ⟨lenMin_le hl, le_lenMax hl⟩⟩,
    (List.perm_ext_iff_of_nodup hnodup List.nodup_range).mpr fun x => mem_perm.trans List.mem_range.symm,
    perm_rankedBefore lens⟩

/-! ## Where a symbol stands in `perm` -/

/-- The ranks of some lengths come before those of the lengths that follow. -/
theorem rankFrom_add (lens : List Nat) (a b l : Nat) :
    rankFrom lens (a + b) l = rankFrom lens a l ++ rankFrom lens b (l + a) := by
  induction a generalizing l with
  | zero => rw [Nat.zero_add]; rfl
  | succ a ih =>
    rw [Nat.succ_add, rankFrom, ih, rankFrom, List.append_assoc, Nat.succ_add_eq_add_succ]

/-- A symbol has as many symbols of its length before it as there are among the smaller symbols. -/
theorem symbolsOfLen_getElem? {lens : List Nat} {i l : Nat} (s : Nat) (hi : lens[i]? = some l) :
    (symbolsOfLen l s lens)[lenCount (lens.take i) l]? = some (s + i) := by
  induction lens generalizing s i with
  | nil => cases hi
  | cons k r ih =>
    cases i with
    | zero =>
      obtain rfl : k = l := Option.some.inj hi
      rw [symbolsOfLen, if_pos rfl]
      rfl
    | succ i =>
      have hrest := ih (s + 1) hi
      rw [Nat.succ_add_eq_add_succ] at hrest
      rw [symbolsOfLen, List.take_succ_cons]
      by_cases hk : k = l
      · subst hk
        rw [if_pos rfl, lenCount, List.count_cons_self, List.getElem?_cons_succ]
        exact hrest
      · rw [if_neg hk, lenCount, List.count_cons_of_ne hk]
        exact hrest

/-- The rank of a symbol: the shorter symbols, then the smaller ones of its length (R214). -/
theorem LensOk.perm_getElem? {eob : Nat} {lens : List Nat} (h : LensOk eob lens) {sym l : Nat}
    (hl : lens[sym]? = some l) :
    (buildTable lens).perm[shorterCount lens l + lenCount (lens.take sym) l]? = some sym := by
  have hmem := List.mem_of_getElem? hl
  have hlo := lenMin_le hmem
  have hhi := le_lenMax hmem
  have hsplit : (buildTable lens).perm = rankFrom lens (l - lenMin lens) (lenMin lens)
      ++ (symbolsOfLen l 0 lens ++ rankFrom lens (lenMax lens - l) (l + 1)) := by
    have hcount : lenMax lens + 1 - lenMin lens = (l - lenMin lens) + (lenMax lens - l + 1) := by omega
    have hstart : lenMin lens + (l - lenMin lens) = l := by omega
    show rankFrom lens _ _ = _
    rw [hcount, rankFrom_add, hstart]
    rfl
  have hshort : (rankFrom lens (l - lenMin lens) (lenMin lens)).length = shorterCount lens l := by
    rw [rankFrom_length, shorterCount_eq (fun k hk => (h.2 k hk).1)]
    refine List.countP_congr fun k hk => ?_
    have hk := lenMin_le hk
    simp only [decide_eq_true_eq]
    omega
  have hsym := symbolsOfLen_getElem? 0 hl
  rw [hsplit, List.getElem?_append_right (by omega), hshort, Nat.add_sub_cancel_left,
    List.getElem?_append_left (List.getElem?_eq_some_iff.mp hsym).1, hsym, Nat.zero_add]

end Sys2Proof.Machine
end

section
/-! Decoding a payload symbol (spec/43_huffman.md R215 to R219): every path stays inside the tables, and in a complete
length set the canonical codeword of a symbol leads to that symbol. -/

namespace Sys2Proof.Machine

/-! ## Every path -/

theorem slotAt_ne_badCode (nm : MemName) (m : Memory Int) (L : Nat) : slotAt nm m L ≠ .error .badCode := by
  unfold slotAt
  split
  · nofun
  · split <;> nofun

theorem permAt_ne_badCode (tb : HuffTable) (r : Int) : permAt tb r ≠ .error .badCode := by
  unfold permAt
  split
  · nofun
  · split <;> nofun

/-- Only the last turn of the loop raises BADCODE (R217). -/
theorem length_of_decodeSymbol_badCode {tb : HuffTable} {eob : Nat} {bits : List Bool}
    (h : decodeSymbol tb eob bits = .reject .badCode) : bits.length = Config.maxCodeLen := by
  unfold decodeSymbol at h
  split at h
  · cases h
  · split at h
    · next why hlimit =>
      cases h
      exact absurd hlimit (slotAt_ne_badCode _ _ _)
    · split at h
      · split at h
        · next why hbase =>
          cases h
          exact absurd hbase (slotAt_ne_badCode _ _ _)
        · split at h
          · next why hperm =>
            cases h
            exact absurd hperm (permAt_ne_badCode _ _)
          · cases h
      · split at h
        · next hmax => exact hmax
        · cases h

/-- Settles O22: the four ways a turn of decodeSymbol can go on a path. -/
theorem decodeReadsInRange : Obligations.DecodeReadsInRange := by
  intro eob lens bits h hp
  have hstay : ∀ {n}, decodeSymbol (buildTable lens) eob bits = .more n →
      ∀ next : List Bool, next.length = n → OnPath lens (bits ++ next) :=
    fun hd next hn => onPath_more h hp (hn.symm ▸ hd)
  rcases decodeSymbol_onPath h hp eob with ⟨-, hd⟩ | ⟨sym, hsym, hd⟩ | hd | ⟨-, -, -, hd⟩
  · exact .inl ⟨lenMin lens, hd, h.min_bounds.1, h.min_bounds.2, hstay hd⟩
  · exact .inr (.inl ⟨sym, perm_le_eob h hsym, hd⟩)
  · exact .inr (.inr ⟨hd, length_of_decodeSymbol_badCode hd⟩)
  · exact .inl ⟨1, hd, by decide, by decide, hstay hd⟩

/-! ## The canonical codes -/

/-- The first code of a longer length is above every shorter codeword and all its extensions. -/
theorem firstCode_above {lens : List Nat} {m : Nat} (hm : lenMin lens ≤ m) (k : Nat) :
    (firstCode lens m + lenCount lens m) * 2 ^ (k + 1) ≤ firstCode lens (m + (k + 1)) := by
  induction k with
  | zero => rw [Nat.zero_add, pow_one, firstCode_succ hm]
  | succ k ih =>
    calc (firstCode lens m + lenCount lens m) * 2 ^ (k + 1 + 1)
        = (firstCode lens m + lenCount lens m) * 2 ^ (k + 1) * 2 := by rw [pow_succ _ (k + 1), Nat.mul_assoc]
      _ ≤ (firstCode lens (m + (k + 1)) + lenCount lens (m + (k + 1))) * 2 :=
          Nat.mul_le_mul_right 2 (Nat.le_add_right_of_le ih)
      _ = firstCode lens (m + (k + 1 + 1)) := (firstCode_succ (Nat.le_add_right_of_le hm)).symm

/-- The first code of a length, scaled, is the Kraft sum of the shorter lengths. -/
theorem firstCode_scaled {lens : List Nat} {l : Nat} (hlo : lenMin lens ≤ l) (hhi : l ≤ Config.maxCodeLen) :
    firstCode lens l * 2 ^ (Config.maxCodeLen - l)
      = ∑ k ∈ Finset.Ico (lenMin lens) l, lenCount lens k * 2 ^ (Config.maxCodeLen - k) := by
  induction l, hlo using Nat.le_induction with
  | base => rw [firstCode_min, Finset.Ico_self, Finset.sum_empty, Nat.zero_mul]
  | succ l hlo ih =>
    have hpow : 2 ^ (Config.maxCodeLen - l) = 2 * 2 ^ (Config.maxCodeLen - (l + 1)) := by
      rw [← pow_succ', Nat.sub_add_eq, Nat.sub_add_cancel (Nat.sub_pos_of_lt hhi)]
    rw [Finset.sum_Ico_succ_top hlo, ← ih (Nat.le_of_succ_le hhi), firstCode_succ hlo, hpow]
    ring

section
variable {eob : Nat} {lens : List Nat} (h : LensOk eob lens)
include h

theorem LensOk.kraftSum_eq :
    (lens.map (fun l => 2 ^ (Config.maxCodeLen - l))).sum
      = ∑ k ∈ Finset.Ico (lenMin lens) (Config.maxCodeLen + 1), lenCount lens k * 2 ^ (Config.maxCodeLen - k) := by
  rw [Finset.sum_list_map_count]
  refine Finset.sum_subset (fun l hl => ?_) fun l _ hl => ?_
  · have hmem := List.mem_toFinset.mp hl
    exact Finset.mem_Ico.mpr ⟨lenMin_le hmem, Nat.lt_succ_of_le (h.2 l hmem).2⟩
  · rw [List.count_eq_zero.mpr (fun hm => hl (List.mem_toFinset.mpr hm)), zero_smul]

/-- The codes of a complete length set fit their length (R215). -/
theorem LensOk.code_fits (hk : KraftComplete lens) {l : Nat} (hlo : lenMin lens ≤ l) (hhi : l ≤ Config.maxCodeLen) :
    firstCode lens l + lenCount lens l ≤ 2 ^ l := by
  refine Nat.le_of_mul_le_mul_right ?_ (Nat.two_pow_pos (Config.maxCodeLen - l))
  calc (firstCode lens l + lenCount lens l) * 2 ^ (Config.maxCodeLen - l)
      = ∑ k ∈ Finset.Ico (lenMin lens) (l + 1), lenCount lens k * 2 ^ (Config.maxCodeLen - k) := by
        rw [Finset.sum_Ico_succ_top hlo, ← firstCode_scaled hlo hhi, Nat.add_mul]
    _ ≤ ∑ k ∈ Finset.Ico (lenMin lens) (Config.maxCodeLen + 1), lenCount lens k * 2 ^ (Config.maxCodeLen - k) :=
        Finset.sum_le_sum_of_subset (Finset.Ico_subset_Ico_right (Nat.succ_le_succ hhi))
    _ = 2 ^ Config.maxCodeLen := h.kraftSum_eq.symm.trans hk
    _ = 2 ^ l * 2 ^ (Config.maxCodeLen - l) := by rw [← pow_add, Nat.add_sub_cancel' hhi]

/-! ## One turn of decodeSymbol -/

/-- Bits above all codewords of their length: one bit more (R217). -/
theorem LensOk.decodeSymbol_above {bits : List Bool} (e : Nat) (hlo : lenMin lens ≤ bits.length)
    (hhi : bits.length < Config.maxCodeLen)
    (hv : firstCode lens bits.length + lenCount lens bits.length ≤ bitsToNat bits) :
    decodeSymbol (buildTable lens) e bits = .more 1 := by
  have hlong : ¬ bits.length < (buildTable lens).minLen := Nat.not_lt.mpr hlo
  simp only [decodeSymbol, if_neg hlong, h.limit_slot hlo hhi.le]
  rw [if_neg (by omega), if_neg hhi.ne]

/-- Bits with the value of a symbol's codeword, in its length: that symbol (R217). -/
theorem LensOk.decodeSymbol_codeword {bits : List Bool} {sym : Nat} (e : Nat) (hl : lens[sym]? = some bits.length)
    (hv : bitsToNat bits = firstCode lens bits.length + lenCount (lens.take sym) bits.length)
    (hr : lenCount (lens.take sym) bits.length < lenCount lens bits.length) :
    decodeSymbol (buildTable lens) e bits = .instr (symbolInstr e sym) := by
  have hmem := List.mem_of_getElem? hl
  have hlo := lenMin_le hmem
  have hhi := (h.2 _ hmem).2
  have hlong : ¬ bits.length < (buildTable lens).minLen := Nat.not_lt.mpr hlo
  have hperm : permAt (buildTable lens)
      ((bitsToNat bits : Int) - ((firstCode lens bits.length : Int) - shorterCount lens bits.length)) = .ok sym := by
    have hrank : (bitsToNat bits : Int) - ((firstCode lens bits.length : Int) - shorterCount lens bits.length)
        = ((shorterCount lens bits.length + lenCount (lens.take sym) bits.length : Nat) : Int) := by omega
    rw [hrank]
    exact permAt_eq_ok.mpr ⟨Int.natCast_nonneg _, h.perm_getElem? hl⟩
  simp only [decodeSymbol, if_neg hlong, h.limit_slot hlo hhi, h.base_slot hlo hhi, hperm]
  rw [if_pos (by omega)]

end

/-! ## The codeword of a symbol -/

theorem codeword_of_length {lens : List Nat} {sym l : Nat} (hl : lens[sym]? = some l) :
    codeword lens sym = natToBits l (firstCode lens l + lenCount (lens.take sym) l) := by
  simp only [codeword, hl]

/-- The symbol itself is not among the smaller symbols of its length. -/
theorem lenCount_take_lt {lens : List Nat} {sym l : Nat} (hl : lens[sym]? = some l) :
    lenCount (lens.take sym) l < lenCount lens l := by
  obtain ⟨hlt, hget⟩ := List.getElem?_eq_some_iff.mp hl
  have hsplit : lens.count l = (lens.take sym).count l + (lens.drop sym).count l := by
    rw [← List.count_append, List.take_append_drop]
  have hhere : 0 < (lens.drop sym).count l := by
    rw [List.drop_eq_getElem_cons hlt, hget, List.count_cons_self]
    exact Nat.succ_pos _
  rw [lenCount, lenCount]
  omega

/-- The bits read of an unfinished codeword are above all codewords of their length. -/
theorem unfinished_codeword_above {lens : List Nat} {got todo : List Bool} (hlo : lenMin lens ≤ got.length)
    (hne : todo ≠ []) (hv : firstCode lens (got ++ todo).length ≤ bitsToNat (got ++ todo)) :
    firstCode lens got.length + lenCount lens got.length ≤ bitsToNat got := by
  obtain ⟨k, hk⟩ : ∃ k, todo.length = k + 1 := Nat.exists_eq_succ_of_ne_zero (List.length_pos_iff.mpr hne).ne'
  have habove := firstCode_above hlo k
  have hlow := bitsToNat_lt todo
  rw [List.length_append, bitsToNat_append, hk] at hv
  rw [hk] at hlow
  refine Nat.le_of_lt_succ (Nat.lt_of_mul_lt_mul_right (a := 2 ^ (k + 1)) ?_)
  rw [Nat.succ_mul]
  omega

/-- Along its codeword the decoder asks for the shortest length, then bit by bit, and ends at the symbol (R217). -/
theorem spells_codeword {eob sym l : Nat} {lens : List Nat} (h : LensOk eob lens) (hk : KraftComplete lens)
    (hl : lens[sym]? = some l) :
    Spells (.symbol lens (buildTable lens) eob) (codeword lens sym) (symbolInstr eob sym) := by
  have hmem := List.mem_of_getElem? hl
  have hlo := lenMin_le hmem
  have hhi := (h.2 l hmem).2
  have hrank := lenCount_take_lt hl
  have hlen : (codeword lens sym).length = l := by rw [codeword_of_length hl, natToBits_length]
  have hv : bitsToNat (codeword lens sym) = firstCode lens l + lenCount (lens.take sym) l := by
    have hfit := h.code_fits hk hlo hhi
    rw [codeword_of_length hl, bitsToNat_natToBits (by omega)]
  refine ⟨h.decodeSymbol_codeword eob (by rw [hlen, hl]) (by rw [hlen, hv]) (by rwa [hlen]), ?_⟩
  intro got todo hsplit hne
  have hpos := List.length_pos_iff.mpr hne
  have hsum : got.length + todo.length = l := by rw [← List.length_append, hsplit, hlen]
  by_cases hshort : got.length < lenMin lens
  · exact ⟨lenMin lens - got.length, by omega, by omega, if_pos hshort⟩
  · have hlong := Nat.le_of_not_lt hshort
    have habove := unfinished_codeword_above hlong hne (by rw [hsplit, hlen, hv]; exact Nat.le_add_right _ _)
    exact ⟨1, Nat.one_pos, hpos, h.decodeSymbol_above eob hlong (by omega) habove⟩

/-- Settles O10: a complete length set leaves every codeword inside its length, and no shorter codeword begins it. -/
theorem huffmanRoundTrip : Obligations.HuffmanRoundTrip := by
  intro eob sym lens rest h hk hsym
  have hl := List.getElem?_eq_getElem hsym
  exact ⟨(spells_codeword h hk hl).decode_append rest, by rw [codeword_of_length hl, natToBits_length, hl]⟩

end Sys2Proof.Machine
end

section
/-! The selector advance and the count of the payload symbols (spec/43_huffman.md R218). -/

namespace Sys2Proof.Machine

theorem AtElement.step_select {s : State} (h : AtElement .select s) : step s = selectStep s := by
  have hslot : s.slot = .select := h.2.2
  rw [step_stageStep h (by simp only [ctxOf, hslot]), stageStep, hslot]

theorem selectStep_within_group {s : State} (h : s.symCount % Config.groupSize ≠ 0) :
    selectStep s = .next (advance .symbol s) := by
  rw [selectStep, if_neg h]

theorem selectStep_no_selector {s : State} (h : s.symCount % Config.groupSize = 0)
    (hn : s.numSelectors ≤ s.symCount / Config.groupSize) :
    selectStep s = .next (raiseCorrupt Config.detailSelOvf s) := by
  rw [selectStep, if_pos h, if_pos hn]

theorem selectStep_next_selector {s : State} {t : Nat} (h : s.symCount % Config.groupSize = 0)
    (ht : selectorAt s (s.symCount / Config.groupSize) = .ok t) :
    selectStep s = .next (advance .symbol { s with curTable := t }) := by
  obtain ⟨-, hn, -⟩ := memRead_eq_ok.mp ht
  rw [selectStep, if_pos h, if_neg (Nat.not_le.mpr hn), ht]
  rfl

theorem flushRun_symCount {s t : State} (h : flushRun s = .ok t) : t.symCount = s.symCount := by
  rw [flushRun_frame h]

theorem literal_symCount {k : Nat} {s t : State} (h : literal k s = .next t) : t.symCount = s.symCount := by
  unfold literal at h
  split at h
  · cases h
    rfl
  · obtain ⟨r, -, h⟩ := attempt_eq_next.mp h
    obtain ⟨v, -, h⟩ := attempt_eq_next.mp h
    obtain ⟨m, -, h⟩ := attempt_eq_next.mp h
    obtain ⟨hist, -, h⟩ := attempt_eq_next.mp h
    cases h
    rfl

theorem escape_symCount (w : Nat) (s : State) : (escape w s).symCount = s.symCount := by
  unfold escape
  split <;> rfl

/-- Every payload element counts itself (R218). -/
theorem exec_payload_symCount {s t : State} {i : Instr}
    (hi : i = .runa ∨ i = .runb ∨ i = .eob ∨ ∃ n, i = .mtfv n)
    (hx : exec i s = .next t) : t.symCount = s.symCount + 1 := by
  rcases hi with rfl | rfl | rfl | ⟨n, rfl⟩
  · cases hx
    exact escape_symCount 1 (countSymbol s)
  · cases hx
    exact escape_symCount 2 (countSymbol s)
  · obtain ⟨u, hu, hx⟩ := attempt_eq_next.mp hx
    cases hx
    exact flushRun_symCount hu
  · obtain ⟨u, hu, hx⟩ := attempt_eq_next.mp hx
    exact (literal_symCount hx).trans (flushRun_symCount hu)

/-- Settles O23: the three branches of the selector advance, and the count of each payload element. -/
theorem selectorAdvance : Obligations.SelectorAdvance := by
  refine ⟨fun s hs => ⟨fun hmod => ?_, fun hmod hn => ?_, fun t hmod hlt hmax ht => ?_⟩,
    fun s t i hi hx => exec_payload_symCount hi hx⟩
  · exact hs.step_select.trans (selectStep_within_group hmod)
  · exact hs.step_select.trans (selectStep_no_selector hmod hn)
  · have hread : selectorAt s (s.symCount / 50) = .ok t := memRead_eq_ok.mpr ⟨lt_of_lt_of_le hlt hmax, hlt, ht⟩
    exact hs.step_select.trans (selectStep_next_selector hmod hread)

end Sys2Proof.Machine
end

section
/-! The fixed-width fields of the block header and its tables, and the elements that only store or check one
(spec/44_block_header.md R241 to R243, R247 to R249). -/

namespace Sys2Proof.Machine

/-! ## The step by the decoder's answer -/

section
variable {sl : Slot} {s : State} {c : Ctx} (h : AtElement sl s) (hc : ctxOf s = .ok (some c))
include h hc

theorem AtElement.step_readStep {n : Nat} (hd : decodeBits c s.latch = .more n)
    (hsl : sl ≠ .rle ∧ sl ≠ .rleCount) : step s = readStep n s := by
  obtain ⟨he, ha, rfl⟩ := h
  obtain ⟨-, hmore, -⟩ := stepRunsElement s c he ha hc
  exact hmore n hd hsl.1 hsl.2

theorem AtElement.step_exec {i : Instr} (hd : decodeBits c s.latch = .instr i) : step s = exec i s := by
  obtain ⟨he, ha, -⟩ := h
  obtain ⟨hinstr, -⟩ := stepRunsElement s c he ha hc
  exact hinstr i hd

theorem AtElement.step_selMtf_error (hd : decodeBits c s.latch = .reject .selMtf) :
    step s = .next (raise .corruptBlock 3#4 s) := by
  obtain ⟨he, ha, -⟩ := h
  obtain ⟨-, -, hreject, -⟩ := stepRunsElement s c he ha hc
  exact hreject hd

end

/-! ## Fixed-width fields -/

/-- A FIX element read from the BitCursor: its reads, and the run of the whole field (spec/30_encoding.md R110). -/
theorem field_of_fixed {sl : Slot} {n chunk : Nat} {mk : Nat → Instr} (c : Ctx)
    (hsl : sl ≠ .rle ∧ sl ≠ .rleCount) (hc : ∀ s : State, ctxOf { s with slot := sl } = .ok (some c))
    (hd : ∀ bits, decodeBits c bits = fixed n chunk (fun v => .instr (mk v)) bits) (h0 : 0 < chunk) :
    ReadsField sl n chunk ∧ RunsField sl n mk := by
  have hctx : ∀ s : State, s.slot = sl → ctxOf s = .ok (some c) := by
    rintro s rfl
    exact hc s
  exact ⟨readsField_of_fixed hsl.1 hsl.2 hctx ⟨_, hd⟩ h0, runsField_of_fixed hctx hd⟩

theorem blkCrc_field :
    ReadsField .blkCrc 32 16 ∧ RunsField .blkCrc 32 (fun v => .blkCrc (BitVec.ofNat 32 v)) :=
  field_of_fixed .blkCrc (by decide) (fun _ => rfl) (fun _ => rfl) (by decide)

theorem blkRand_field : ReadsField .blkRand 1 1 ∧ RunsField .blkRand 1 (fun v => .blkRand (v == 1)) :=
  field_of_fixed .blkRand (by decide) (fun _ => rfl) (fun _ => rfl) (by decide)

theorem blkOrigPtr_field :
    ReadsField .blkOrigPtr 24 24 ∧ RunsField .blkOrigPtr 24 (fun v => .blkOrigPtr (BitVec.ofNat 24 v)) :=
  field_of_fixed .blkOrigPtr (by decide) (fun _ => rfl) (fun _ => rfl) (by decide)

theorem mapUsed_field :
    ReadsField .mapUsed 16 16 ∧ RunsField .mapUsed 16 (fun v => .mapUsed (BitVec.ofNat 16 v)) :=
  field_of_fixed .mapUsed (by decide) (fun _ => rfl) (fun _ => rfl) (by decide)

theorem mapPresent_field :
    ReadsField .mapPresent 16 16 ∧ RunsField .mapPresent 16 (fun v => .mapPresent (BitVec.ofNat 16 v)) :=
  field_of_fixed .mapPresent (by decide) (fun _ => rfl) (fun _ => rfl) (by decide)

theorem nGroups_field : ReadsField .nGroups 3 3 ∧ RunsField .nGroups 3 (fun v => .nGroups (BitVec.ofNat 3 v)) :=
  field_of_fixed .nGroups (by decide) (fun _ => rfl) (fun _ => rfl) (by decide)

theorem nSelectors_field :
    ReadsField .nSelectors 15 15 ∧ RunsField .nSelectors 15 (fun v => .nSelectors (BitVec.ofNat 15 v)) :=
  field_of_fixed .nSelectors (by decide) (fun _ => rfl) (fun _ => rfl) (by decide)

theorem clStart_field : ReadsField .clStart 5 5 ∧ RunsField .clStart 5 (fun v => .clStart (BitVec.ofNat 5 v)) :=
  field_of_fixed .clStart (by decide) (fun _ => rfl) (fun _ => rfl) (by decide)

/-! ## The counts' validation (R249) -/

theorem execNSelectors_bad_tables {s : State} (k : BitVec 15)
    (h : s.numTables < Config.minTables ∨ Config.maxTables < s.numTables) :
    execNSelectors k s = .next (raiseCorrupt Config.detailTables { s with numSelectors := k.toNat }) := by
  rw [execNSelectors, if_pos h]

section
variable {s : State} {k : BitVec 15} (ht : Config.minTables ≤ s.numTables ∧ s.numTables ≤ Config.maxTables)
include ht

theorem execNSelectors_bad_count (hk : k.toNat < 1 ∨ Config.maxSelectors < k.toNat) :
    execNSelectors k s = .next (raiseCorrupt Config.detailSelCount { s with numSelectors := k.toNat }) := by
  rw [execNSelectors, if_neg (by omega), if_pos hk]

theorem execNSelectors_valid (hk : 1 ≤ k.toNat ∧ k.toNat ≤ Config.maxSelectors) :
    execNSelectors k s = .next (advance .selMtf { s with numSelectors := k.toNat, selIdx := 0 }) := by
  rw [execNSelectors, if_neg (by omega), if_neg (by omega)]

end

/-! ## The statements -/

/-- Settles O29: three fields of fixed width, each stored by its element as it was read. -/
theorem blockHeader : Obligations.BlockHeader :=
  ⟨⟨blkCrc_field.1, blkRand_field.1, blkOrigPtr_field.1⟩,
    ⟨blkCrc_field.2, blkRand_field.2, blkOrigPtr_field.2⟩,
    fun _ _ _ _ => ⟨rfl, rfl, rfl⟩⟩

/-- Settles O32: NGROUPS stores its count unchecked, and NSELECTORS tells the three cases of the two counts apart. -/
theorem groupAndSelectorCounts : Obligations.GroupAndSelectorCounts :=
  ⟨nGroups_field, nSelectors_field, fun _ k _ =>
    ⟨rfl, execNSelectors_bad_tables k, fun hlo hhi hk => execNSelectors_bad_count ⟨hlo, hhi⟩ hk,
      fun hlo hhi h1 h2 => execNSelectors_valid ⟨hlo, hhi⟩ ⟨h1, h2⟩⟩⟩

end Sys2Proof.Machine
end

section
/-! The symbol map (spec/44_block_header.md R244 to R246): the used ranges in turn, the values of a range's bitmap,
and the map's completion. -/

namespace Sys2Proof.Machine

/-! ## The next used range -/

theorem nextUsedRange_eq_some {m : BitVec 16} {i k : Nat} (hik : i ≤ k) (hk : k ≤ 15)
    (hbit : m.getLsbD (15 - k) = true) (hfirst : ∀ j, i ≤ j → j < k → m.getLsbD (15 - j) = false) :
    nextUsedRange m i = some k := by
  cases hx : nextUsedRange m i with
  | none =>
    have hclear := usedRangeFrom_eq_none hx k hik (by omega)
    exact absurd (hbit.symm.trans hclear) (by decide)
  | some k' =>
    obtain ⟨hik', -, hbit', hfirst'⟩ := usedRangeFrom_eq_some hx
    rcases Nat.lt_trichotomy k k' with hlt | rfl | hlt
    · exact absurd (hbit.symm.trans (hfirst' k hik hlt)) (by decide)
    · rfl
    · exact absurd (hbit'.symm.trans (hfirst k' hik' hlt)) (by decide)

theorem nextUsedRange_eq_none {m : BitVec 16} {i : Nat}
    (hclear : ∀ j, i ≤ j → j ≤ 15 → m.getLsbD (15 - j) = false) : nextUsedRange m i = none := by
  cases hx : nextUsedRange m i with
  | none => rfl
  | some k =>
    obtain ⟨hik, hk, hbit, -⟩ := usedRangeFrom_eq_some hx
    exact absurd (hbit.symm.trans (hclear k hik (by omega))) (by decide)

/-! ## What follows a bitmap -/

theorem continueMap_next_range {i k : Nat} {s : State} (h : nextUsedRange s.usedMap i = some k) :
    continueMap i s = advance .mapPresent { s with rangeIdx := k } := by
  rw [continueMap, h]

theorem continueMap_empty {i : Nat} {s : State} (h : nextUsedRange s.usedMap i = none) (hn : s.numInUse = 0) :
    continueMap i s = raiseCorrupt Config.detailNoSymbols s := by
  rw [continueMap, h]
  exact if_pos hn

theorem continueMap_complete {i : Nat} {s : State} (h : nextUsedRange s.usedMap i = none) (hn : 0 < s.numInUse) :
    continueMap i s = advance .nGroups { s with eob := s.numInUse + 1 } := by
  rw [continueMap, h]
  exact if_neg (Nat.ne_of_gt hn)

/-! ## The values of a range -/

/-- The places of a bitmap's one-bits, first bit lowest (R245). -/
def presentBits (p : BitVec 16) : List Nat := (List.range 16).filter fun j => p.getLsbD (15 - j)

theorem presentValues_length (i : Nat) (p : BitVec 16) : (presentValues i p).length = (presentBits p).length :=
  List.length_map _

theorem presentValues_getElem? {i j : Nat} {p : BitVec 16} (hj : j < (presentBits p).length) :
    (presentValues i p)[j]? = some (BitVec.ofNat 8 (16 * i + (presentBits p).getD j 0)) := by
  rw [List.getD_eq_getElem _ _ hj]
  exact (List.getElem?_map ..).trans (congrArg (Option.map _) (List.getElem?_eq_getElem hj))

/-- MAP_PRESENT appends the values of its one-bits and goes on behind its range (R245). -/
theorem execMapPresent_appends (p : BitVec 16) {s : State} (hrange : s.rangeIdx ≤ 15)
    (hn : s.numInUse ≤ 16 * s.rangeIdx) :
    ∃ m : Memory Byte,
      (∀ k, Memory.lookup m k =
        if s.numInUse ≤ k ∧ k < s.numInUse + (presentBits p).length then
          some (BitVec.ofNat 8 (16 * s.rangeIdx + (presentBits p).getD (k - s.numInUse) 0))
        else Memory.lookup s.symMap k)
      ∧ execMapPresent p s = .next (continueMap (s.rangeIdx + 1)
          { s with numInUse := s.numInUse + (presentBits p).length, symMap := m }) := by
  have hfit := presentValues_length_le s.rangeIdx p
  obtain ⟨m, hm⟩ := appendSymbols_ok (vs := presentValues s.rangeIdx p) (n := s.numInUse) s.symMap (by omega)
  obtain ⟨-, -, hlook, -⟩ := appendSymbols_eq_ok hm
  rw [presentValues_length] at hm hlook
  refine ⟨m, fun k => (hlook k).trans ?_, by rw [execMapPresent, hm]; rfl⟩
  split
  · next hk => exact presentValues_getElem? (by omega)
  · rfl

/-! ## The statements -/

/-- Settles O30: the first one-bit of the map is its first used range, and an all-zero map has none. -/
theorem mapUsed : Obligations.MapUsed := by
  refine ⟨mapUsed_field.1, mapUsed_field.2, fun m s => ⟨fun k hk hbit hfirst => ?_, ?_⟩⟩
  · have hnext : nextUsedRange m 0 = some k :=
      nextUsedRange_eq_some (Nat.zero_le k) hk hbit fun j _ hj => hfirst j hj
    exact congrArg _ (continueMap_next_range (s := { s with usedMap := m, numInUse := 0 }) hnext)
  · rintro rfl
    have hnext : nextUsedRange 0#16 0 = none := by decide
    exact congrArg _ (continueMap_empty (s := { s with usedMap := 0#16, numInUse := 0 }) hnext rfl)

/-- Settles O31: the appended map by `execMapPresent_appends`, then the three ways on of `continueMap`. -/
theorem mapPresent : Obligations.MapPresent := by
  refine ⟨mapPresent_field.1, mapPresent_field.2, fun p s hrange hn => ?_⟩
  obtain ⟨m, hlook, hexec⟩ := execMapPresent_appends p hrange hn
  refine ⟨m, presentBits p, rfl, hlook, fun k hlt hk hbit hfirst => ?_, fun hclear hpos => ?_,
    fun hclear hzero => ?_⟩
  · exact hexec.trans (congrArg _ (continueMap_next_range (nextUsedRange_eq_some hlt hk hbit hfirst)))
  · exact hexec.trans (congrArg _ (continueMap_complete (nextUsedRange_eq_none hclear) hpos))
  · rw [hzero] at hexec
    exact hexec.trans (congrArg _ (continueMap_empty (nextUsedRange_eq_none hclear) rfl))

end Sys2Proof.Machine
end

section
/-! The selectors (spec/44_block_header.md R250): the bounded unary code and the promotion on `selFL`. -/

namespace Sys2Proof.Machine

/-! ## The unary code -/

theorem decodeUnary_ones {numTables j : Nat} (hj : j < numTables ∨ j = 0) :
    decodeUnary numTables 0 (List.replicate j true) = .more 1 := by
  rcases hj with hj | rfl
  · exact decodeUnary_partway 0 (by omega) rfl (List.cons_ne_nil false [])
  · rfl

theorem decodeUnary_ones_zero {numTables j : Nat} (hj : j < numTables ∨ j = 0) :
    decodeUnary numTables 0 (List.replicate j true ++ [false]) = .instr (.selMtf j) := by
  rcases hj with hj | rfl
  · rw [decodeUnary_whole 0 (by omega), Nat.zero_add]
  · rfl

/-- The one-bit that reaches the bound is rejected as soon as it has been read. -/
theorem decodeUnary_bound (seen j : Nat) :
    decodeUnary (seen + (j + 1)) seen (List.replicate (j + 1) true) = .reject .selMtf := by
  induction j generalizing seen with
  | zero => exact if_pos (le_refl (seen + 1))
  | succ j ih =>
    rw [List.replicate_succ, decodeUnary, if_neg (by omega), show seen + (j + 1 + 1) = seen + 1 + (j + 1) by omega]
    exact ih (seen + 1)

/-! ## The step at a selector -/

section
variable {s : State} {j : Nat} (h : AtElement .selMtf s)
include h

theorem AtElement.ctxOf_selMtf : ctxOf s = .ok (some (.selMtf s.numTables)) := by
  simp only [ctxOf, h.2.2]

theorem AtElement.step_selMtf_more (hl : s.latch = List.replicate j true) (hj : j < s.numTables ∨ j = 0) :
    step s = readStep 1 s :=
  h.step_readStep h.ctxOf_selMtf (hl ▸ decodeUnary_ones hj) (by decide)

theorem AtElement.step_selMtf_whole (hl : s.latch = List.replicate j true ++ [false])
    (hj : j < s.numTables ∨ j = 0) : step s = exec (.selMtf j) s :=
  h.step_exec h.ctxOf_selMtf (hl ▸ decodeUnary_ones_zero hj)

theorem AtElement.step_selMtf_bound (hl : s.latch = List.replicate s.numTables true) (hn : 0 < s.numTables) :
    step s = .next (raise .corruptBlock 3#4 s) := by
  have hbound := decodeUnary_bound 0 (s.numTables - 1)
  rw [Nat.zero_add, Nat.sub_add_cancel hn, ← hl] at hbound
  exact h.step_selMtf_error h.ctxOf_selMtf hbound

end

/-! ## The element -/

/-- `s` with the value `v` at index `j` of `selFL` promoted and written as the next selector (R250). -/
def withSelector (j : Nat) (v : Byte) (s : State) : State :=
  { s with
    selFL := v :: (s.selFL.take j ++ s.selFL.drop (j + 1))
    selectors := Memory.insert s.selectors s.selIdx v.toNat, selIdx := s.selIdx + 1 }

/-- SEL_MTF j with a value to promote and a selector to write: the next selector, or the first table. -/
theorem execSelMtf_promotes {s : State} {j : Nat} {v : Byte} (hj : j < 256) (hv : s.selFL[j]? = some v)
    (hg : s.selIdx < Config.maxSelectors) :
    execSelMtf j s =
      if s.selIdx + 1 < s.numSelectors then .next (advance .selMtf (withSelector j v s))
      else .next (advance .clStart { withSelector j v s with tableIdx := 0 }) := by
  have hpromote := promoteByIndex_eq_ok (nm := .selFL).mpr ⟨hj, hv, rfl⟩
  have hwrite := memWrite_eq_ok (nm := .selectors) (m := s.selectors) (v := v.toNat).mpr ⟨hg, rfl⟩
  rw [execSelMtf, hpromote, attempt_ok, hwrite, attempt_ok]
  rfl

/-- Settles O33: the unary code's three answers at the step, and the element's two ways on. -/
theorem selectorElement : Obligations.SelectorElement := by
  refine ⟨fun s h => ⟨fun j hl hj => h.step_selMtf_more hl hj, fun j hl hj => h.step_selMtf_whole hl hj,
    h.step_selMtf_bound⟩, fun j v s hj hv hg => ?_⟩
  refine (execSelMtf_promotes hj hv hg).trans ?_
  by_cases hnext : s.selIdx + 1 < s.numSelectors
  · refine (if_pos hnext).trans ?_
    simp only [if_pos hnext]
    rfl
  · refine (if_neg hnext).trans ?_
    simp only [if_neg hnext]
    rfl

end Sys2Proof.Machine
end

section
/-! The code lengths and the tables built from them (spec/44_block_header.md R251 to R256). -/

namespace Sys2Proof.Machine

/-! ## The running length -/

theorem AtElement.ctxOf_cld {s : State} (h : AtElement .cld s) : ctxOf s = .ok (some .cld) := by
  simp only [ctxOf, h.2.2]

/-- Settles O34: CL_START's field, the four answers of the CLD code, and the three moves of the running length. -/
theorem runningLength : Obligations.RunningLength := by
  refine ⟨clStart_field.1, clStart_field.2, fun s h => ⟨?_, fun hl => ?_, fun hl => ?_, fun hl => ?_⟩,
    fun _ _ => ⟨rfl, rfl, rfl⟩⟩
  · rintro (hl | hl) <;> exact h.step_readStep h.ctxOf_cld (by rw [hl]; rfl) (by decide)
  · exact h.step_exec h.ctxOf_cld (by rw [hl]; rfl)
  · exact h.step_exec h.ctxOf_cld (by rw [hl]; rfl)
  · exact h.step_exec h.ctxOf_cld (by rw [hl]; rfl)

/-! ## Recording a length -/

theorem execClDone_illegal {s : State} (h : s.curLen < 1 ∨ 23 < s.curLen) :
    execClDone s = .next (raiseCorrupt Config.detailCodeLen s) :=
  if_pos h

/-- `s` with the running length recorded for its symbol (R255). -/
def withLength (s : State) : State :=
  { s with codeLen := Memory.insert s.codeLen (codeLenKey s.tableIdx s.symIdx) s.curLen.toNat }

theorem execClDone_records {s : State} (hlen : 1 ≤ s.curLen ∧ s.curLen ≤ 23)
    (ht : s.tableIdx < Config.maxTables) (hsym : s.symIdx < Config.maxSymbols) :
    execClDone s = continueLens (withLength s) := by
  have hlegal : ¬ (s.curLen < 1 ∨ ((Config.maxCodeLen : Nat) : Int) < s.curLen) :=
    not_or.mpr ⟨not_lt.mpr hlen.1, not_lt.mpr hlen.2⟩
  rw [execClDone, if_neg hlegal, codeLenWrite_eq_ok.mpr ⟨ht, hsym, rfl⟩, attempt_ok]
  rfl

/-- A length recorded behind `lens` joins them, and none of them is lost (R255). -/
theorem codeLen_append {m : Memory Nat} {t l : Nat} {lens : List Nat}
    (h : ∀ k l', lens[k]? = some l' → Memory.lookup m (codeLenKey t k) = some l') (k l' : Nat)
    (hk : (lens ++ [l])[k]? = some l') :
    Memory.lookup (Memory.insert m (codeLenKey t lens.length) l) (codeLenKey t k) = some l' := by
  rw [Memory.lookup_insert]
  by_cases hlt : k < lens.length
  · rw [List.getElem?_append_left hlt] at hk
    rw [if_neg (by simp only [codeLenKey]; omega)]
    exact h k l' hk
  · have hend : k < (lens ++ [l]).length := (List.getElem?_eq_some_iff.mp hk).1
    rw [List.length_append, List.length_singleton] at hend
    obtain rfl : k = lens.length := by omega
    rw [if_pos rfl]
    exact List.getElem?_concat_length.symm.trans hk

/-! ## The table's construction -/

/-- A table whose alphabet's lengths `lens` are all recorded is built from them (R256). -/
theorem buildStep_of_lens {s : State} {t : Nat} {lens : List Nat} (ht : t < Config.maxTables)
    (hlen : lens.length = s.eob + 1) (heob : s.eob < Config.maxSymbols)
    (h : ∀ k l, lens[k]? = some l → Memory.lookup s.codeLen (codeLenKey t k) = some l) :
    buildStep t s = .ok { s with tables := Memory.insert s.tables t (buildTable lens) } := by
  have hread : codeLens s t = .ok lens := by
    rw [codeLens, alphabetSize, ← hlen]
    exact codeLensFrom_ok lens 0 ht (by omega) (fun k l hk => by rw [Nat.zero_add]; exact h k l hk)
  have hwrite := memWrite_eq_ok (nm := .tables) (m := s.tables) (v := buildTable lens).mpr ⟨ht, rfl⟩
  simp only [buildStep, hread, hwrite]

theorem continueLens_next_symbol {s : State} (h : s.symIdx < s.eob) :
    continueLens s = .next (advance .cld { s with symIdx := s.symIdx + 1 }) :=
  if_pos h

theorem continueLens_last_symbol {s t : State} (h : s.symIdx = s.eob) (hb : buildStep s.tableIdx s = .ok t) :
    continueLens s =
      if s.tableIdx + 1 < s.numTables then .next (advance .clStart { t with tableIdx := s.tableIdx + 1 })
      else .next (advance .select { t with tableIdx := s.tableIdx + 1, bphase := .symbols }) := by
  rw [continueLens, if_neg (by omega), hb, attempt_ok]

/-- Settles O35: an illegal length, a length before the alphabet's last, and the last one with the table built
from all of them. -/
theorem lengthRecorded : Obligations.LengthRecorded := by
  refine fun s => ⟨execClDone_illegal, fun h1 h23 ht hsym heob => ?_⟩
  have heob' : s.eob < Config.maxSymbols := lt_of_le_of_lt heob (by decide)
  have hrecords := execClDone_records ⟨h1, h23⟩ ht (lt_of_le_of_lt hsym heob')
  refine ⟨fun hlt => hrecords.trans (continueLens_next_symbol (s := withLength s) hlt),
    fun lens hlast hlen hrec => hrecords.trans ?_⟩
  have hall := codeLen_append (l := s.curLen.toNat) hrec
  rw [hlen, ← hlast] at hall
  have hbuild := buildStep_of_lens (s := withLength s) ht
    (List.length_append.trans (congrArg (· + 1) hlen)) heob' hall
  refine (continueLens_last_symbol (s := withLength s) hlast hbuild).trans ?_
  by_cases hnext : s.tableIdx + 1 < s.numTables
  · refine (if_pos hnext).trans ?_
    simp only [if_pos hnext]
    rfl
  · refine (if_neg hnext).trans ?_
    simp only [if_neg hnext]
    rfl

end Sys2Proof.Machine
end

section
/-! The payload symbols (spec/45_symbol_decode.md R281 to R287): the run escapes, the flush of a pending run, the
literal and the end of the block's symbols, and the histogram that counts the block. -/

namespace Sys2Proof.Machine

/-! ## The run escapes -/

theorem escape_fits {w : Nat} {s : State} (h : s.bwtLen + (s.runLen + w * s.runInc) ≤ blockSize s) :
    escape w s = advance .select { s with runLen := s.runLen + w * s.runInc, runInc := s.runInc * 2 } :=
  if_neg (Nat.not_lt.mpr h)

theorem escape_full {w : Nat} {s : State} (h : blockSize s < s.bwtLen + (s.runLen + w * s.runInc)) :
    escape w s = raiseCorrupt Config.detailCapacity
      { s with runLen := s.runLen + w * s.runInc, runInc := s.runInc * 2 } :=
  if_pos h

/-- Settles O36: an escape of weight 1 and one of weight 2, each on both sides of the capacity test. -/
theorem runEscapes : Obligations.RunEscapes := by
  intro s
  have hfits := escape_fits (w := 1) (s := countSymbol s)
  have hfull := escape_full (w := 1) (s := countSymbol s)
  rw [Nat.one_mul] at hfits hfull
  exact ⟨fun h => congrArg _ (hfits h), fun h => congrArg _ (hfull h),
    fun h => congrArg _ (escape_fits (w := 2) (s := countSymbol s) h),
    fun h => congrArg _ (escape_full (w := 2) (s := countSymbol s) h)⟩

/-! ## The run flush -/

theorem symMapAt_byte {s : State} {k v : Byte} (hk : k.toNat < s.numInUse)
    (hv : Memory.lookup s.symMap k.toNat = some v) : symMapAt s k.toNat = .ok v :=
  memRead_eq_ok.mpr ⟨k.isLt, hk, hv⟩

theorem flushRun_no_run {s : State} (h : s.runLen = 0) : flushRun s = .ok s := if_pos h

theorem flushRun_run {s : State} {v : Byte} {m : Memory Byte} (hr : s.runLen ≠ 0)
    (hv : symMapAt s s.lastMtf.toNat = .ok v) (hm : writeRun v s.runLen s.bwtLen s.bwtBlock = .ok m) :
    flushRun s = .ok { s with
      bwtBlock := m, bwtLen := s.bwtLen + s.runLen
      hist := histAdd s.hist v.toNat s.runLen, runLen := 0, runInc := 1 } := by
  simp only [flushRun, if_neg hr, hv, hm, histCount_byte]

theorem flushed_no_run {s : State} (h : s.runLen = 0) : flushed s s.bwtBlock s.hist = s :=
  calc flushed s s.bwtBlock s.hist = { s with runLen := 0 } := by rw [flushed, if_pos h, h, Nat.add_zero]
    _ = s := congrArg (fun n => { s with runLen := n }) h.symm

theorem afterFlush_no_run {s : State} (h : s.runLen = 0) : AfterFlush s s.bwtBlock s.hist := by
  refine ⟨fun k => (if_neg (by omega)).symm, fun v => ?_, fun _ _ => rfl⟩
  rw [h, ite_self, Nat.add_zero]

/-- A written run leaves its copies in the block and its count in the histogram. -/
theorem afterFlush_run {s : State} {v : Byte} {m : Memory Byte}
    (hv : Memory.lookup s.symMap s.lastMtf.toNat = some v)
    (hm : writeRun v s.runLen s.bwtLen s.bwtBlock = .ok m) :
    AfterFlush s m (histAdd s.hist v.toNat s.runLen) := by
  refine ⟨fun k => ?_, fun u => ?_, fun u hu => ?_⟩
  · rw [hv]
    exact (writeRun_eq_ok hm).2.1 k
  · simp only [histAt_histAdd_byte, hv, Option.some.injEq]
  · have hvu : v.toNat < 256 := v.isLt
    exact histAt_histAdd_ne _ _ (by omega)

/-- A run that is ready is flushed (R283). -/
theorem FlushReady.flushRun_eq {s : State} (hs : FlushReady s) :
    ∃ (m : Memory Byte) (h : Memory Nat), AfterFlush s m h ∧ flushRun s = .ok (flushed s m h) := by
  obtain ⟨-, hfit, hbyte⟩ := hs
  by_cases hr : s.runLen = 0
  · refine ⟨s.bwtBlock, s.hist, afterFlush_no_run hr, ?_⟩
    rw [flushed_no_run hr]
    exact flushRun_no_run hr
  · obtain ⟨hlast, v, hv⟩ := hbyte.resolve_left hr
    obtain ⟨m, hm⟩ := writeRun_ok (v := v) s.bwtBlock hfit
    refine ⟨m, _, afterFlush_run hv hm, ?_⟩
    rw [flushed, if_neg hr]
    exact flushRun_run hr (symMapAt_byte hlast hv) hm

/-- The symbol counter takes no part in the flush. -/
theorem flushRun_countSymbol {s t : State} (h : flushRun s = .ok t) :
    flushRun (countSymbol s) = .ok (countSymbol t) := by
  obtain ⟨hr, rfl⟩ | ⟨v, m, hr, hlast, hv, hm, rfl⟩ := flushRun_eq_ok h
  · exact flushRun_no_run hr
  · exact flushRun_run (s := countSymbol s) hr (symMapAt_byte hlast hv) hm

/-- Settles O38: the flush of a ready run, and the same flush behind EOB's count of itself. -/
theorem runFlushAndEob : Obligations.RunFlushAndEob := by
  refine fun s hs => ⟨flushRun_no_run, ?_⟩
  obtain ⟨m, h, hafter, hflush⟩ := hs.flushRun_eq
  refine ⟨m, h, hafter, hflush, ?_⟩
  show execEob s = _
  rw [execEob, flushRun_countSymbol hflush]
  rfl

/-! ## The literal -/

theorem literal_full {k : Nat} {s : State} (h : blockSize s ≤ s.bwtLen) :
    literal k s = .next (raiseCorrupt Config.detailCapacity s) :=
  if_pos h

/-- The byte of MTF rank `k` joins a block with room for it (R284). -/
theorem literal_appends {k : Nat} {s : State} {r v : Byte} (hroom : s.bwtLen < blockSize s)
    (hmax : s.bwtLen < Config.maxBlock) (hk : k < 256) (hr : s.mtfFL[k]? = some r)
    (hn : r.toNat < s.numInUse) (hv : Memory.lookup s.symMap r.toNat = some v) :
    literal k s = .next (advance .select { s with
      mtfFL := r :: (s.mtfFL.take k ++ s.mtfFL.drop (k + 1)), lastMtf := r
      bwtBlock := Memory.insert s.bwtBlock s.bwtLen v, bwtLen := s.bwtLen + 1
      hist := histAdd s.hist v.toNat 1 }) := by
  have hpromote := promoteByIndex_eq_ok (nm := .mtfFL).mpr ⟨hk, hr, rfl⟩
  have hwrite := memWrite_eq_ok (nm := .bwtBlock) (m := s.bwtBlock) (v := v).mpr ⟨hmax, rfl⟩
  rw [literal, if_neg (Nat.not_le.mpr hroom), hpromote, attempt_ok, symMapAt_byte hn hv, attempt_ok, hwrite,
    attempt_ok, histCount_byte, attempt_ok]

theorem histAt_histAdd (h : Memory Nat) (v n u : Nat) :
    histAt (histAdd h v n) u = histAt h u + if u = v then n else 0 := by
  by_cases huv : u = v
  · rw [if_pos huv, huv, histAt_histAdd_self]
  · rw [if_neg huv, histAt_histAdd_ne h n huv, Nat.add_zero]

/-- Settles O37: the flush of the pending run, then the literal of a full block and of one with room. -/
theorem mtfvLiteral : Obligations.MtfvLiteral := by
  intro s sym hs
  obtain ⟨m, h, hafter, hflush⟩ := hs.flushRun_eq
  have hexec : exec (.mtfv sym) s = literal (sym - 1) (countSymbol (flushed s m h)) := by
    show execMtfv sym s = _
    rw [execMtfv, flushRun_countSymbol hflush, attempt_ok]
  refine ⟨m, h, hafter, fun hfull => hexec.trans (literal_full hfull), ?_⟩
  intro r v hroom hmax hk hr hn hv
  have happend := literal_appends (s := countSymbol (flushed s m h)) hroom hmax hk hr hn hv
  exact ⟨histAdd h v.toNat 1, histAt_histAdd h v.toNat 1, hexec.trans happend⟩

/-! ## The histogram -/

theorem State.HistogramOk.sum_eq_bwtLen {s : State} (h : s.HistogramOk) :
    ((List.range 256).map (histAt s.hist)).sum = s.bwtLen :=
  (h.sum_eq_smallerBytes le_rfl).trans (smallerBytes_all h.written)

/-- Settles O39: the core's moves keep the counts, reset empties block and counts, and no event touches them. -/
theorem stepKeepsHistogram : Obligations.StepKeepsHistogram := by
  intro s t hs hx
  have ht : t.HistogramOk := step_keeps (fun _ _ h hm => hm.histogramOk h)
    (fun _ => (resetCore_inv _).histogram) (fun _ _ h _ => { h with }) (fun _ _ _ _ _ h => { h with }) hs hx
  exact ⟨ht, ht.sum_eq_bwtLen⟩

end Sys2Proof.Machine
end

section
/-! The inverse transform (spec/46_bwt.md R300 to R304): the counting sort's places are distinct and ordered by
byte, so each merged pointer stays where the build writes it, and the pointers permute the block. -/

namespace Sys2Proof.Machine

/-! ## Merged pointers -/

/-- A merged pointer as a number (R303). -/
theorem mergedPointer_eq (i : Nat) (v : Byte) : mergedPointer i v = BitVec.ofNat 32 (256 * i + v.toNat) := by
  rw [mergedPointer, shifted_in]
  apply BitVec.eq_of_toNat_eq
  simp only [BitVec.toNat_ofNat]
  omega

/-- The byte in a merged pointer (R303). -/
theorem mergedPointer_byte (i : Nat) (v : Byte) : (mergedPointer i v).toNat % 256 = v.toNat := by
  have hv := v.isLt
  rw [mergedPointer_eq, BitVec.toNat_ofNat]
  omega

/-! ## The order of the places -/

/-- A smaller byte's place comes first (R302). -/
theorem sortedIndex_lt_of_byte_lt {m : Memory Byte} {n i : Nat} {v u : Byte} (hi : i < n)
    (hv : Memory.lookup m i = some v) (hvu : v.toNat < u.toNat) (k : Nat) :
    sortedIndex m n i v < sortedIndex m n k u := by
  have hocc : occurrences m i v + 1 ≤ occurrences m n v := by
    have := occurrences_mono m v (Nat.succ_le_of_lt hi)
    rwa [occurrences_succ, if_pos hv] at this
  calc sortedIndex m n i v = smallerBytes m n v.toNat + occurrences m i v := sortedIndex_eq m n i v
    _ < smallerBytes m n (v.toNat + 1) := by rw [smallerBytes_succ]; omega
    _ ≤ smallerBytes m n u.toNat := smallerBytes_mono m n hvu
    _ ≤ sortedIndex m n k u := by rw [sortedIndex_eq]; exact Nat.le_add_right _ _

/-- Of two equal bytes, the earlier one's place comes first (R303). -/
theorem sortedIndex_lt_of_position_lt {m : Memory Byte} {i k : Nat} {v : Byte} (hik : i < k)
    (hv : Memory.lookup m i = some v) (n : Nat) : sortedIndex m n i v < sortedIndex m n k v := by
  have hocc := occurrences_mono m v (Nat.succ_le_of_lt hik)
  rw [occurrences_succ, if_pos hv] at hocc
  rw [sortedIndex_eq, sortedIndex_eq]
  omega

/-- No two positions share a place. -/
theorem sortedIndex_ne {m : Memory Byte} {n i k : Nat} {v u : Byte} (hik : i < k) (hk : k < n)
    (hv : Memory.lookup m i = some v) (hu : Memory.lookup m k = some u) :
    sortedIndex m n k u ≠ sortedIndex m n i v := by
  rcases Nat.lt_trichotomy v.toNat u.toNat with hlt | heq | hgt
  · exact (sortedIndex_lt_of_byte_lt (hik.trans hk) hv hlt k).ne'
  · obtain rfl := BitVec.eq_of_toNat_eq heq
    exact (sortedIndex_lt_of_position_lt hik hv n).ne'
  · exact (sortedIndex_lt_of_byte_lt hk hu hgt i).ne

/-! ## What the build writes -/

/-- `bkt` holds the place of each byte value's next occurrence from position `i` on (R302, R303). -/
def NextPlaces (block : Memory Byte) (len i : Nat) (bkt : List Nat) : Prop :=
  ∀ v : Byte, bkt[v.toNat]? = some (sortedIndex block len i v)

theorem NextPlaces.getD {block : Memory Byte} {len i : Nat} {bkt : List Nat} (h : NextPlaces block len i bkt)
    (v : Byte) : bkt.getD v.toNat 0 = sortedIndex block len i v := by
  rw [List.getD_eq_getElem?_getD, h v, Option.getD_some]

/-- Counting the byte at position `i` moves the places on. -/
theorem NextPlaces.succ {block : Memory Byte} {len i : Nat} {bkt : List Nat} {v : Byte}
    (h : NextPlaces block len i bkt) (hv : Memory.lookup block i = some v) :
    NextPlaces block len (i + 1) (bkt.set v.toNat (sortedIndex block len i v + 1)) := by
  intro u
  have hplace : sortedIndex block len (i + 1) u = sortedIndex block len i u + if v = u then 1 else 0 := by
    rw [sortedIndex_eq, sortedIndex_eq, occurrences_succ, hv, Nat.add_assoc]
    simp only [Option.some.injEq]
  rw [hplace]
  by_cases hvu : v = u
  · subst hvu
    rw [if_pos rfl, List.getElem?_set_self (List.getElem?_eq_some_iff.mp (h v)).1]
  · rw [if_neg hvu, List.getElem?_set_ne (mt BitVec.eq_of_toNat_eq hvu)]
    exact h u

/-- The bucket starts of a counted block are the places of the first occurrences (R302). -/
theorem State.HistogramOk.nextPlaces {s : State} (h : s.HistogramOk) {bkt : List Nat}
    (hb : bucketStarts s.hist = .ok bkt) : NextPlaces s.bwtBlock s.bwtLen 0 bkt := by
  obtain ⟨bkt', hb', -, hstart⟩ := bucketStarts_ok s.hist
  obtain rfl : bkt = bkt' := Except.ok.inj (hb.symm.trans hb')
  intro v
  have hv : v.toNat < 256 := v.isLt
  rw [hstart _ hv, h.sum_eq_smallerBytes hv.le, sortedIndex_eq]
  rfl

/-- One turn of the build's loop (R303). -/
theorem buildMpFrom_succ_eq_ok {block : Memory Byte} {len n i : Nat} {bkt : List Nat} {m m' : Memory Word}
    (hb : NextPlaces block len i bkt) (h : buildMpFrom block len (n + 1) i bkt m = .ok m') :
    ∃ v, Memory.lookup block i = some v
      ∧ buildMpFrom block len n (i + 1) (bkt.set v.toNat (sortedIndex block len i v + 1))
          (Memory.insert m (sortedIndex block len i v) (mergedPointer i v)) = .ok m' := by
  unfold buildMpFrom at h
  split at h
  · cases h
  · next v hread =>
    rw [hb.getD v] at h
    split at h
    · cases h
    · next hwrite =>
      obtain ⟨-, rfl⟩ := memWrite_eq_ok.mp hwrite
      exact ⟨v, (memRead_eq_ok.mp hread).2.2, h⟩

/-- The build from position `i` on leaves in `m'` each position's pointer at its place, and all else as in `m`. -/
structure PlacedFrom (block : Memory Byte) (len i : Nat) (m m' : Memory Word) : Prop where
  placed : ∀ k v, i ≤ k → k < len → Memory.lookup block k = some v →
    Memory.lookup m' (sortedIndex block len k v) = some (mergedPointer k v)
  other : ∀ j, (∀ k v, i ≤ k → k < len → Memory.lookup block k = some v → sortedIndex block len k v ≠ j) →
    Memory.lookup m' j = Memory.lookup m j

/-- The pointer written at `i` is one more placed: no later position takes its place. -/
theorem PlacedFrom.cons {block : Memory Byte} {len i : Nat} {v : Byte} {m m' : Memory Word}
    (hi : i < len) (hv : Memory.lookup block i = some v)
    (h : PlacedFrom block len (i + 1) (Memory.insert m (sortedIndex block len i v) (mergedPointer i v)) m') :
    PlacedFrom block len i m m' := by
  refine ⟨fun k u hik hk hu => ?_, fun j hj => ?_⟩
  · rcases hik.eq_or_lt with rfl | hlt
    · obtain rfl : v = u := Option.some.inj (hv.symm.trans hu)
      rw [h.other _ fun k' u' hk' hlen hu' => sortedIndex_ne hk' hlen hv hu', Memory.lookup_insert_self]
    · exact h.placed k u hlt hk hu
  · rw [h.other j fun k u hk => hj k u (Nat.le_of_succ_le hk),
      Memory.lookup_insert_ne _ _ (hj i v le_rfl hi hv).symm]

theorem buildMpFrom_placedFrom {block : Memory Byte} {len n i : Nat} {bkt : List Nat} {m m' : Memory Word}
    (hi : i + n = len) (hb : NextPlaces block len i bkt) (h : buildMpFrom block len n i bkt m = .ok m') :
    PlacedFrom block len i m m' := by
  induction n generalizing i bkt m with
  | zero =>
    cases h
    exact ⟨fun k _ hik hk => absurd hk (by omega), fun _ _ => rfl⟩
  | succ n ih =>
    obtain ⟨v, hv, hrest⟩ := buildMpFrom_succ_eq_ok hb h
    exact .cons (by omega) hv (ih (by omega) (hb.succ hv) hrest)

theorem buildMp_placedFrom {s : State} (h : s.HistogramOk) {m : Memory Word} (hm : buildMp s = .ok m) :
    PlacedFrom s.bwtBlock s.bwtLen 0 s.mp m := by
  unfold buildMp at hm
  split at hm
  · cases hm
  · next hb => exact buildMpFrom_placedFrom (Nat.zero_add _) (h.nextPlaces hb) hm

/-! ## BWT_INVERT -/

theorem AtElement.step_invert {s : State} (h : AtElement .invert s) : step s = invertStep s := by
  have hslot : s.slot = .invert := h.2.2
  rw [step_stageStep h (by simp only [ctxOf, hslot]), stageStep, hslot]

theorem invertStep_builds {s : State} {m : Memory Word} {c : Word} (hlen : s.bwtLen ≤ Config.maxBlock)
    (ho : s.origPtr.toNat < s.bwtLen) (hm : buildMp s = .ok m)
    (hc : Memory.lookup m s.origPtr.toNat = some c) :
    invertStep s =
      .next (advance .rle { s with mp := m, cursor := c, bwtDone := 0, bphase := .streaming }) := by
  have hread : mpAt { s with mp := m } s.origPtr.toNat = .ok c :=
    memRead_eq_ok.mpr ⟨lt_of_lt_of_le ho hlen, ho, hc⟩
  rw [invertStep, if_neg (Nat.not_le.mpr ho), hm, attempt_ok, hread, attempt_ok]

/-- Settles O40: the start pointer outside the block, and the build, whose pointers stay where it places them. -/
theorem bwtInvert : Obligations.BwtInvert := by
  refine ⟨fun s hs ho => hs.step_invert.trans (if_pos ho), fun s hs hh hlen ho => ?_⟩
  obtain ⟨m, hm, hpts⟩ := buildMp_ok hh hlen
  obtain ⟨c, hc, -⟩ := hpts _ ho
  have hplaced := buildMp_placedFrom hh hm
  refine ⟨m, c, fun i v hi hv => ?_, fun k hk => ?_, hc, hs.step_invert.trans (invertStep_builds hlen ho hm hc)⟩
  · rw [← mergedPointer_eq]
    exact hplaced.placed i v i.zero_le hi hv
  · exact hplaced.other k fun i v _ hi hv => ((sortedIndex_lt hh.written hi hv).trans_le hk).ne

/-- Settles O41: a position's pointer stands at its place, each place is some position's, and the places are in
the order of the bytes. -/
theorem pointersPermute : Obligations.PointersPermute := by
  intro s t hs hh hlen ho hstep
  obtain ⟨m, c, hplace, -, -, hnext⟩ := bwtInvert.2 s hs hh hlen ho
  obtain rfl := Host.Outcome.next.inj (hstep.symm.trans hnext)
  simp only [← mergedPointer_eq] at hplace
  have hpos : ∀ {i} (v : Byte), i < s.bwtLen → (mergedPointer i v >>> 8).toNat = i :=
    fun v hi => mergedPointer_position v (by omega)
  refine ⟨fun i hi => ?_, fun j hj => ?_, fun j w w' hj hw hw' => ?_⟩
  · obtain ⟨v, hv⟩ := hh.written i hi
    exact ⟨_, _, sortedIndex_lt hh.written hi hv, hplace i v hi hv, hpos v hi⟩
  · obtain ⟨i, v, hi, hv, rfl⟩ := exists_sortedIndex hh.written hj
    refine ⟨_, hplace i v hi hv, ?_⟩
    rw [hpos v hi, mergedPointer_byte, BitVec.ofNat_toNat, BitVec.setWidth_eq]
    exact ⟨hi, hv⟩
  · obtain ⟨i, v, hi, hv, rfl⟩ := exists_sortedIndex hh.written (Nat.lt_of_succ_lt hj)
    obtain ⟨k, u, hk, hu, hku⟩ := exists_sortedIndex hh.written hj
    rw [← hku] at hw'
    obtain rfl := Option.some.inj ((hplace i v hi hv).symm.trans hw)
    obtain rfl := Option.some.inj ((hplace k u hk hu).symm.trans hw')
    rw [mergedPointer_byte, mergedPointer_byte]
    by_contra hgt
    have := sortedIndex_lt_of_byte_lt hk hu (Nat.lt_of_not_le hgt) i
    omega

end Sys2Proof.Machine
end

section
/-! The pointer walk and derandomisation (spec/46_bwt.md R305 to R307). -/

namespace Sys2Proof.Machine

/-! ## The walk -/

theorem nextBWT_end {s : State} (h : s.bwtDone = s.bwtLen) : nextBWT s = .ok (none, s) := if_pos h

theorem nextBWT_byte {s : State} {c : Word} (h : s.bwtDone ≠ s.bwtLen)
    (hc : mpAt s (s.cursor >>> 8).toNat = .ok c) :
    nextBWT s = .ok
      (some (derandomise (BitVec.setWidth 8 s.cursor) { s with cursor := c, bwtDone := s.bwtDone + 1 }).1,
        (derandomise (BitVec.setWidth 8 s.cursor) { s with cursor := c, bwtDone := s.bwtDone + 1 }).2) := by
  rw [nextBWT, if_neg h, hc]

/-- The cursor's low byte as a number (R305). -/
theorem setWidth_byte (w : Word) : BitVec.setWidth 8 w = BitVec.ofNat 8 (w.toNat % 256) := by
  apply BitVec.eq_of_toNat_eq
  rw [BitVec.toNat_setWidth, BitVec.toNat_ofNat]
  omega

/-- Settles O42: the end of the count, and a byte taken where the cursor points into the block. -/
theorem walkStep_spec : Obligations.WalkStep := by
  refine fun s => ⟨nextBWT_end, fun c hne hlen hlt hc => ?_⟩
  rw [← setWidth_byte]
  exact nextBWT_byte hne (memRead_eq_ok.mpr ⟨lt_of_lt_of_le hlt hlen, hlt, hc⟩)

/-! ## Derandomisation -/

theorem derandomise_unflagged {b : Byte} {s : State} (h : s.randFlag = false) : derandomise b s = (b, s) := by
  rw [derandomise, derandomiseWith, h]
  rfl

/-- A flagged block's byte, by the counter that the reload leaves (R306). -/
theorem derandomise_flagged {b : Byte} {s t : State} {n : Nat} (h : s.randFlag = true)
    (ht : reloadPeriod Config.rnums s = t) (hn : t.rNToGo = n + 1) :
    derandomise b s = (if n = 1 then b ^^^ 1#8 else b, { t with rNToGo := n }) := by
  simp only [derandomise, derandomiseWith, if_pos h, ht, hn, Nat.add_sub_cancel]

theorem reloadPeriod_running {table : List Nat} {s : State} (h : s.rNToGo ≠ 0) : reloadPeriod table s = s :=
  if_neg h

theorem reloadPeriod_expired {table : List Nat} {s : State} {r : Nat} (h : s.rNToGo = 0)
    (hr : table[s.rTPos.val]? = some r) :
    reloadPeriod table s = { s with rNToGo := r, rTPos := Fin.ofNat 512 (s.rTPos.val + 1) } := by
  rw [reloadPeriod, if_pos h, List.getD_eq_getElem?_getD, hr, Option.getD_some]
  rfl

/-! ## The period table -/

theorem rnums_length : Config.rnums.length = 512 := by
  simp only [Config.rnums, List.length_append]
  rfl

theorem rnums_sum : Config.rnums.sum = 278212 := by
  simp only [Config.rnums, List.sum_append]
  rfl

theorem le_rnums : ∀ r ∈ Config.rnums, 50 ≤ r := by
  simp only [Config.rnums, List.forall_mem_append]
  refine ⟨⟨⟨⟨⟨⟨⟨?_, ?_⟩, ?_⟩, ?_⟩, ?_⟩, ?_⟩, ?_⟩, ?_⟩ <;> decide

/-- Settles O43: an unflagged block, a flagged one with the counter running or expired, and the table. -/
theorem derandomise_spec : Obligations.Derandomise := by
  refine fun b s => ⟨derandomise_unflagged, fun n hf hn => ?_, fun n hf h0 hr => ?_,
    rnums_length, rnums_sum, fun r hr => ⟨le_rnums r hr, rnums_le r hr⟩⟩
  · exact derandomise_flagged hf (reloadPeriod_running (by omega)) hn
  · exact derandomise_flagged hf (reloadPeriod_expired h0 hr) rfl

end Sys2Proof.Machine
end

section
/-! How a core step moves the position and the error latch (spec/48_stream.md R351, R352; spec/60_exceptions.md
R371 to R378): it stays, it takes one of the transitions of the two tables, or it raises an error that belongs to
the position. -/

namespace Sys2Proof.Machine

/-! ## Position and error latch -/

/-- The stream-level and the block-level state (spec/10_state.md R21, R22). -/
def State.position (s : State) : Phase × BPhase := (s.phase, s.bphase)

/-- Kind, detail and block of the error (spec/10_state.md R29). -/
def State.errorLatch (s : State) : ErrKind × BitVec 4 × Word := (s.errKind, s.errDetail, s.errBlock)

/-- The transitions of R351 and R352, taken together, that a core step makes without an error. -/
def positionMoves : List ((Phase × BPhase) × (Phase × BPhase)) :=
  [((.header, .none), (.awaitBlock, .none)),
    ((.awaitBlock, .none), (.inBlock, .bheader)),
    ((.awaitBlock, .none), (.trailer, .none)),
    ((.trailer, .none), (.done, .none)),
    ((.inBlock, .bheader), (.inBlock, .tables)),
    ((.inBlock, .tables), (.inBlock, .symbols)),
    ((.inBlock, .symbols), (.inBlock, .bwtInvert)),
    ((.inBlock, .bwtInvert), (.inBlock, .streaming)),
    ((.inBlock, .streaming), (.awaitBlock, .none))]

theorem positionMoves_in_tables : ∀ m ∈ positionMoves,
    (m.2.1 = m.1.1 ∨ phaseMove m.1.1 m.2.1 = true) ∧ (m.2.2 = m.1.2 ∨ bphaseMove m.1.2 m.2.2 = true)
      ∧ m.2.1 ≠ .error := by decide

/-- The positions at which an error of a kind can be raised (spec/60_exceptions.md R374 to R378). -/
def raisedIn : ErrKind → Phase × BPhase → Prop
  | .none, _ => False
  | .truncatedInput, p => p.1 = .inBlock → p.2 = .bheader ∨ p.2 = .tables ∨ p.2 = .symbols
  | .invalidHeader, p => p.1 = .header
  | .corruptBlock, p => p.1 = .inBlock
  | .blockCRCMismatch, p => p = (.inBlock, .streaming)
  | .streamCRCMismatch, p => p.1 = .trailer
  | .streamFormatError, p => p.1 = .awaitBlock

/-- What a core step from `s` to `t` does to the position and the error latch: nothing; a transition of the
tables; or an error, with `bphase` left as it was but for the failing block check's EXHAUSTED. -/
inductive ControlMove (s t : State) : Prop
  | stay (hp : t.position = s.position) (hl : t.errorLatch = s.errorLatch)
  | go (p q : Phase × BPhase) (hs : s.position = p) (ht : t.position = q) (hm : (p, q) ∈ positionMoves)
      (hl : t.errorLatch = s.errorLatch)
  | raises (k : ErrKind) (d : BitVec 4) (u : State) (ht : t = raise k d u)
      (hc : errorCodeLegal k d = true) (hk : raisedIn k s.position)
      (hb : u.bphase = if k = .blockCRCMismatch then .exhausted else s.bphase)

theorem flushRun_control {s t : State} (h : flushRun s = .ok t) :
    t.position = s.position ∧ t.errorLatch = s.errorLatch := by
  rw [flushRun_frame h]
  exact ⟨rfl, rfl⟩

theorem nextBWT_control {s t : State} {b? : Option Byte} (h : nextBWT s = .ok (b?, t)) :
    t.position = s.position ∧ t.errorLatch = s.errorLatch := by
  rw [nextBWT_frame h]
  exact ⟨rfl, rfl⟩

/-! ## The moves -/

section
variable {s t : State} (hpos : s.position = slotPosition s.slot)
include hpos

/-- CorruptBlock is raised inside a block (spec/60_exceptions.md R376). -/
theorem ControlMove.corrupt {sl : Slot} {d : BitVec 4} {u : State} (h : s.slot = sl)
    (hin : (slotPosition sl).1 = .inBlock) (hc : errorCodeLegal .corruptBlock d = true)
    (hb : u.bphase = s.bphase) : ControlMove s (raiseCorrupt d u) := by
  rw [h] at hpos
  exact .raises .corruptBlock d u rfl hc (by rw [hpos]; exact hin) hb

theorem ElementMove.controlMove (hm : ElementMove s t) : ControlMove s t := by
  obtain ⟨hph, hbp⟩ := Prod.ext_iff.mp hpos
  cases hm with
  | badLevel h =>
    rw [h] at hpos
    exact .raises _ _ s rfl rfl (by rw [hpos]; rfl) rfl
  | badStreamCrc crc h =>
    rw [h] at hpos
    exact .raises _ _ _ rfl rfl (by rw [hpos]; rfl) rfl
  | emptyMap _ h | mapEmpty _ _ _ h _ | badTables _ h | badSelCount _ h | badCodeLen h | escapeFull _ h _
  | noCount _ h _ _ _ _ => exact .corrupt hpos h rfl rfl rfl
  | literalFull u h hf =>
    exact .corrupt hpos h rfl rfl (congrArg Prod.snd (flushRun_control hf).1)
  | hdrLevel _ h _ =>
    rw [h] at hpos hbp
    exact .go _ (.awaitBlock, .none) hpos (Prod.ext rfl hbp) (by decide) rfl
  | markEnd h =>
    rw [h] at hpos hbp
    exact .go _ (.trailer, .none) hpos (Prod.ext rfl hbp) (by decide) rfl
  | streamCrc _ h _ =>
    rw [h] at hpos hbp
    exact .go _ (.done, .none) hpos (Prod.ext rfl hbp) (by decide) rfl
  | markBlock h =>
    rw [h] at hpos
    exact .go _ (.inBlock, .bheader) hpos rfl (by decide) rfl
  | blkOrigPtr _ h =>
    rw [h] at hpos hph
    exact .go _ (.inBlock, .tables) hpos (Prod.ext hph rfl) (by decide) rfl
  | lastTable _ _ h _ _ _ _ _ _ =>
    rw [h] at hpos hph
    exact .go _ (.inBlock, .symbols) hpos (Prod.ext hph rfl) (by decide) rfl
  | eob u h hf =>
    rw [h] at hpos hph
    obtain ⟨hp, hl⟩ := flushRun_control hf
    exact .go _ (.inBlock, .bwtInvert) hpos (Prod.ext ((congrArg Prod.fst hp).trans hph) rfl) (by decide) hl
  | literal u _ _ _ _ _ _ _ _ _ hf _ _ _ _ _ => exact .stay (flushRun_control hf).1 (flushRun_control hf).2
  | rleRun _ _ u _ _ _ _ hn => exact .stay (nextBWT_control hn).1 (nextBWT_control hn).2
  | _ => exact .stay rfl rfl

theorem WalkMove.controlMove (h : s.slot = .rle) (hm : WalkMove s t) : ControlMove s t := by
  rw [h] at hpos
  cases hm with
  | badCrc _ _ => exact .raises _ _ _ rfl rfl hpos rfl
  | blockEnd _ _ _ => exact .go _ (.awaitBlock, .none) hpos rfl (by decide) rfl
  | byte _ u _ hn => exact .stay (nextBWT_control hn).1 (nextBWT_control hn).2
  | copyHold _ _ _ _ | copy _ _ _ _ => exact .stay rfl rfl

/-- The source is read outside the stages after the payload (spec/60_exceptions.md R374). -/
theorem FillMove.controlMove (hr : s.slot ≠ .rle ∧ s.slot ≠ .rleCount ∧ s.slot ≠ .invert) (hm : FillMove s t) :
    ControlMove s t := by
  have htrunc : raisedIn .truncatedInput s.position := by
    intro hin
    have hreads := slotPosition_reads hr
    rw [hpos] at hin ⊢
    simpa [hin] using hreads
  cases hm with
  | closed _ => exact .raises _ _ s rfl rfl htrunc rfl
  | eof _ _ _ => exact .raises _ _ _ rfl rfl htrunc rfl
  | hold _ _ | byte _ _ _ _ => exact .stay rfl rfl

theorem ControlMove.reject {k : ErrKind} {d : BitVec 4} (hd : errorCodeLegal k d = true)
    (hs : RejectsAt k s.slot) : ControlMove s (raise k d s) := by
  rcases hs with ⟨rfl, h | h⟩ | ⟨rfl, h⟩ | ⟨rfl, h | h⟩ <;>
  · rw [h] at hpos
    exact .raises _ d s rfl hd (by rw [hpos]; rfl) rfl

end

theorem CoreMove.controlMove {s t : State} (hs : s.Coherent) (hm : CoreMove s t) : ControlMove s t := by
  have pos : s.phase.active = true → s.position = slotPosition s.slot := hs.active
  cases hm with
  | quiet _ => exact .stay rfl rfl
  | take _ _ _ _ _ _ _ _ _ => exact .stay rfl rfl
  | fill n ha hr hp _ hc =>
    have hne : s.slot ≠ .invert := fun h => by
      rw [pendingRead_of_stage (.inr h)] at hp
      omega
    exact (fill_move s).controlMove (pos ha) ⟨hr.1, hr.2, hne⟩
  | walk _ ha h _ hx => exact (walkStep_move hx).controlMove (pos ha) h
  | count _ ha h hx =>
    obtain ⟨-, rfl⟩ | ⟨_, u, hn, rfl⟩ := fetchCount_move hx
    · exact .corrupt (pos ha) h rfl rfl rfl
    · exact .stay (nextBWT_control hn).1 (nextBWT_control hn).2
  | select _ ha h hx =>
    obtain ⟨-, rfl⟩ | ⟨_, -, -, -, rfl⟩ | ⟨-, rfl⟩ := selectStep_move hx
    · exact .corrupt (pos ha) h rfl rfl rfl
    · exact .stay rfl rfl
    · exact .stay rfl rfl
  | invert _ ha h hx =>
    obtain ⟨-, rfl⟩ | ⟨_, _, -, -, -, rfl⟩ := invertStep_move hx
    · exact .corrupt (pos ha) h rfl rfl rfl
    · have hpos := pos ha
      rw [h] at hpos
      obtain ⟨hph, -⟩ := Prod.ext_iff.mp hpos
      exact .go _ (.inBlock, .streaming) hpos (Prod.ext hph rfl) (by decide) rfl
  | reject _ _ ha _ hd _ hr => exact .reject (pos ha) hd hr
  | run _ _ ha hr _ _ hx => exact (exec_move hr hx).controlMove (pos ha)

/-! ## The transition tables -/

theorem phaseMove_error {p : Phase} (h : p.active = true) : phaseMove p .error = true := by
  cases p with
  | idle | done | error => cases h
  | header | awaitBlock | inBlock | trailer => rfl

section
variable {s t : State}

/-- The step of a decoding phase moves `phase` by R351. -/
theorem CoreMove.phase_in_table (hs : s.Coherent) (hm : CoreMove s t) :
    t.phase = s.phase ∨ phaseMove s.phase t.phase = true := by
  by_cases ha : s.phase.active = true
  case neg => exact .inl (by rw [hm.eq_of_inactive ha])
  cases hm.controlMove hs with
  | stay hp _ => exact .inl (congrArg Prod.fst hp)
  | go p q hp hq hin _ =>
    subst hp hq
    exact (positionMoves_in_tables _ hin).1
  | raises k d u ht _ _ _ =>
    subst ht
    exact .inr (phaseMove_error ha)

/-- The step of a decoding phase moves `bphase` by R352; an error leaves it, but for EXHAUSTED (R22). -/
theorem CoreMove.bphase_in_table (hs : s.Coherent) (hm : CoreMove s t) :
    (t.bphase = s.bphase ∨ bphaseMove s.bphase t.bphase = true)
      ∧ (t.phase = .error → t.bphase = s.bphase ∨ (s.bphase = .streaming ∧ t.bphase = .exhausted)) := by
  cases hm.controlMove hs with
  | stay hp _ =>
    have hb : t.bphase = s.bphase := congrArg Prod.snd hp
    exact ⟨.inl hb, fun _ => .inl hb⟩
  | go p q hp hq hin _ =>
    subst hp hq
    obtain ⟨-, hb, hne⟩ := positionMoves_in_tables _ hin
    exact ⟨hb, fun h => absurd h hne⟩
  | raises k d u ht _ hk hb =>
    subst ht
    split at hb
    · next hcrc =>
      subst hcrc
      have hstream : s.bphase = .streaming := congrArg Prod.snd hk
      refine ⟨.inr ?_, fun _ => .inr ⟨hstream, hb⟩⟩
      rw [raise_bphase, hb, hstream]
      rfl
    · exact ⟨.inl hb, fun _ => .inl hb⟩

theorem slotPosition_outside {sl : Slot} (h : (slotPosition sl).1 ≠ .inBlock) : (slotPosition sl).2 = .none := by
  cases sl <;> simp_all [slotPosition]

/-- Outside a block and without an error `bphase` is NONE (R22). -/
theorem State.Coherent.bphase_none (hs : s.Coherent) (he : s.phase ≠ .error) (hb : s.phase ≠ .inBlock) :
    s.bphase = .none := by
  cases hp : s.phase with
  | idle => exact (hs.idle hp).1
  | done => exact hs.done hp
  | error => exact absurd hp he
  | inBlock => exact absurd hp hb
  | header | awaitBlock | trailer =>
    obtain ⟨hph, hbp⟩ := Prod.ext_iff.mp (hs.active (by rw [hp]; rfl))
    exact hbp.trans (slotPosition_outside (hph ▸ hb))

/-- Coherence does not speak of the environment's fields (log 3). -/
theorem State.Coherent.environment (hs : s.Coherent) (e : List EnvEvent) (q : List SrcAnswer) (r : Option Nat)
    (d : List Word) : { s with env := e, srcQ := q, snkRoom := r, hostData := d }.Coherent := { hs with }

theorem State.Coherent.start (hs : s.Coherent) (e : List EnvEvent) (hp : s.phase = .idle) :
    { s with env := e, streamCRC := 0#32, phase := .header }.Coherent := by
  obtain ⟨hb, hslot, -⟩ := hs.idle hp
  exact coherent_at hslot rfl hb

theorem step_coherent (hs : s.Coherent) (hx : step s = .next t) : t.Coherent :=
  step_keeps (fun _ _ h hm => hm.coherent h) (fun s => (resetCore_inv s).coherent) (fun _ e h hp => h.start e hp)
    (fun _ e q r d h => h.environment e q r d) hs hx

end

/-- Settles O51: the core's moves follow the table, START leaves IDLE and reset enters it, and no other event
touches `phase`. -/
theorem phaseTransitions : Obligations.PhaseTransitions := by
  intro s t hs hx
  refine ⟨step_coherent hs hx, ?_⟩
  cases step_move hx with
  | core _ _ hm => exact (hm.phase_in_table hs).imp_right .inl
  | turn rest _ _ hm =>
    have hcore := hm.phase_in_table (hs.environment rest s.srcQ s.snkRoom s.hostData)
    exact hcore.imp_right .inl
  | reset rest he => exact .inr (.inr (.inr ⟨rfl, by rw [he]; rfl⟩))
  | start value rest he hv hp => exact .inr (.inr (.inl ⟨hp, rfl, value, by rw [he]; rfl, hv⟩))
  | event _ _ _ _ _ _ _ _ | close _ _ => exact .inl rfl

/-- Settles O52: the core's moves follow the table, and no event but reset touches `bphase`. -/
theorem bphaseTransitions : Obligations.BphaseTransitions := by
  intro s t hs hx hreset
  refine (and_assoc.mp ⟨?_, fun he hb => (step_coherent hs hx).bphase_none he hb⟩)
  cases step_move hx with
  | core _ _ hm => exact hm.bphase_in_table hs
  | turn rest _ _ hm =>
    have hcore := hm.bphase_in_table (hs.environment rest s.srcQ s.snkRoom s.hostData)
    exact hcore
  | reset rest he => exact absurd (by rw [he]; rfl) hreset
  | start _ _ _ _ _ | event _ _ _ _ _ _ _ _ | close _ _ => exact ⟨.inl rfl, fun _ => .inl rfl⟩

/-! ## The error latch -/

/-- Settles O50: an error is raised at a position of its kind; every other move keeps the latch. -/
theorem errorLatchWriters : Obligations.ErrorLatchWriters := by
  intro s t hs he hx
  have hm : CoreMove s t := coreStep_move (by simpa only [step, he] using hx)
  by_cases ha : s.phase.active = true
  case neg =>
    rw [hm.eq_of_inactive ha]
    by_cases herr : s.phase = .error
    · exact .inr (.inl herr)
    · exact .inl ⟨rfl, rfl, rfl, herr⟩
  cases hm.controlMove hs with
  | stay hp hl =>
    injection hl with hk hl
    injection hl with hd hb
    have hph : t.phase = s.phase := congrArg Prod.fst hp
    exact .inl ⟨hk, hd, hb, hph ▸ ne_error_of_active ha⟩
  | go p q hp hq hin hl =>
    subst hp hq
    injection hl with hk hl
    injection hl with hd hb
    exact .inl ⟨hk, hd, hb, (positionMoves_in_tables _ hin).2.2⟩
  | raises k d u ht hc hk hb =>
    subst ht
    refine .inr (.inr ⟨ha, rfl, rfl, ?_, hc, ?_⟩)
    · rintro rfl
      exact hk
    · simp only [raise_errKind, raise_bphase]
      refine ⟨?_, ?_, ?_, ?_, ?_, ?_⟩ <;> rintro rfl
      case refine_3 => exact ⟨congrArg Prod.fst hk, hb⟩
      all_goals exact hk

/-- Settles O49: `raise` is the record written out, and outside the decoding phases a step is an event's own. -/
theorem errorEntry : Obligations.ErrorEntry := by
  refine ⟨fun _ _ _ => rfl, fun s he hp => ?_, fun s t e rest hp he hr hx => ?_⟩
  · have ha : ¬ s.phase.active = true := by rcases hp with h | h | h <;> rw [h] <;> exact nofun
    simp only [step, he, coreStep, if_neg ha]
  · have ha : ¬ s.phase.active = true := by rcases hp with h | h <;> rw [h] <;> exact nofun
    cases step_move hx with
    | core _ he' _ => rw [he] at he'; cases he'
    | turn rest' _ he' hm =>
      rw [he] at he'
      cases he'
      rw [hm.eq_of_inactive ha]
    | reset _ he' => rw [he] at he'; cases he'; exact absurd rfl hr
    | start _ _ _ _ hidle => rw [hidle] at hp; rcases hp with h | h <;> cases h
    | event _ _ _ _ _ he' _ _ | close _ he' =>
      rw [he] at he'
      cases he'
      rfl

end Sys2Proof.Machine
end

section
/-! Every run of a decoding core ends (spec/30_encoding.md R421; spec/47_rle4_output.md R328): with a source that
ends and a sink without a bound, a core step that does not end the run takes something from the source or the
accumulator, or comes nearer to the next read. -/

namespace Sys2Proof.Machine

/-! ## What a read needs -/

theorem fixed_more_pos {n chunk m : Nat} {k : Nat → Decoded} {bits : List Bool}
    (h : fixed n chunk k bits = .more m) (hk : ∀ v, k v ≠ .more m) (hc : 0 < chunk) : 0 < m := by
  unfold fixed at h
  split at h
  · injection h with h
    omega
  · exact absurd h (hk _)

theorem decodeSymbol_more_pos {tb : HuffTable} {eob m : Nat} {bits : List Bool}
    (h : decodeSymbol tb eob bits = .more m) : 0 < m := by
  unfold decodeSymbol at h
  split at h
  · injection h with h
    omega
  · split at h
    · cases h
    · split at h
      · split at h
        · cases h
        · split at h <;> cases h
      · split at h
        · cases h
        · injection h with h
          omega

/-- Every read takes at least one bit. -/
theorem decodeBits_more_pos {c : Ctx} {bits : List Bool} {m : Nat} (h : decodeBits c bits = .more m) : 0 < m := by
  cases c with
  | selMtf nt => exact (decodeUnary_eq_more h).1 ▸ Nat.one_pos
  | cld => exact (decodeCld_eq_more h).1 ▸ Nat.one_pos
  | symbol ls t e => exact decodeSymbol_more_pos h
  | hdrMagic | hdrH =>
    simp only [decodeBits] at h
    exact fixed_more_pos h (fun v => by split <;> exact nofun) (by decide)
  | marker =>
    simp only [decodeBits] at h
    exact fixed_more_pos h (fun v => by split <;> [exact nofun; (split <;> exact nofun)]) (by decide)
  | _ =>
    simp only [decodeBits] at h
    exact fixed_more_pos h (fun v => nofun) (by decide)

/-- The slots that read an element from the stream. -/
def Slot.reads : Slot → Bool
  | .select | .invert | .rle | .rleCount => false
  | _ => true

/-- Where an element is read and none of its bits have been, a read is in progress: no element is empty. -/
theorem pendingRead_pos {s : State} (hst : StageOk s) (hr : s.slot.reads = true) (hl : s.latch = []) :
    0 < pendingRead s := by
  by_cases h : s.slot = .symbol
  · obtain ⟨c?, hc⟩ := ctxOf_ok hst
    cases c? with
    | none =>
      simp only [ctxOf, h] at hc
      split at hc <;> cases hc
    | some c =>
      obtain ⟨lens, hlens, -, hpath, hd⟩ := (path_of_stage hst h).decode h hc
      have hm := hlens.min_bounds.1
      have hmore : decodeBits c s.latch = .more (lenMin lens) := by
        rw [hd, hl, decodeSymbol]
        exact if_pos hm
      simp only [pendingRead, h, hc, hmore]
      exact hm
  · unfold pendingRead ctxOf
    cases hs : s.slot <;> simp_all [Slot.reads, decodeBits, fixed, decodeUnary, decodeCld]

/-! ## The measure -/

/-- What the source and the accumulator still hold, a byte of the source weighing more than its eight bits. -/
def unread (s : State) : Nat := s.bitCnt + 9 * s.srcQ.length

/-- How far the core is from its next read. Running an element leads to a stage, to the walk or to the next read, a
stage to the walk or the next read, and the walk's end to the next read. -/
def stageRank (s : State) : Nat :=
  match s.slot with
  | .select | .invert => 2
  | .rle | .rleCount => 1
  | _ => if s.latch = [] then 0 else 3

/-- What the walk has left (spec/47_rle4_output.md R328). A byte taken from the block outweighs a count that is still
to be run, and a count the 256 copies that it can set. -/
def walkLeft (s : State) : Nat :=
  1000 * (s.bwtLen - s.bwtDone) + s.rlePending + (if s.latch = [] then 0 else 1)
    + (if s.slot = .rleCount then 300 else 0)

/-- The step from `s` to `t` comes nearer to the end of the run. -/
def Nearer (t s : State) : Prop :=
  Prod.Lex (· < ·) (Prod.Lex (· < ·) (· < ·)) (unread t, stageRank t, walkLeft t)
    (unread s, stageRank s, walkLeft s)

theorem nearer_wf : WellFounded Nearer :=
  InvImage.wf (fun s => (unread s, stageRank s, walkLeft s))
    (WellFounded.prod_lex Nat.lt_wfRel.wf (WellFounded.prod_lex Nat.lt_wfRel.wf Nat.lt_wfRel.wf))

section
variable {s t : State}

theorem nearer_of_unread (h : unread t < unread s) : Nearer t s := .left _ _ h

theorem nearer_of_rank (hu : unread t = unread s) (h : stageRank t < stageRank s) : Nearer t s := by
  rw [Nearer, hu]
  exact .right _ (.left _ _ h)

theorem nearer_of_walk (hu : unread t = unread s) (hr : stageRank t = stageRank s)
    (h : walkLeft t < walkLeft s) : Nearer t s := by
  rw [Nearer, hu, hr]
  exact .right _ (.right _ h)

theorem stageRank_read (hr : s.slot.reads = true) (hl : s.latch ≠ []) : stageRank s = 3 := by
  unfold stageRank
  cases hs : s.slot <;> simp_all [Slot.reads]

theorem stageRank_advance (sl : Slot) (s : State) : stageRank (advance sl s) ≤ 2 := by
  cases sl <;> simp [stageRank]

theorem stageRank_walk (h : s.slot = .rle ∨ s.slot = .rleCount) : stageRank s = 1 := by
  rcases h with h | h <;> simp only [stageRank, h]

theorem le_walkLeft (s : State) : 1000 * (s.bwtLen - s.bwtDone) + s.rlePending ≤ walkLeft s := by
  rw [walkLeft]
  omega

theorem walkLeft_le (s : State) : walkLeft s ≤ 1000 * (s.bwtLen - s.bwtDone) + s.rlePending + 301 := by
  rw [walkLeft]
  split <;> split <;> omega

/-! ## The moves without a read -/

/-- From `s` to `t` nothing is taken from the source or the accumulator. -/
structure SourceKept (s t : State) : Prop where
  srcQ : t.srcQ = s.srcQ
  srcClosed : t.srcClosed = s.srcClosed
  bitCnt : t.bitCnt = s.bitCnt

theorem SourceKept.unread_eq (h : SourceKept s t) : unread t = unread s := by
  rw [unread, unread, h.srcQ, h.bitCnt]

theorem ElementMove.sourceKept (hm : ElementMove s t) : SourceKept s t := by
  cases hm with
  | literalFull u _ hf | eob u _ hf | literal u _ _ _ _ _ _ _ _ _ hf _ _ _ _ _ =>
    rw [flushRun_frame hf]
    exact ⟨rfl, rfl, rfl⟩
  | rleRun _ _ u _ _ _ _ hn =>
    rw [nextBWT_frame hn]
    exact ⟨rfl, rfl, rfl⟩
  | _ => exact ⟨rfl, rfl, rfl⟩

theorem WalkMove.sourceKept (hm : WalkMove s t) : SourceKept s t := by
  cases hm with
  | byte _ u _ hn =>
    rw [nextBWT_frame hn]
    exact ⟨rfl, rfl, rfl⟩
  | _ => exact ⟨rfl, rfl, rfl⟩

/-- A walk byte taken leaves one fewer (spec/46_bwt.md R305). -/
theorem nextBWT_left {b : Byte} (hw : WalkOk s) (hn : nextBWT s = .ok (some b, t)) :
    t.bwtLen - t.bwtDone + 1 = s.bwtLen - s.bwtDone ∧ t.rlePending = s.rlePending ∧ SourceKept s t := by
  obtain ⟨-, hb, -⟩ | ⟨c, hne, -, -, -, rfl⟩ := nextBWT_eq_ok hn
  · cases hb
  · have hle := hw.1
    rw [derandomise_frame]
    exact ⟨show s.bwtLen - (s.bwtDone + 1) + 1 = _ by omega, rfl, rfl, rfl, rfl⟩

/-- A walk byte made ready to be read, as a byte of the block or as a count. -/
theorem nearer_latchByte {sl : Slot} {b : Byte} {u : State} (h : s.slot = .rle ∨ s.slot = .rleCount)
    (hsl : sl = .rle ∨ sl = .rleCount) (hw : WalkOk s) (hn : nextBWT s = .ok (some b, u)) :
    Nearer (latchByte sl b u) s := by
  obtain ⟨hleft, hpend, hkept⟩ := nextBWT_left hw hn
  refine nearer_of_walk hkept.unread_eq ?_ ?_
  · rw [stageRank_walk h, stageRank_walk hsl]
  · have hlow := le_walkLeft s
    have hhigh := walkLeft_le (latchByte sl b u)
    simp only [latchByte_bwtLen, latchByte_bwtDone, latchByte_rlePending] at hhigh
    omega

theorem ElementMove.nearer (hr : s.slot.reads = true → s.latch ≠ [])
    (hl : s.slot = .rle ∨ s.slot = .rleCount → s.latch ≠ []) (hw : s.slot = .rle ∨ s.slot = .rleCount → WalkOk s)
    (hroom : s.snkRoom = none) (ha : t.phase.active = true) (hm : ElementMove s t) : Nearer t s := by
  have hu := hm.sourceKept.unread_eq
  have run : s.slot.reads = true → ∀ sl u, t = advance sl u → Nearer t s := fun h sl u ht => by
    refine nearer_of_rank hu ?_
    rw [stageRank_read h (hr h), ht]
    exact Nat.lt_succ_of_le (stageRank_advance sl u)
  cases hm with
  | badLevel _ | badStreamCrc _ _ | emptyMap _ _ | mapEmpty _ _ _ _ _ | badTables _ _ | badSelCount _ _
  | badCodeLen _ | escapeFull _ _ _ | literalFull _ _ _ | noCount _ _ _ _ _ _ | streamCrc _ _ _ => cases ha
  | rleHold _ _ _ hs _ =>
    rw [hroom] at hs
    cases hs
  | rleLit _ h _ _ | rleRep _ h _ _ _ =>
    refine nearer_of_walk hu ?_ ?_
    · rw [stageRank_walk (.inl h)]
      rfl
    · simp [walkLeft, h, hl (.inl h)]
  | rleRun _ c u h _ _ _ hn => exact nearer_latchByte (.inl h) (.inr rfl) (hw (.inl h)) hn
  | rleCount c h =>
    refine nearer_of_walk hu ?_ ?_
    · rw [stageRank_walk (.inr h)]
      rfl
    · have := c.isLt
      simp [walkLeft, h, hl (.inr h)]
      omega
  | _ => exact run (by rw [‹s.slot = _›]; rfl) _ _ rfl

theorem WalkMove.nearer (h : s.slot = .rle) (hw : WalkOk s) (hroom : s.snkRoom = none)
    (ha : t.phase.active = true) (hm : WalkMove s t) : Nearer t s := by
  have hu := hm.sourceKept.unread_eq
  cases hm with
  | copyHold _ _ _ hs =>
    rw [hroom] at hs
    cases hs
  | copy _ hp _ _ =>
    refine nearer_of_walk hu ?_ ?_
    · rw [stageRank_walk (.inl h)]
      exact stageRank_walk (.inl h)
    · exact Nat.add_lt_add_right (Nat.add_lt_add_right (Nat.add_lt_add_left (Nat.sub_lt hp Nat.one_pos) _) _) _
  | byte b u _ hn => exact nearer_latchByte (.inl h) (.inl rfl) hw hn
  | badCrc _ _ => cases ha
  | blockEnd _ _ _ =>
    refine nearer_of_rank hu ?_
    rw [stageRank_walk (.inl h)]
    exact Nat.one_pos

/-! ## The run -/

/-- A decoding core whose source ends and whose sink has no bound, its own step next. -/
structure Live (s : State) : Prop where
  inv : s.Inv
  env : s.env = []
  active : s.phase.active = true
  source : SourceEnds s
  sink : s.snkRoom = none

theorem SourceKept.sourceEnds (hk : SourceKept s t) (h : SourceEnds s) : SourceEnds t := by
  rw [SourceEnds, hk.srcQ, hk.srcClosed]
  exact h

theorem FillMove.goesOn (hs : SourceEnds s) (ha : t.phase.active = true) (hm : FillMove s t) :
    SourceEnds t ∧ Nearer t s := by
  cases hm with
  | closed _ | eof _ _ _ => cases ha
  | hold hc hq =>
    rcases hs with h | h
    · rw [hc] at h
      cases h
    · rw [hq] at h
      cases h
  | byte b q hc hq =>
    refine ⟨.inr ?_, nearer_of_unread ?_⟩
    · simpa [SourceEnds, hc, hq] using hs
    · simp only [unread, hq, List.length_cons]
      omega

/-- A move that goes on decoding keeps the source ending, and comes nearer to the end. -/
theorem Live.goesOn (hs : Live s) (hm : CoreMove s t) (ha : t.phase.active = true) :
    SourceEnds t ∧ Nearer t s := by
  have hst := hs.inv.stage hs.active
  have kept : SourceKept s t → Nearer t s → SourceEnds t ∧ Nearer t s := fun hk hn => ⟨hk.sourceEnds hs.source, hn⟩
  cases hm with
  | quiet h => rw [hs.active] at h; cases h
  | fill _ _ _ _ _ _ => exact (fill_move s).goesOn hs.source ha
  | take n c _ _ _ _ hc hx hd =>
    refine ⟨hs.source, nearer_of_unread ?_⟩
    have := decodeBits_more_pos hd
    show s.bitCnt - n + 9 * s.srcQ.length < s.bitCnt + 9 * s.srcQ.length
    omega
  | walk _ _ h _ hx =>
    have hm := walkStep_move hx
    exact kept hm.sourceKept (hm.nearer h (walk_of_stage hst (.inl h)) hs.sink ha)
  | count _ _ h hx =>
    obtain ⟨-, rfl⟩ | ⟨_, u, hn, rfl⟩ := fetchCount_move hx
    · cases ha
    · have hw := walk_of_stage hst (.inr h)
      have hk := (nextBWT_left hw hn).2.2
      exact kept ⟨hk.srcQ, hk.srcClosed, hk.bitCnt⟩ (nearer_latchByte (.inr h) (.inr rfl) hw hn)
  | select _ _ h hx =>
    obtain ⟨-, rfl⟩ | ⟨_, -, -, -, rfl⟩ | ⟨-, rfl⟩ := selectStep_move hx
    · cases ha
    all_goals exact kept ⟨rfl, rfl, rfl⟩ (nearer_of_rank rfl (by simp [stageRank, h]))
  | invert _ _ h hx =>
    obtain ⟨-, rfl⟩ | ⟨_, _, -, -, -, rfl⟩ := invertStep_move hx
    · cases ha
    · exact kept ⟨rfl, rfl, rfl⟩ (nearer_of_rank rfl (by simp [stageRank, h]))
  | reject _ _ _ _ _ _ _ => cases ha
  | run i _ _ hr hp hl hx =>
    have hm := exec_move hr hx
    refine kept hm.sourceKept (hm.nearer (fun h hnil => ?_) (fun h hnil => ?_) (walk_of_stage hst) hs.sink ha)
    · have := pendingRead_pos hst h hnil
      omega
    · rcases h with h | h
      · have := hl h
        simp [hnil] at this
      · rw [StageOk, h, hnil] at hst
        simp at hst

/-- No transfer bounds a sink without a bound (log 5), and none touches the schedule. -/
theorem unbounded_of_transfer (h : Transfer s t) (hs : s.snkRoom = none) : t.env = s.env ∧ t.snkRoom = none := by
  have keep : t.ports.env = s.env → t.ports.snkRoom = none → t.env = s.env ∧ t.snkRoom = none := And.intro
  cases h with
  | none h | newBlock h _ | takeByte _ _ _ h | takeEof _ _ _ h => exact keep (by rw [h]; rfl) (by rw [h]; exact hs)
  | give b _ h =>
    refine keep (by rw [h]; rfl) ?_
    rw [h]
    show s.snkRoom.map _ = none
    rw [hs]
    rfl

theorem phaseMove_idle (p : Phase) : phaseMove p .idle = false := by
  cases p <;> rfl

/-- A decoding core ends or goes on decoding (spec/48_stream.md R351). -/
theorem CoreMove.ends_or_active (hs : s.Coherent) (ha : s.phase.active = true) (hm : CoreMove s t) :
    (t.phase = .done ∨ t.phase = .error) ∨ t.phase.active = true := by
  have hphase := hm.phase_in_table hs
  cases h : t.phase with
  | idle =>
    rw [h, phaseMove_idle] at hphase
    rcases hphase with hp | hp
    · rw [← hp] at ha
      cases ha
    · cases hp
  | done => exact .inl (.inl rfl)
  | error => exact .inl (.inr rfl)
  | header | awaitBlock | inBlock | trailer => exact .inr rfl

/-- The step of a live core ends the run or goes on with it. -/
theorem Live.step (hs : Live s) :
    ∃ t, step s = .next t ∧ ((t.phase = .done ∨ t.phase = .error) ∨ (Live t ∧ Nearer t s)) := by
  obtain ⟨t, hx⟩ := (soundStepNeverFaults s hs.inv).2.2 hs.env
  have hm : CoreMove s t := coreStep_move (by simpa only [Machine.step, hs.env] using hx)
  refine ⟨t, hx, (hm.ends_or_active hs.inv.coherent hs.active).imp_right fun ha => ?_⟩
  obtain ⟨hsrc, hnear⟩ := hs.goesOn hm ha
  obtain ⟨henv, hroom⟩ := unbounded_of_transfer hm.transfer hs.sink
  exact ⟨⟨hm.inv hs.inv, henv.trans hs.env, ha, hsrc, hroom⟩, hnear⟩

end

/-- A live core comes to DONE or ERROR. -/
theorem Live.terminates {s : State} (hs : Live s) :
    ∃ (k : Nat) (t : State), runSteps k s = .next t ∧ (t.phase = .done ∨ t.phase = .error) := by
  induction s using nearer_wf.induction with
  | _ s ih =>
  obtain ⟨t, hx, hend | ⟨ht, hnear⟩⟩ := hs.step
  · exact ⟨1, t, runSteps_succ hx 0, hend⟩
  · obtain ⟨k, u, hrun, hend⟩ := ih t hnear ht
    exact ⟨k + 1, u, (runSteps_succ hx k).trans hrun, hend⟩

/-- Settles O60: each step of a live core ends the run or comes nearer to its end, by a well-founded order. -/
theorem runsTerminate : Obligations.RunsTerminate := fun _ hinv he ha hsrc hsnk =>
  Live.terminates ⟨hinv, he, ha, hsrc, hsnk⟩

end Sys2Proof.Machine
end

section
/-! RLE4 expansion, its copies and the block end (spec/47_rle4_output.md R320 to R327): each case of the streaming
loop and of its elements by what it depends on. -/

namespace Sys2Proof.Machine

/-! ## The sink (spec/20_memory.md R82) -/

section
variable {s : State} {b : Byte}

/-- At a full sink the core holds. -/
theorem emit_full (f : State → State) (h : s.snkRoom = some 0) : emit b f s = { s with waitSnk := true } :=
  if_neg (by simp [sinkReady, h])

/-- A sink with room accepts. -/
theorem emit_accepted (f : State → State) (h : s.snkRoom ≠ some 0) : emit b f s = f (accepted b s) :=
  if_pos (by simpa [sinkReady] using h)

/-! ## The element that stands ready -/

theorem AtElement.slot_eq {sl : Slot} (h : AtElement sl s) : s.slot = sl := h.2.2

/-- The element whose bits have been read is run. -/
theorem step_exec {sl : Slot} {c : Ctx} {i : Instr} (h : AtElement sl s) (hc : ctxOf s = .ok (some c))
    (hd : decodeBits c s.latch = .instr i) : step s = exec i s :=
  (stepRunsElement s c h.1 h.2.1 hc).1 i hd

/-- Bits that are no element raise their error. -/
theorem step_reject {sl : Slot} {c : Ctx} {why : Reject} (h : AtElement sl s) (hc : ctxOf s = .ok (some c))
    (hd : decodeBits c s.latch = .reject why) : step s = rejectElement why s := by
  rw [step_elementStep h hc, elementStep, hd]

/-- The walk byte that stands ready is read by the run-length state (R320; spec/30_encoding.md R123). -/
theorem step_rleClass (h : AtElement .rle s) (hl : s.latch = natToBits 8 b.toNat) :
    step s = exec (rleClass s.rleLast s.rleAcc b) s :=
  step_exec h (by rw [ctxOf, h.slot_eq]) (hl ▸ (spells_rle rfl).whole)

theorem step_rleCount (h : AtElement .rleCount s) (hl : s.latch = natToBits 8 b.toNat) :
    step s = exec (.rle4Count b) s :=
  step_exec h (by rw [ctxOf, h.slot_eq]) (hl ▸ (spells_operand (fun _ => rfl) (by decide) b).whole)

/-- The count byte stands ready after the walk byte that is it (R323). -/
theorem fetchCount_byte {t : State} (h : nextBWT s = .ok (some b, t)) :
    fetchCount s = .next (latchByte .rleCount b t) := by
  rw [fetchCount, h]
  rfl

theorem fetchCount_end (h : s.bwtDone = s.bwtLen) :
    fetchCount s = .next (raiseCorrupt Config.detailRle4Count s) := by
  rw [fetchCount, nextBWT_end h]
  rfl

/-! ## The loop without a byte ready -/

theorem walkStep_copy (hp : 0 < s.rlePending) : walkStep s = copyStep s := if_pos hp

theorem copyStep_of_last (hb : s.rleLast = some b) :
    copyStep s = .next (emit b (fun t => { t with rlePending := t.rlePending - 1 }) s) := by
  rw [copyStep, hb]

theorem copyStep_none (hb : s.rleLast = none) : copyStep s = .fault .noLastByte := by
  rw [copyStep, hb]

theorem walkStep_byte {t : State} (hp : s.rlePending = 0) (h : nextBWT s = .ok (some b, t)) :
    walkStep s = .next (latchByte .rle b t) := by
  rw [walkStep, if_neg (by omega), h]
  rfl

theorem walkStep_end (hp : s.rlePending = 0) (h : s.bwtDone = s.bwtLen) : walkStep s = .next (blockEnd s) := by
  rw [walkStep, if_neg (by omega), nextBWT_end h]
  rfl

theorem blockEnd_match (h : s.blockCRC ^^^ Config.crcInit = s.storedBlockCRC) :
    blockEnd s = advance .marker { s with
      calcBlockCRC := s.blockCRC ^^^ Config.crcInit
      streamCRC := rotl1 s.streamCRC ^^^ (s.blockCRC ^^^ Config.crcInit)
      bphase := .none, phase := .awaitBlock } :=
  if_neg (not_not_intro h)

theorem blockEnd_mismatch (h : s.blockCRC ^^^ Config.crcInit ≠ s.storedBlockCRC) :
    blockEnd s = raise .blockCRCMismatch Config.detailNone
      { s with calcBlockCRC := s.blockCRC ^^^ Config.crcInit, bphase := .exhausted } :=
  if_pos h

/-- A pending copy's step is one `emit` (R327, R326). -/
theorem step_copy (h : AtElement .rle s) (hl : s.latch = []) (hp : 0 < s.rlePending) (hb : s.rleLast = some b) :
    step s = .next (emit b (fun t => { t with rlePending := t.rlePending - 1 }) s) := by
  rw [step_walkStep h hl, walkStep_copy hp, copyStep_of_last hb]

end

/-! ## The statements -/

/-- Settles O44: a byte ready is classed; else the copy, the next walk byte or the block end. -/
theorem streamingLoop : Obligations.StreamingLoop := by
  intro s h
  refine ⟨fun b hl => ⟨fun hb => ?_, fun hb ha => ?_, fun hb ha => ?_⟩,
    fun hl hp => ⟨fun b hb hr => ?_, fun b hb hr => ?_, fun hb => ?_⟩,
    fun hl hp => ⟨fun b t hn => ?_, fun hd => ?_⟩⟩
  · rw [step_rleClass h hl, rleClass_lit _ hb]
  · rw [step_rleClass h hl, hb, rleClass_rep b ha]
  · rw [step_rleClass h hl, hb, rleClass_run b ha]
  · rw [step_copy h hl hp hb, emit_full _ hr]
  · rw [step_copy h hl hp hb, emit_accepted _ hr]
    rfl
  · rw [step_walkStep h hl, walkStep_copy hp, copyStep_none hb]
  · rw [step_walkStep h hl, walkStep_byte hp hn]
    rfl
  · rw [step_walkStep h hl, walkStep_end hp hd]

/-- Settles O45: both elements are one `emit`. -/
theorem literalAndRepeat : Obligations.LiteralAndRepeat := fun _ _ =>
  ⟨fun h => ⟨congrArg _ (emit_full _ h), congrArg _ (emit_full _ h)⟩,
    fun h => ⟨congrArg _ (emit_accepted _ h), congrArg _ (emit_accepted _ h)⟩⟩

/-- Settles O46: the count byte is the next walk byte, and its element sets the copies. -/
theorem runAndCount : Obligations.RunAndCount :=
  ⟨fun _ _ => ⟨fun _ _ hn => fetchCount_byte hn, fetchCount_end⟩, fun _ _ h hl => step_rleCount h hl,
    fun _ _ => rfl⟩

/-- Settles O48: the walk's end is the block's, and the check has two outcomes. -/
theorem blockEnd_spec : Obligations.BlockEnd := by
  intro s h hl hp hd
  have hstep : step s = .next (blockEnd s) := by rw [step_walkStep h hl, walkStep_end hp hd]
  rw [hstep]
  exact ⟨fun hc => congrArg _ (blockEnd_match hc), fun hc => congrArg _ (blockEnd_mismatch hc)⟩

/-! ## Copies in a row (R327) -/

/-- Counting modulo 2^32 (spec/10_state.md R26, R30). -/
theorem succ_eq_ofNat (w : Word) : w + 1#32 = BitVec.ofNat 32 (w.toNat + 1) := by
  apply BitVec.eq_of_toNat_eq
  rw [BitVec.toNat_add, BitVec.toNat_ofNat]
  rfl

/-- `s` after `k` of its pending copies of `b`. -/
def copies (k : Nat) (b : Byte) (s : State) : State :=
  { s with
    rlePending := s.rlePending - k
    sunk := s.sunk ++ List.replicate k b
    snkRoom := s.snkRoom.map (fun n => n - k)
    waitSnk := if k = 0 then s.waitSnk else false
    blockCRC := crcRepeat s.blockCRC b k
    outCount := BitVec.ofNat 32 (s.outCount.toNat + k) }

/-- The sink takes `k` more bytes. -/
def HasRoom (k : Nat) (s : State) : Prop := s.snkRoom = none ∨ ∃ n, s.snkRoom = some n ∧ k ≤ n

section
variable {s : State} {b : Byte} {k : Nat}

theorem copies_zero : copies 0 b s = s := by
  simp [copies, crcRepeat]

/-- One copy, then `k` more. -/
theorem copies_succ : copies k b (copies 1 b s) = copies (k + 1) b s := by
  have hroom : (s.snkRoom.map (fun n => n - 1)).map (fun n => n - k) = s.snkRoom.map (fun n => n - (k + 1)) := by
    rw [Option.map_map]
    exact congrArg (Option.map · _) (funext fun n => by simp only [Function.comp_apply]; omega)
  have hsunk : (s.sunk ++ List.replicate 1 b) ++ List.replicate k b = s.sunk ++ List.replicate (k + 1) b := by
    rw [List.append_assoc]
    rfl
  have hcount : BitVec.ofNat 32 ((BitVec.ofNat 32 (s.outCount.toNat + 1)).toNat + k)
      = BitVec.ofNat 32 (s.outCount.toNat + (k + 1)) := by
    apply BitVec.eq_of_toNat_eq
    simp only [BitVec.toNat_ofNat]
    omega
  have hpend : s.rlePending - 1 - k = s.rlePending - (k + 1) := by omega
  have hwait : (if k = 0 then if 1 = 0 then s.waitSnk else false else false) = false := by simp
  simp only [copies, hroom, hsunk, hcount, hpend, hwait]
  rfl

theorem HasRoom.ne (h : HasRoom (k + 1) s) : s.snkRoom ≠ some 0 := by
  rcases h with h | ⟨n, h, hk⟩ <;> rw [h]
  · exact nofun
  · exact fun h0 => by injection h0; omega

theorem HasRoom.copy (h : HasRoom (k + 1) s) : HasRoom k (copies 1 b s) := by
  rcases h with h | ⟨n, h, hk⟩
  · exact .inl (by simp only [copies, h]; rfl)
  · exact .inr ⟨n - 1, by simp only [copies, h]; rfl, by omega⟩

/-- The step of a copy that the sink accepts (R326, R327). -/
theorem step_copies (h : AtElement .rle s) (hl : s.latch = []) (hp : 0 < s.rlePending) (hb : s.rleLast = some b)
    (hr : s.snkRoom ≠ some 0) : step s = .next (copies 1 b s) := by
  rw [step_copy h hl hp hb, emit_accepted _ hr, copies, ← succ_eq_ofNat]
  rfl

/-- `k` steps deliver `k` pending copies that the sink has room for. -/
theorem runSteps_copies (h : AtElement .rle s) (hl : s.latch = []) (hb : s.rleLast = some b)
    (hp : k ≤ s.rlePending) (hr : HasRoom k s) : runSteps k s = .next (copies k b s) := by
  induction k generalizing s with
  | zero => rw [copies_zero]; rfl
  | succ k ih =>
    have hx := step_copies h hl (by omega) hb hr.ne
    have hp' : k ≤ (copies 1 b s).rlePending := Nat.le_sub_one_of_lt hp
    rw [runSteps_succ hx, ih (s := copies 1 b s) h hl hb hp' hr.copy, copies_succ]

/-- The copy behind those the sink has room for holds (R82). -/
theorem step_copies_full (h : AtElement .rle s) (hl : s.latch = []) (hb : s.rleLast = some b)
    (hp : k < s.rlePending) (hr : s.snkRoom = some k) :
    step (copies k b s) = .next { copies k b s with snkRoom := some 0, waitSnk := true } := by
  have hfull : (copies k b s).snkRoom = some 0 := by
    simp only [copies, hr, Option.map_some, Nat.sub_self]
  have hleft : 0 < (copies k b s).rlePending := Nat.sub_pos_of_lt hp
  rw [step_copy (s := copies k b s) h hl hleft hb, emit_full _ hfull, ← hfull]

end

/-- Settles O47: by induction on the number of copies, and the hold behind them. -/
theorem pendingCopies : Obligations.PendingCopies := by
  intro s b k h hl hb hp
  refine ⟨runSteps_copies h hl hb hp, fun hr hlt => ?_⟩
  rw [runSteps_add (runSteps_copies h hl hb hp (.inr ⟨k, hr, le_refl k⟩)),
    runSteps_succ (step_copies_full h hl hb hlt hr)]
  rfl

end Sys2Proof.Machine
end

section
/-! The stream-level elements (spec/48_stream.md R341 to R348): how each is read, what its value is checked against
and what it does. -/

namespace Sys2Proof.Machine

/-! ## Reads -/

theorem hdrMagic_reads : ReadsField .hdrMagic 16 16 :=
  readsField_of_fixed (c := .hdrMagic) (by decide) (by decide) (fun s h => by rw [ctxOf, h])
    ⟨_, fun _ => by rw [decodeBits]⟩ (by decide)

theorem hdrH_reads : ReadsField .hdrH 8 8 :=
  readsField_of_fixed (c := .hdrH) (by decide) (by decide) (fun s h => by rw [ctxOf, h])
    ⟨_, fun _ => by rw [decodeBits]⟩ (by decide)

theorem marker_reads : ReadsField .marker 48 24 :=
  readsField_of_fixed (c := .marker) (by decide) (by decide) (fun s h => by rw [ctxOf, h])
    ⟨_, fun _ => by rw [decodeBits]⟩ (by decide)

theorem hdrLevel_field : ReadsField .hdrLevel 8 8 ∧ RunsField .hdrLevel 8 (fun v => .hdrLevel (BitVec.ofNat 8 v)) :=
  field_of_fixed .hdrLevel (by decide) (fun _ => rfl) (fun _ => rfl) (by decide)

theorem streamCrc_field :
    ReadsField .streamCrc 32 16 ∧ RunsField .streamCrc 32 (fun v => .streamCrc (BitVec.ofNat 32 v)) :=
  field_of_fixed .streamCrc (by decide) (fun _ => rfl) (fun _ => rfl) (by decide)

/-! ## Checked values (spec/30_encoding.md R125) -/

theorem fixed_full {n chunk : Nat} {k : Nat → Decoded} {bits : List Bool} (h : bits.length = n) :
    fixed n chunk k bits = k (bitsToNat bits) :=
  if_neg (by omega)

section
variable {bits : List Bool}

theorem decode_hdrMagic (h : bits.length = 16) : decodeBits .hdrMagic bits =
    if bitsToNat bits = 0x425A then .instr .hdrMagic else .reject .magic := by
  rw [decodeBits, fixed_full h]

theorem decode_hdrH (h : bits.length = 8) : decodeBits .hdrH bits =
    if bitsToNat bits = 0x68 then .instr .hdrH else .reject .h := by
  rw [decodeBits, fixed_full h]

theorem decode_marker (h : bits.length = 48) : decodeBits .marker bits =
    if bitsToNat bits = 0x314159265359 then .instr .markBlock
    else if bitsToNat bits = 0x177245385090 then .instr .markEnd
    else .reject .marker := by
  rw [decodeBits, fixed_full h]

end

/-! ## The elements' own checks -/

section
variable {d : Byte} {crc : Word} {s : State}

theorem levelLegal_iff : levelLegal d = true ↔ 0x31 ≤ d.toNat ∧ d.toNat ≤ 0x39 := by
  simp [levelLegal]

theorem execHdrLevel_digit (h : 0x31 ≤ d.toNat ∧ d.toNat ≤ 0x39) :
    execHdrLevel d s = .next (advance .marker { s with mult := levelMult d, phase := .awaitBlock }) :=
  if_pos (levelLegal_iff.mpr h)

theorem execHdrLevel_other (h : ¬ (0x31 ≤ d.toNat ∧ d.toNat ≤ 0x39)) :
    execHdrLevel d s = .next (raise .invalidHeader Config.detailLevel s) :=
  if_neg (mt levelLegal_iff.mp h)

theorem execStreamCrc_match (h : crc = s.streamCRC) :
    execStreamCrc crc s = .next (advance .streamCrc { s with storedStreamCRC := crc, phase := .done }) :=
  if_neg (not_not_intro h)

theorem execStreamCrc_mismatch (h : crc ≠ s.streamCRC) :
    execStreamCrc crc s =
      .next (raise .streamCRCMismatch Config.detailNone { s with storedStreamCRC := crc }) :=
  if_pos h

end

/-! ## The statements -/

/-- Settles O24: each value is compared once its bits are there, and its element only moves on. -/
theorem headerMagicAndH : Obligations.HeaderMagicAndH := by
  refine ⟨hdrMagic_reads, hdrH_reads, fun s h hl => ⟨fun hv => ?_, fun hv => ?_⟩,
    fun s h hl => ⟨fun hv => ?_, fun hv => ?_⟩, fun s => ⟨rfl, rfl⟩⟩
  · exact step_exec h (by rw [ctxOf, h.slot_eq]) (by rw [decode_hdrMagic hl, if_pos hv])
  · exact step_reject h (by rw [ctxOf, h.slot_eq]) (by rw [decode_hdrMagic hl, if_neg hv])
  · exact step_exec h (by rw [ctxOf, h.slot_eq]) (by rw [decode_hdrH hl, if_pos hv])
  · exact step_reject h (by rw [ctxOf, h.slot_eq]) (by rw [decode_hdrH hl, if_neg hv])

/-- Settles O25: the digits are one range, and the other bytes lie below or above it. -/
theorem headerLevel : Obligations.HeaderLevel :=
  ⟨hdrLevel_field.1, hdrLevel_field.2, fun _ _ =>
    ⟨fun hlo hhi => execHdrLevel_digit ⟨hlo, hhi⟩, fun h => execHdrLevel_other (by omega)⟩⟩

/-- Settles O26: the 48 bits are compared with both markers. -/
theorem markerDispatch : Obligations.MarkerDispatch := by
  refine ⟨marker_reads, fun s h hl => ?_, fun s => rfl⟩
  have hc : ctxOf s = .ok (some .marker) := by rw [ctxOf, h.slot_eq]
  have hd := decode_marker hl
  refine ⟨fun hv => ?_, fun hv => ?_, fun hb he => ?_⟩
  · exact step_exec h hc (by rw [hd, if_pos hv])
  · exact step_exec h hc (by rw [hd, hv]; rfl)
  · exact step_reject h hc (by rw [hd, if_neg hb, if_neg he])

/-- Settles O27: the element is block init with the block counted. -/
theorem markBlock_spec : Obligations.MarkBlock := by
  intro s
  rw [← succ_eq_ofNat]
  rfl

/-- Settles O28: two halves, and the two outcomes of the comparison. -/
theorem streamCrcCheck : Obligations.StreamCrcCheck :=
  ⟨streamCrc_field.1, streamCrc_field.2, fun _ _ => ⟨execStreamCrc_match, execStreamCrc_mismatch⟩⟩

end Sys2Proof.Machine
end

section
/-! Reset and START (spec/70_reset_and_hazards.md R410, R411; spec/48_stream.md R340). -/

namespace Sys2Proof.Machine

/-! ## Reset -/

/-- The host's registers do not show the environment's fields, so each reads 0 after any reset. -/
theorem csrWord_resetCore (s : State) (offset : Nat) : csrWord (resetCore s) offset = 0#32 :=
  csrWord_reset offset

/-- Settles O1: the event's step is `resetCore`, whose fields are read off. -/
theorem resetEvent : Obligations.ResetEvent := by
  intro s rest he
  refine ⟨_, step_envStep he, ⟨rfl, rfl, rfl, rfl, rfl⟩, ⟨rfl, rfl, rfl, rfl⟩, ⟨rfl, rfl, rfl⟩,
    ⟨rfl, rfl, rfl, rfl⟩, ⟨rfl, rfl, rfl⟩, ⟨rfl, rfl, rfl, fun _ => rfl⟩, ⟨rfl, rfl, fun _ => rfl⟩,
    fun _ => ⟨rfl, rfl⟩, ⟨rfl, fun _ => ⟨rfl, rfl⟩⟩, ⟨rfl, rfl, rfl, rfl, rfl⟩,
    ⟨rfl, fun _ => ⟨rfl, rfl, rfl⟩⟩, ⟨rfl, rfl, rfl, rfl⟩, ⟨rfl, rfl, rfl⟩, ⟨rfl, rfl⟩,
    csrWord_resetCore _, rfl, rfl, ⟨rfl, rfl⟩, ⟨rfl, rfl, rfl, rfl, rfl⟩⟩

/-- Settles O58: the states are reset's own and START's after it. -/
theorem resetIsSound : Obligations.ResetIsSound :=
  ⟨resetCore_inv State.reset, (resetCore_inv State.reset).start [] rfl⟩

/-! ## START -/

/-- A host write of CTRL (spec/10_state.md R51). -/
theorem step_write_ctrl {s : State} {value : Word} {rest : List EnvEvent}
    (he : s.env = .write Config.csrBase 4 value :: rest) :
    step s = .next (csrWrite 0 value { s with env := rest }) := by
  rw [step_envStep he]
  exact hostWrite_of_window (windowOffset_base (offset := 0) rfl) value _

section
variable {s : State} {value : Word}

theorem csrWrite_start (hv : value.getLsbD 0 = true) : csrWrite 0 value s = start s := if_pos ⟨rfl, hv⟩

theorem csrWrite_no_start {offset : Nat} (hv : value.getLsbD 0 = false) : csrWrite offset value s = s :=
  if_neg fun h => by rw [hv] at h; cases h.2

theorem start_idle (h : s.phase = .idle) : start s = { s with streamCRC := 0#32, phase := .header } := if_pos h

theorem start_ignored (h : s.phase ≠ .idle) : start s = s := if_neg h

end

/-- Settles O2: bit 0 decides whether the write is a START, and the phase whether it is accepted. -/
theorem hostStart : Obligations.HostStart := by
  intro s value rest he
  rw [step_write_ctrl he]
  refine ⟨fun hp hv => ?_, fun h => ?_⟩
  · rw [csrWrite_start hv, start_idle (s := { s with env := rest }) hp]
  · cases hv : value.getLsbD 0 with
    | false => rw [csrWrite_no_start hv]
    | true =>
      have hp : s.phase ≠ .idle := h.resolve_right (by rw [hv]; exact nofun)
      rw [csrWrite_start hv, start_ignored (s := { s with env := rest }) hp]

end Sys2Proof.Machine
end
